-- ==== Sys2Proof/Word.lean ====
section
/-! DEFINITION. The word types of the block (00_scope.md R7, R9): an 8-bit byte and a 16-bit word. -/

namespace Sys2Proof

/-- An 8-bit pattern: a memory byte, a byte register, an instruction byte. -/
abbrev Byte := BitVec 8

/-- A 16-bit pattern: a word register, the instruction pointer, an address, a displacement. -/
abbrev Word := BitVec 16

end Sys2Proof
end

