-- ==== Sys2Proof/Config.lean ====
section
/-! DEFINITION. What is fixed for one block and never changes while it runs: the two open parameters of
00_scope.md R8 (PF_SCOPE, CODE_FETCH_SOURCE) and the fixed sizes of R7. The third parameter, N_LANES, is a
host-written register field (CTRL.LANES, R31) and is therefore state. -/

namespace Sys2Proof

/-- PF_SCOPE (R8, R172): which bits of the result the parity flag counts. -/
inductive PfScope where
  | lowByte
  | fullWidth
  deriving DecidableEq, Repr

/-- CODE_FETCH_SOURCE (R8, R67): where an instruction byte is read from. -/
inductive CodeFetchSource where
  | memory
  | programBuffer
  deriving DecidableEq, Repr

/-- The parameters a model takes as arguments (R8). A state carries them as plain data (assumption 1), so that a
statement about every state is a statement about every setting. -/
structure Config where
  pfScope : PfScope
  codeFetchSource : CodeFetchSource
  deriving DecidableEq, Repr

/-- The default setting of R8: PF_SCOPE = LOW_BYTE, CODE_FETCH_SOURCE = MEMORY. -/
def Config.default : Config := ⟨.lowByte, .memory⟩

/-- MEM_SIZE (R7, R28). -/
abbrev memSize : Nat := 65536

/-- MAX_PROG (R7, R29). -/
abbrev maxProg : Nat := 65535

/-- MAX_INSN (R7, R101). -/
abbrev maxInsn : Nat := 6

/-- N_MAX (R7): the number of lane states the vector engine holds (R34). -/
abbrev maxLanes : Nat := 32

/-- A lane's index (R34). -/
abbrev Lane := Fin maxLanes

end Sys2Proof
end

