-- ==== Sys2Proof/Syntax.lean ====
section
/-! DEFINITION. The instructions (30_encoding.md R91), one constructor of `Instr` for each row of
spec/opcode_table.json, with every bit their encodings carry, and the decoded record of R100 that the decoder
delivers. -/

namespace Sys2Proof

/-- The operand width W (R81): 8 or 16 bits. -/
inductive Width where
  | byte
  | word
  deriving DecidableEq, Repr

/-- W as a number of bits. -/
@[reducible] def Width.bits : Width → Nat
  | .byte => 8
  | .word => 16

/-- W / 8: the number of memory bytes an access of width W touches (R69). -/
def Width.bytes : Width → Nat
  | .byte => 1
  | .word => 2

/-- A 3-bit register field (R83). At W = 16 it is the word index of R20, at W = 8 the byte index of R21. -/
abbrev RegIdx := Fin 8

/-- The address terms that the rm field selects when mod is not 11 (R85), in the order of rm = 000 to 111. -/
inductive EaTerms where
  | bxSi | bxDi | bpSi | bpDi | si | di | bp | bx
  deriving DecidableEq, Repr

/-- The r/m operand as the mod and rm fields encode it (R84, R86), with its displacement bytes. -/
inductive RmOperand where
  /-- mod = 11: the register `rm` at the instruction's width. -/
  | reg (r : RegIdx)
  /-- mod = 00, rm = 110: a direct 16-bit address. -/
  | direct (addr : Word)
  /-- mod = 00, rm not 110: no displacement. `noDisp .bp` has no encoding (`Instr.wf` refuses it). -/
  | noDisp (t : EaTerms)
  /-- mod = 01: one displacement byte. -/
  | disp8 (t : EaTerms) (d : Byte)
  /-- mod = 10: two displacement bytes. -/
  | disp16 (t : EaTerms) (d : Word)
  deriving DecidableEq, Repr

/-- The four opcodes of the immediate group with the immediate each one carries (R88, R107, R109). -/
inductive GroupImm where
  /-- opcode 80: W = 8, one immediate byte. -/
  | op80 (v : Byte)
  /-- opcode 81: W = 16, two immediate bytes. -/
  | op81 (v : Word)
  /-- opcode 82: the alias of 80. -/
  | op82 (v : Byte)
  /-- opcode 83: W = 16, one immediate byte, sign-extended. -/
  | op83 (v : Byte)
  deriving DecidableEq, Repr

/-- The admitted instructions (R91), rows 1 to 34 in order. `d` is the direction bit (R89), `w` the width,
`r` the ModRM reg register, `rel` the jump displacement byte. -/
inductive Instr where
  | movRmReg (d : Bool) (w : Width) (rm : RmOperand) (r : RegIdx)
  | movRmImm (w : Width) (rm : RmOperand) (imm : BitVec w.bits)
  | movRegImm (w : Width) (r : RegIdx) (imm : BitVec w.bits)
  | movAccMem (w : Width) (addr : Word)
  | movMemAcc (w : Width) (addr : Word)
  | addRmReg (d : Bool) (w : Width) (rm : RmOperand) (r : RegIdx)
  | addRmImm (rm : RmOperand) (g : GroupImm)
  | addAccImm (w : Width) (imm : BitVec w.bits)
  | subRmReg (d : Bool) (w : Width) (rm : RmOperand) (r : RegIdx)
  | subRmImm (rm : RmOperand) (g : GroupImm)
  | subAccImm (w : Width) (imm : BitVec w.bits)
  | cmpRmReg (d : Bool) (w : Width) (rm : RmOperand) (r : RegIdx)
  | cmpRmImm (rm : RmOperand) (g : GroupImm)
  | cmpAccImm (w : Width) (imm : BitVec w.bits)
  | jo (rel : Byte)
  | jno (rel : Byte)
  | jb (rel : Byte)
  | jnb (rel : Byte)
  | je (rel : Byte)
  | jne (rel : Byte)
  | jbe (rel : Byte)
  | ja (rel : Byte)
  | js (rel : Byte)
  | jns (rel : Byte)
  | jp (rel : Byte)
  | jnp (rel : Byte)
  | jl (rel : Byte)
  | jnl (rel : Byte)
  | jle (rel : Byte)
  | jg (rel : Byte)
  | loopnz (rel : Byte)
  | loopz (rel : Byte)
  | loop (rel : Byte)
  | jcxz (rel : Byte)
  deriving DecidableEq, Repr

/-- The opcode class of a decoded record (R100). -/
inductive Cls where
  | mov | add | sub | cmp
  | jo | jno | jb | jnb | je | jne | jbe | ja | js | jns | jp | jnp | jl | jnl | jle | jg
  | loopnz | loopz | loop | jcxz
  deriving DecidableEq, Repr

/-- The base register of a memory operand (R100). -/
inductive BaseReg where
  | bx | bp | si | di
  deriving DecidableEq, Repr

/-- The index register of a memory operand (R100). -/
inductive IndexReg where
  | si | di
  deriving DecidableEq, Repr

/-- A memory operand (R100): optional base and index, a 16-bit displacement, and whether it is a direct address. -/
structure MemOperand where
  base : Option BaseReg
  index : Option IndexReg
  disp : Word
  direct : Bool
  deriving DecidableEq, Repr

/-- A decoded operand of width `w` (R100). The width is tagged in the type, so that the two operands of a data
instruction and the value written have one width by construction. -/
inductive Operand (w : Width) where
  | reg (idx : RegIdx)
  | imm (value : BitVec w.bits)
  | mem (m : MemOperand)
  deriving DecidableEq, Repr

/-- The operand list of a record (R100): `[dst, src]` for a data class, `[rel]` for a jump class. -/
inductive Operands where
  | data (w : Width) (dst src : Operand w)
  | jump (rel : Operand .byte)
  deriving DecidableEq, Repr

/-- The decoded instruction of R100, as the decode-only output stream delivers it (R37). -/
structure Record where
  cls : Cls
  operands : Operands
  len : Nat
  off : Word
  op0 : Byte
  deriving DecidableEq, Repr

end Sys2Proof
end

