-- ==== Sys2Proof/Machine/State.lean ====
section
/-! DEFINITION. The state of the block (10_state.md R20 to R39), as plain data, and its value after RESET (R39,
R300). The reasons a step can stop stand here too. -/

namespace Sys2Proof.Machine

/-- The eight word registers x[0..7] (R20): AX CX DX BX SP BP SI DI. -/
abbrev Regs := Vector Word 8

/-- The six flags (R25). -/
structure Flags where
  cf : Bool
  pf : Bool
  af : Bool
  zf : Bool
  sf : Bool
  of : Bool
  deriving DecidableEq, Repr

/-- The flat byte array M (R28), held as the list of its bytes that differ from what an unlisted address reads
as, by rising address (`Memory.wf`). -/
abbrev Memory := List Host.Cell

/-- One lane of the vector engine (R34). -/
structure LaneState where
  x : Regs
  flags : Flags
  took : Bool
  done : Bool
  ipFinal : Word
  deriving DecidableEq, Repr

/-- One entry of the predicate stack (R35): where its lanes wait, and one bit for each lane; `false` says that
the lane is parked at `resume`. -/
structure PredEntry where
  resume : Word
  pred : Vector Bool maxLanes
  deriving DecidableEq, Repr

/-- STATUS.STATE (R31, R306). -/
inductive RunState where
  | idle
  | running
  | done
  | error
  deriving DecidableEq, Repr

/-- STATUS.ERR_KIND (R31, R270). -/
inductive ErrKind where
  | none
  | decodeError
  | unsupportedInstruction
  | operandKindViolation
  | inputTruncated
  | configError
  deriving DecidableEq, Repr

/-- CTRL.MODE (R31); 3 is reserved and refused by START (R33). -/
inductive Mode where
  | decodeOnly
  | scalar
  | vector
  | reserved
  deriving DecidableEq, Repr

/-- Why the machine stops. The errors of R270 are no faults here: the spec gives each its effect on the state
(R276), so a step that raises one answers a next state whose STATUS.STATE is ERROR. -/
inductive Fault where
  /-- Raised by `step` alone, in a state that is RUNNING with CTRL.MODE = 3. START never starts a run in that mode
  (R33) and CTRL cannot change during a run (R306), so no run reaches such a state, and R306 gives it no step.
  Safe: the model stops where the spec says nothing. -/
  | runningInReservedMode
  deriving DecidableEq, Repr

/-- Why an instruction is refused. -/
inductive Refusal where
  /-- An instruction that has no meaning in the model yet, by its name in the opcode table; raised by an arm of
  `exec` alone. No arm of this model raises it. Safe. -/
  | notModelled (mnemonic : String)
  deriving DecidableEq, Repr

/-- Everything the spec gives the block (R20 to R37), and the block's parameters (R8). -/
structure State where
  /-- PF_SCOPE and CODE_FETCH_SOURCE (R8): the parameters, which no step and no host operation changes. -/
  cfg : Config
  /-- The scalar word registers (R20). -/
  x : Regs
  /-- The scalar instruction pointer (R24). -/
  ip : Word
  /-- The scalar flags (R25). -/
  flags : Flags
  /-- M (R28). -/
  mem : Memory
  /-- P, the read-only copy of the loaded program (R29, R30). -/
  prog : List Byte
  /-- PROG_LEN, the program length L (R29, R31). -/
  progLen : Word
  /-- CTRL[7:0]: MODE in bits 1:0, LANES in bits 7:2 (R31). -/
  ctrl : BitVec 8
  /-- STATUS.STATE (R31). -/
  runState : RunState
  /-- STATUS.ERR_KIND (R31). -/
  errKind : ErrKind
  /-- ERR_OFFSET (R31). -/
  errOffset : Word
  /-- ERR_BYTE[7:0] (R31). -/
  errByte : Byte
  /-- lane[0..31] (R34). -/
  lanes : Vector LaneState maxLanes
  /-- The shared instruction pointer (R35). -/
  vip : Word
  /-- The predicate stack (R35), the last pushed entry first. -/
  pstack : List PredEntry
  /-- OUT, the decode-only output stream (R37), the first record first. -/
  out : List (Word × Record)
  /-- The decode-only cursor (R37). -/
  dpos : Word
  deriving DecidableEq, Repr

/-- All six flags 0 (R39). -/
def Flags.zero : Flags := ⟨false, false, false, false, false, false⟩

/-- All eight words 0 (R39). -/
def Regs.zero : Regs := Vector.replicate 8 0

/-- A lane after RESET (R39). -/
def LaneState.zero : LaneState := ⟨Regs.zero, Flags.zero, false, false, 0⟩

/-- The state after RESET of a block with parameters `c` (R39, R300). CTRL is 0x81: MODE = 1, LANES = 32. -/
def State.resetWith (c : Config) : State where
  cfg := c
  x := Regs.zero
  ip := 0
  flags := Flags.zero
  mem := []
  prog := []
  progLen := 0
  ctrl := 0x81
  runState := .idle
  errKind := .none
  errOffset := 0
  errByte := 0
  lanes := Vector.replicate maxLanes LaneState.zero
  vip := 0
  pstack := []
  out := []
  dpos := 0

/-- The machine right after RESET, at the default parameters of R8. -/
def State.reset : State := State.resetWith Config.default

end Sys2Proof.Machine
end

