-- ==== Sys2Proof/Machine/Flags.lean ====
section
/-! DEFINITION. The flag computations: the ALU functions of 42_add_sub_cmp.md (R170 to R172), the jump conditions
of 43_jumps.md (R201) and the host's FLAGS image (10_state.md R26). -/

namespace Sys2Proof.Machine

/-- The number of 1 bits among bits 0 to k − 1 of `v`. -/
def onesBelow {n : Nat} (v : BitVec n) : Nat → Nat
  | 0 => 0
  | k + 1 => onesBelow v k + (v.getLsbD k).toNat

/-- EvenParity of bits k − 1 to 0 (R12). -/
def evenParity {n : Nat} (v : BitVec n) (k : Nat) : Bool := onesBelow v k % 2 == 0

/-- Parity(r, W) (R172): the low byte or the whole width, as PF_SCOPE says. -/
def parity {n : Nat} (sc : PfScope) (r : BitVec n) : Bool :=
  match sc with
  | .lowByte => evenParity r 8
  | .fullWidth => evenParity r n

/-- u_4(v[3:0]) (R9). -/
def lowNibble {n : Nat} (v : BitVec n) : Nat := v.toNat % 16

/-- AddALU(a, b, W) (R170): the result and the six flags. -/
def addAlu {n : Nat} (sc : PfScope) (a b : BitVec n) : BitVec n × Flags :=
  let full := a.toNat + b.toNat
  let r := BitVec.ofNat n full
  (r,
    { cf := decide (2 ^ n ≤ full)
      pf := parity sc r
      af := decide (16 ≤ lowNibble a + lowNibble b)
      zf := r == 0
      sf := r.msb
      of := a.msb == b.msb && r.msb != a.msb })

/-- SubALU(a, b, W) (R171): the result and the six flags. -/
def subAlu {n : Nat} (sc : PfScope) (a b : BitVec n) : BitVec n × Flags :=
  let r := BitVec.ofInt n ((a.toNat : Int) - b.toNat)
  (r,
    { cf := decide (a.toNat < b.toNat)
      pf := parity sc r
      af := decide (lowNibble a < lowNibble b)
      zf := r == 0
      sf := r.msb
      of := a.msb != b.msb && r.msb != a.msb })

/-- Cond(cc, flags) (R201): the condition of opcode 70 + cc. -/
def jumpCond (cc : Fin 16) (f : Flags) : Bool :=
  match cc.val with
  | 0 => f.of
  | 1 => !f.of
  | 2 => f.cf
  | 3 => !f.cf
  | 4 => f.zf
  | 5 => !f.zf
  | 6 => f.cf || f.zf
  | 7 => !f.cf && !f.zf
  | 8 => f.sf
  | 9 => !f.sf
  | 10 => f.pf
  | 11 => !f.pf
  | 12 => f.sf != f.of
  | 13 => f.sf == f.of
  | 14 => f.zf || (f.sf != f.of)
  | _ => !f.zf && (f.sf == f.of)

/-- One flag at its bit of the FLAGS image. -/
def flagAt (b : Bool) (k : Nat) : Word := if b then BitVec.twoPow 16 k else 0

/-- The FLAGS image (R26): OF at bit 11, SF 7, ZF 6, AF 4, PF 2, CF 0, every other bit 0. -/
def Flags.image (f : Flags) : Word :=
  flagAt f.of 11 ||| flagAt f.sf 7 ||| flagAt f.zf 6 ||| flagAt f.af 4 ||| flagAt f.pf 2 ||| flagAt f.cf 0

/-- The flags a host write of the image sets (R26, R305); its other bits are ignored. -/
def Flags.ofImage (v : Word) : Flags where
  cf := v.getLsbD 0
  pf := v.getLsbD 2
  af := v.getLsbD 4
  zf := v.getLsbD 6
  sf := v.getLsbD 7
  of := v.getLsbD 11

end Sys2Proof.Machine
end

