-- ==== Sys2Proof/WellFormed.lean ====
section
/-! DEFINITION. Which terms of `Instr` are instructions of the block: those that have an encoding. The widths of
immediates and register fields are carried by the types; what is left to check is the one hole of the mod/rm
table (30_encoding.md R85, R86). -/

namespace Sys2Proof

/-- `[bp]` with no displacement has no encoding: mod = 00, rm = 110 is the direct address (R86). -/
def RmOperand.wf : RmOperand → Bool
  | .noDisp .bp => false
  | _ => true

/-- An instruction is well formed when its r/m operand, if it has one, is encodable. -/
def Instr.wf : Instr → Bool
  | .movRmReg _ _ rm _ => rm.wf
  | .movRmImm _ rm _ => rm.wf
  | .addRmReg _ _ rm _ => rm.wf
  | .addRmImm rm _ => rm.wf
  | .subRmReg _ _ rm _ => rm.wf
  | .subRmImm rm _ => rm.wf
  | .cmpRmReg _ _ rm _ => rm.wf
  | .cmpRmImm rm _ => rm.wf
  | .movRegImm _ _ _ => true
  | .movAccMem _ _ => true
  | .movMemAcc _ _ => true
  | .addAccImm _ _ => true
  | .subAccImm _ _ => true
  | .cmpAccImm _ _ => true
  | .jo _ => true
  | .jno _ => true
  | .jb _ => true
  | .jnb _ => true
  | .je _ => true
  | .jne _ => true
  | .jbe _ => true
  | .ja _ => true
  | .js _ => true
  | .jns _ => true
  | .jp _ => true
  | .jnp _ => true
  | .jl _ => true
  | .jnl _ => true
  | .jle _ => true
  | .jg _ => true
  | .loopnz _ => true
  | .loopz _ => true
  | .loop _ => true
  | .jcxz _ => true

end Sys2Proof
end

