-- ==== Sys2Proof/Decode.lean ====
section
/-! DEFINITION. The decoder of 30_encoding.md (R80 to R110): total on any bytes, rejecting by name; the decoded
record (R100), the length (R101) and the first byte of every instruction; and after it the encoder, written from
the same tables. -/

namespace Sys2Proof

/-! ### Fields of bytes and words -/

/-- `hi : lo` (R9, R61, R67). -/
def joinBytes (lo hi : Byte) : Word := hi ++ lo

/-- `v[7:0]`. -/
def loByte (v : Word) : Byte := v.extractLsb' 0 8

/-- `v[15:8]`. -/
def hiByte (v : Word) : Byte := v.extractLsb' 8 8

/-- The mod field, b1[7:6] (R82). -/
def modField (b1 : Byte) : Fin 4 := (b1.extractLsb' 6 2).toFin

/-- The reg field, b1[5:3] (R82). -/
def regField (b1 : Byte) : RegIdx := (b1.extractLsb' 3 3).toFin

/-- The rm field, b1[2:0] (R82). -/
def rmField (b1 : Byte) : Fin 8 := (b1.extractLsb' 0 3).toFin

/-- The width a `w` bit selects (R81). -/
def widthOfBit : Bool → Width
  | false => .byte
  | true => .word

/-- `w = b0[0]` (R81), for every row but B0-BF. -/
def widthField (b0 : Byte) : Width := widthOfBit (b0.getLsbD 0)

/-- `d = b0[1]` (R81). -/
def dirField (b0 : Byte) : Bool := b0.getLsbD 1

/-- The address terms of an rm field (R85). -/
def eaTerms (rm : Fin 8) : EaTerms :=
  match rm with
  | 0 => .bxSi
  | 1 => .bxDi
  | 2 => .bpSi
  | 3 => .bpDi
  | 4 => .si
  | 5 => .di
  | 6 => .bp
  | 7 => .bx

/-! ### The rows by their first byte -/

/-- What the first byte alone selects (R91, R94): one name per row, and one for the 80-83 group, whose row the
reg field of the second byte selects (R92). -/
inductive OpKind where
  | movRmReg | movRmImm | movRegImm | movAccMem | movMemAcc
  | addRmReg | addAccImm | subRmReg | subAccImm | cmpRmReg | cmpAccImm
  | group
  | jcc (cc : Fin 16)
  | loopnz | loopz | loop | jcxz
  deriving DecidableEq, Repr

/-- The opcode map (R91): the 68 admitted first bytes; every other byte selects nothing (R94). -/
def opKind (b0 : Byte) : Option OpKind :=
  let n := b0.toNat
  if 0x88 ≤ n ∧ n ≤ 0x8B then some .movRmReg
  else if n ≤ 0x03 then some .addRmReg
  else if 0x28 ≤ n ∧ n ≤ 0x2B then some .subRmReg
  else if 0x38 ≤ n ∧ n ≤ 0x3B then some .cmpRmReg
  else if 0xC6 ≤ n ∧ n ≤ 0xC7 then some .movRmImm
  else if 0x80 ≤ n ∧ n ≤ 0x83 then some .group
  else if 0xB0 ≤ n ∧ n ≤ 0xBF then some .movRegImm
  else if 0xA0 ≤ n ∧ n ≤ 0xA1 then some .movAccMem
  else if 0xA2 ≤ n ∧ n ≤ 0xA3 then some .movMemAcc
  else if 0x04 ≤ n ∧ n ≤ 0x05 then some .addAccImm
  else if 0x2C ≤ n ∧ n ≤ 0x2D then some .subAccImm
  else if 0x3C ≤ n ∧ n ≤ 0x3D then some .cmpAccImm
  else if 0x70 ≤ n ∧ n ≤ 0x7F then some (.jcc (b0.extractLsb' 0 4).toFin)
  else if n = 0xE0 then some .loopnz
  else if n = 0xE1 then some .loopz
  else if n = 0xE2 then some .loop
  else if n = 0xE3 then some .jcxz
  else none

/-- CC[b0[3:0]] (R97, R201): the conditional jump of a condition number. -/
def jccInstr (cc : Fin 16) (rel : Byte) : Instr :=
  match cc.val with
  | 0 => .jo rel
  | 1 => .jno rel
  | 2 => .jb rel
  | 3 => .jnb rel
  | 4 => .je rel
  | 5 => .jne rel
  | 6 => .jbe rel
  | 7 => .ja rel
  | 8 => .js rel
  | 9 => .jns rel
  | 10 => .jp rel
  | 11 => .jnp rel
  | 12 => .jl rel
  | 13 => .jnl rel
  | 14 => .jle rel
  | _ => .jg rel

/-! ### Decoding -/

/-- Why bytes are rejected (R271, R274). -/
inductive DecodeFail where
  /-- The first byte is outside the opcode map (R94): DecodeError at the first byte. -/
  | illegalOpcode (b0 : Byte)
  /-- The ModRM reg field selects no admitted row (R92, R93): DecodeError at the second byte. -/
  | illegalSubOpcode (b1 : Byte)
  /-- A byte the instruction needs is missing (R98): InputTruncated. -/
  | truncated (b0 : Byte)
  /-- There is no first byte. The step never decodes then (R98); only `decodeList` on no bytes answers it. -/
  | noByte
  deriving DecidableEq, Repr

/-- What a decode delivers: the instruction and the bytes that follow it. -/
abbrev DecodeResult := Except DecodeFail (Instr × List Byte)

/-- RMOperand(mod, rm, W) of R97: the r/m operand and the bytes after its displacement; `none` when a
displacement byte is missing. -/
def readRm (mod : Fin 4) (rm : Fin 8) (rest : List Byte) : Option (RmOperand × List Byte) :=
  match mod with
  | 3 => some (.reg rm, rest)
  | 0 =>
    if rm = 6 then
      match rest with
      | lo :: hi :: r => some (.direct (joinBytes lo hi), r)
      | _ => none
    else some (.noDisp (eaTerms rm), rest)
  | 1 =>
    match rest with
    | d :: r => some (.disp8 (eaTerms rm) d, r)
    | _ => none
  | 2 =>
    match rest with
    | lo :: hi :: r => some (.disp16 (eaTerms rm) (joinBytes lo hi), r)
    | _ => none

/-- ImmW(W) of R97. -/
def readImm : (w : Width) → List Byte → Option (BitVec w.bits × List Byte)
  | .byte, b :: r => some (b, r)
  | .word, lo :: hi :: r => some (joinBytes lo hi, r)
  | _, _ => none

/-- The immediate of the 80-83 group (R97, R107, R109), chosen by the opcode's two low bits `s w`. -/
def readGroupImm (b0 : Byte) (rest : List Byte) : Option (GroupImm × List Byte) :=
  match dirField b0, widthField b0, rest with
  | false, .byte, v :: r => some (.op80 v, r)
  | true, .byte, v :: r => some (.op82 v, r)
  | true, .word, v :: r => some (.op83 v, r)
  | false, .word, lo :: hi :: r => some (.op81 (joinBytes lo hi), r)
  | _, _, _ => none

/-- The row that the reg field of the 80-83 group selects (R92): 000 ADD, 101 SUB, 111 CMP, nothing else. -/
def groupInstr (reg : Fin 8) : Option (RmOperand → GroupImm → Instr) :=
  match reg with
  | 0 => some .addRmImm
  | 5 => some .subRmImm
  | 7 => some .cmpRmImm
  | _ => none

/-- A part of the instruction, or InputTruncated with its first byte (R98). -/
def orTruncated (b0 : Byte) {α : Type} (part : Option (α × List Byte))
    (k : α → List Byte → DecodeResult) : DecodeResult :=
  match part with
  | some (a, r) => k a r
  | none => .error (.truncated b0)

/-- The next byte (`Next()` of R97). -/
def readByte : List Byte → Option (Byte × List Byte)
  | b :: r => some (b, r)
  | [] => none

/-- Format F_RM (R89, R90). -/
def decodeRmReg (mk : Bool → Width → RmOperand → RegIdx → Instr) (b0 : Byte) (rest : List Byte) : DecodeResult :=
  orTruncated b0 (readByte rest) fun b1 r1 =>
    orTruncated b0 (readRm (modField b1) (rmField b1) r1) fun rm r2 =>
      .ok (mk (dirField b0) (widthField b0) rm (regField b1), r2)

/-- Opcodes C6 and C7 (R93). -/
def decodeMovRmImm (b0 : Byte) (rest : List Byte) : DecodeResult :=
  orTruncated b0 (readByte rest) fun b1 r1 =>
    if regField b1 = 0 then
      orTruncated b0 (readRm (modField b1) (rmField b1) r1) fun rm r2 =>
        orTruncated b0 (readImm (widthField b0) r2) fun imm r3 =>
          .ok (.movRmImm (widthField b0) rm imm, r3)
    else .error (.illegalSubOpcode b1)

/-- Opcodes 80 to 83 (R92). -/
def decodeGroup (b0 : Byte) (rest : List Byte) : DecodeResult :=
  orTruncated b0 (readByte rest) fun b1 r1 =>
    match groupInstr (regField b1) with
    | none => .error (.illegalSubOpcode b1)
    | some mk =>
      orTruncated b0 (readRm (modField b1) (rmField b1) r1) fun rm r2 =>
        orTruncated b0 (readGroupImm b0 r2) fun g r3 => .ok (mk rm g, r3)

/-- Opcodes B0 to BF (format F_RI): `w = b0[3]`, `reg = b0[2:0]` (R81). -/
def decodeMovRegImm (b0 : Byte) (rest : List Byte) : DecodeResult :=
  orTruncated b0 (readImm (widthOfBit (b0.getLsbD 3)) rest) fun imm r =>
    .ok (.movRegImm (widthOfBit (b0.getLsbD 3)) (b0.extractLsb' 0 3).toFin imm, r)

/-- Format F_AM (R90): a direct address, low byte first. -/
def decodeAccMem (mk : Width → Word → Instr) (b0 : Byte) (rest : List Byte) : DecodeResult :=
  orTruncated b0 (readImm .word rest) fun addr r => .ok (mk (widthField b0) addr, r)

/-- Format F_AI (R90). -/
def decodeAccImm (mk : (w : Width) → BitVec w.bits → Instr) (b0 : Byte) (rest : List Byte) : DecodeResult :=
  orTruncated b0 (readImm (widthField b0) rest) fun imm r => .ok (mk (widthField b0) imm, r)

/-- Format F_J (R90). -/
def decodeJump (mk : Byte → Instr) (b0 : Byte) (rest : List Byte) : DecodeResult :=
  orTruncated b0 (readByte rest) fun rel r => .ok (mk rel, r)

/-- Decode (R97) from the first byte, which always exists, and the bytes after it up to the program's end. -/
def decode (b0 : Byte) (rest : List Byte) : DecodeResult :=
  match opKind b0 with
  | none => .error (.illegalOpcode b0)
  | some .movRmReg => decodeRmReg .movRmReg b0 rest
  | some .addRmReg => decodeRmReg .addRmReg b0 rest
  | some .subRmReg => decodeRmReg .subRmReg b0 rest
  | some .cmpRmReg => decodeRmReg .cmpRmReg b0 rest
  | some .movRmImm => decodeMovRmImm b0 rest
  | some .group => decodeGroup b0 rest
  | some .movRegImm => decodeMovRegImm b0 rest
  | some .movAccMem => decodeAccMem .movAccMem b0 rest
  | some .movMemAcc => decodeAccMem .movMemAcc b0 rest
  | some .addAccImm => decodeAccImm .addAccImm b0 rest
  | some .subAccImm => decodeAccImm .subAccImm b0 rest
  | some .cmpAccImm => decodeAccImm .cmpAccImm b0 rest
  | some (.jcc cc) => decodeJump (jccInstr cc) b0 rest
  | some .loopnz => decodeJump .loopnz b0 rest
  | some .loopz => decodeJump .loopz b0 rest
  | some .loop => decodeJump .loop b0 rest
  | some .jcxz => decodeJump .jcxz b0 rest

/-- Decoding of a list of bytes. -/
def decodeList : List Byte → DecodeResult
  | [] => .error .noByte
  | b0 :: rest => decode b0 rest

/-! ### The decoded record -/

/-- The base of an r/m field's terms (R85): the lone SI or DI of rm = 100 and 101 stands in the base slot. -/
def EaTerms.base : EaTerms → BaseReg
  | .bxSi | .bxDi | .bx => .bx
  | .bpSi | .bpDi | .bp => .bp
  | .si => .si
  | .di => .di

/-- The index of an r/m field's terms (R85). -/
def EaTerms.index : EaTerms → Option IndexReg
  | .bxSi | .bpSi => some .si
  | .bxDi | .bpDi => some .di
  | .si | .di | .bp | .bx => none

/-- A based or indexed memory operand. -/
def EaTerms.mem (t : EaTerms) (disp : Word) : MemOperand := ⟨some t.base, t.index, disp, false⟩

/-- A direct memory operand (R86). -/
def directMem (addr : Word) : MemOperand := ⟨none, none, addr, true⟩

/-- The r/m operand at width `w` (R84 to R87); an 8-bit displacement is sign-extended. -/
def RmOperand.operand (w : Width) : RmOperand → Operand w
  | .reg r => .reg r
  | .direct addr => .mem (directMem addr)
  | .noDisp t => .mem (t.mem 0)
  | .disp8 t d => .mem (t.mem (d.signExtend 16))
  | .disp16 t d => .mem (t.mem d)

/-- D: the number of displacement bytes (R84, R86, R101). -/
def RmOperand.dispLen : RmOperand → Nat
  | .reg _ => 0
  | .direct _ => 2
  | .noDisp _ => 0
  | .disp8 _ _ => 1
  | .disp16 _ _ => 2

/-- The width of a group instruction (R81: `w = b0[0]`). -/
def GroupImm.width : GroupImm → Width
  | .op80 _ => .byte
  | .op81 _ => .word
  | .op82 _ => .byte
  | .op83 _ => .word

/-- The immediate as an operand (R88, R107). -/
def GroupImm.value : (g : GroupImm) → BitVec g.width.bits
  | .op80 v => v
  | .op81 v => v
  | .op82 v => v
  | .op83 v => v.signExtend 16

/-- The number of immediate bytes in the encoding (R88). -/
def GroupImm.len : GroupImm → Nat
  | .op80 _ => 1
  | .op81 _ => 2
  | .op82 _ => 1
  | .op83 _ => 1

/-- The destination of a reg/mem-with-reg form (R89). -/
def rmRegDst (d : Bool) (w : Width) (rm : RmOperand) (r : RegIdx) : Operand w :=
  if d then .reg r else rm.operand w

/-- The source of a reg/mem-with-reg form (R89). -/
def rmRegSrc (d : Bool) (w : Width) (rm : RmOperand) (r : RegIdx) : Operand w :=
  if d then rm.operand w else .reg r

/-- The accumulator, Reg{0, W}: AL or AX (R97). -/
def accOperand (w : Width) : Operand w := .reg 0

/-- The operand list of an instruction (R97, R100). -/
def Instr.operands : Instr → Operands
  | .movRmReg d w rm r | .addRmReg d w rm r | .subRmReg d w rm r | .cmpRmReg d w rm r =>
    .data w (rmRegDst d w rm r) (rmRegSrc d w rm r)
  | .movRmImm w rm imm => .data w (rm.operand w) (.imm imm)
  | .movRegImm w r imm => .data w (.reg r) (.imm imm)
  | .movAccMem w addr => .data w (accOperand w) (.mem (directMem addr))
  | .movMemAcc w addr => .data w (.mem (directMem addr)) (accOperand w)
  | .addRmImm rm g | .subRmImm rm g | .cmpRmImm rm g => .data g.width (rm.operand g.width) (.imm g.value)
  | .addAccImm w imm | .subAccImm w imm | .cmpAccImm w imm => .data w (accOperand w) (.imm imm)
  | .jo rel | .jno rel | .jb rel | .jnb rel | .je rel | .jne rel | .jbe rel | .ja rel
  | .js rel | .jns rel | .jp rel | .jnp rel | .jl rel | .jnl rel | .jle rel | .jg rel
  | .loopnz rel | .loopz rel | .loop rel | .jcxz rel => .jump (.imm rel)

/-- The opcode class of an instruction (R91, R97). -/
def Instr.cls : Instr → Cls
  | .movRmReg _ _ _ _ | .movRmImm _ _ _ | .movRegImm _ _ _ | .movAccMem _ _ | .movMemAcc _ _ => .mov
  | .addRmReg _ _ _ _ | .addRmImm _ _ | .addAccImm _ _ => .add
  | .subRmReg _ _ _ _ | .subRmImm _ _ | .subAccImm _ _ => .sub
  | .cmpRmReg _ _ _ _ | .cmpRmImm _ _ | .cmpAccImm _ _ => .cmp
  | .jo _ => .jo
  | .jno _ => .jno
  | .jb _ => .jb
  | .jnb _ => .jnb
  | .je _ => .je
  | .jne _ => .jne
  | .jbe _ => .jbe
  | .ja _ => .ja
  | .js _ => .js
  | .jns _ => .jns
  | .jp _ => .jp
  | .jnp _ => .jnp
  | .jl _ => .jl
  | .jnl _ => .jnl
  | .jle _ => .jle
  | .jg _ => .jg
  | .loopnz _ => .loopnz
  | .loopz _ => .loopz
  | .loop _ => .loop
  | .jcxz _ => .jcxz

/-- The length in bytes (R101). -/
def Instr.len : Instr → Nat
  | .movRmReg _ _ rm _ | .addRmReg _ _ rm _ | .subRmReg _ _ rm _ | .cmpRmReg _ _ rm _ => 2 + rm.dispLen
  | .movRmImm w rm _ => 2 + rm.dispLen + w.bytes
  | .addRmImm rm g | .subRmImm rm g | .cmpRmImm rm g => 2 + rm.dispLen + g.len
  | .movRegImm w _ _ => 1 + w.bytes
  | .movAccMem _ _ | .movMemAcc _ _ => 3
  | .addAccImm w _ | .subAccImm w _ | .cmpAccImm w _ => 1 + w.bytes
  | .jo _ | .jno _ | .jb _ | .jnb _ | .je _ | .jne _ | .jbe _ | .ja _
  | .js _ | .jns _ | .jp _ | .jnp _ | .jl _ | .jnl _ | .jle _ | .jg _
  | .loopnz _ | .loopz _ | .loop _ | .jcxz _ => 2

/-- The `w` bit of a width (R81). -/
def Width.bit : Width → Byte
  | .byte => 0
  | .word => 1

/-- The first byte of a reg/mem-with-reg form: its row's pattern with the d and w bits (R81). -/
def rmRegOpcode (base : Byte) (d : Bool) (w : Width) : Byte :=
  base ||| (if d then 2 else 0) ||| w.bit

/-- The first byte of a group instruction. -/
def GroupImm.opcode : GroupImm → Byte
  | .op80 _ => 0x80
  | .op81 _ => 0x81
  | .op82 _ => 0x82
  | .op83 _ => 0x83

/-- The first byte, op0 of the record (R91, R100). -/
def Instr.op0 : Instr → Byte
  | .movRmReg d w _ _ => rmRegOpcode 0x88 d w
  | .movRmImm w _ _ => 0xC6 ||| w.bit
  | .movRegImm w r _ => 0xB0 ||| (w.bit <<< 3) ||| BitVec.ofNat 8 r.val
  | .movAccMem w _ => 0xA0 ||| w.bit
  | .movMemAcc w _ => 0xA2 ||| w.bit
  | .addRmReg d w _ _ => rmRegOpcode 0x00 d w
  | .addRmImm _ g => g.opcode
  | .addAccImm w _ => 0x04 ||| w.bit
  | .subRmReg d w _ _ => rmRegOpcode 0x28 d w
  | .subRmImm _ g => g.opcode
  | .subAccImm w _ => 0x2C ||| w.bit
  | .cmpRmReg d w _ _ => rmRegOpcode 0x38 d w
  | .cmpRmImm _ g => g.opcode
  | .cmpAccImm w _ => 0x3C ||| w.bit
  | .jo _ => 0x70
  | .jno _ => 0x71
  | .jb _ => 0x72
  | .jnb _ => 0x73
  | .je _ => 0x74
  | .jne _ => 0x75
  | .jbe _ => 0x76
  | .ja _ => 0x77
  | .js _ => 0x78
  | .jns _ => 0x79
  | .jp _ => 0x7A
  | .jnp _ => 0x7B
  | .jl _ => 0x7C
  | .jnl _ => 0x7D
  | .jle _ => 0x7E
  | .jg _ => 0x7F
  | .loopnz _ => 0xE0
  | .loopz _ => 0xE1
  | .loop _ => 0xE2
  | .jcxz _ => 0xE3

/-- The record that decoding at offset `off` delivers (R100). -/
def Instr.record (i : Instr) (off : Word) : Record := ⟨i.cls, i.operands, i.len, off, i.op0⟩

/-- Is the operand a memory operand? -/
def Operand.isMem {w : Width} : Operand w → Bool
  | .mem _ => true
  | .reg _ => false
  | .imm _ => false

/-- Does the operand list hold a memory operand (R233)? -/
def Operands.hasMem : Operands → Bool
  | .data _ dst src => dst.isMem || src.isMem
  | .jump _ => false

/-- Does the instruction have a memory operand (R233)? -/
def Instr.hasMem (i : Instr) : Bool := i.operands.hasMem

/-! ### Encoding -/

/-- A 16-bit field in the instruction stream, low byte first (R67). -/
def wordBytes (v : Word) : List Byte := [loByte v, hiByte v]

/-- The rm field of address terms (R85). -/
def EaTerms.code : EaTerms → Fin 8
  | .bxSi => 0
  | .bxDi => 1
  | .bpSi => 2
  | .bpDi => 3
  | .si => 4
  | .di => 5
  | .bp => 6
  | .bx => 7

/-- The mod field of an r/m operand (R84, R86). -/
def RmOperand.modCode : RmOperand → Fin 4
  | .reg _ => 3
  | .direct _ => 0
  | .noDisp _ => 0
  | .disp8 _ _ => 1
  | .disp16 _ _ => 2

/-- The rm field of an r/m operand (R83, R85, R86). -/
def RmOperand.rmCode : RmOperand → Fin 8
  | .reg r => r
  | .direct _ => 6
  | .noDisp t => t.code
  | .disp8 t _ => t.code
  | .disp16 t _ => t.code

/-- The displacement bytes (R87). -/
def RmOperand.dispBytes : RmOperand → List Byte
  | .reg _ => []
  | .direct addr => wordBytes addr
  | .noDisp _ => []
  | .disp8 _ d => [d]
  | .disp16 _ d => wordBytes d

/-- The ModRM byte (R82): mod in bits 7:6, reg in bits 5:3, rm in bits 2:0. -/
def modRmByte (mod : Fin 4) (reg rm : Fin 8) : Byte :=
  BitVec.ofNat 8 (mod.val * 64 + reg.val * 8 + rm.val)

/-- The ModRM byte and the displacement of an r/m operand beside a reg field. -/
def RmOperand.encode (rm : RmOperand) (reg : Fin 8) : List Byte :=
  modRmByte rm.modCode reg rm.rmCode :: rm.dispBytes

/-- The bytes of an immediate of width `w` (R88). -/
def immBytes : (w : Width) → BitVec w.bits → List Byte
  | .byte, v => [v]
  | .word, v => wordBytes v

/-- The immediate bytes of a group instruction (R88). -/
def GroupImm.bytes : GroupImm → List Byte
  | .op80 v => [v]
  | .op81 v => wordBytes v
  | .op82 v => [v]
  | .op83 v => [v]

/-- The bytes after the first one. -/
def Instr.tailBytes : Instr → List Byte
  | .movRmReg _ _ rm r | .addRmReg _ _ rm r | .subRmReg _ _ rm r | .cmpRmReg _ _ rm r => rm.encode r
  | .movRmImm w rm imm => rm.encode 0 ++ immBytes w imm
  | .movRegImm w _ imm => immBytes w imm
  | .movAccMem _ addr | .movMemAcc _ addr => wordBytes addr
  | .addRmImm rm g => rm.encode 0 ++ g.bytes
  | .subRmImm rm g => rm.encode 5 ++ g.bytes
  | .cmpRmImm rm g => rm.encode 7 ++ g.bytes
  | .addAccImm w imm | .subAccImm w imm | .cmpAccImm w imm => immBytes w imm
  | .jo rel | .jno rel | .jb rel | .jnb rel | .je rel | .jne rel | .jbe rel | .ja rel
  | .js rel | .jns rel | .jp rel | .jnp rel | .jl rel | .jnl rel | .jle rel | .jg rel
  | .loopnz rel | .loopz rel | .loop rel | .jcxz rel => [rel]

/-- The bytes of an instruction, in the layout of R80. -/
def encode (i : Instr) : List Byte := i.op0 :: i.tailBytes

/-! ### The opcode table's numbering -/

/-- The bytes of an instruction whose bits are `w` in the numbering of spec/opcode_table.json, padded with zero
bytes to the longest instruction. The table reads a row's first two bytes as ONE word `(b0 << 8) | b1`, so b0 is
bits 15:8 and b1 bits 7:0 (its "match_over"); every row has 16 bits. Bytes after the second count on from bit 16
(assumption 3). -/
def tableBytes (nbits w : Nat) : List Byte :=
  let v := w % 2 ^ nbits
  let byteAt (k : Nat) : Byte := BitVec.ofNat 8 (v / 2 ^ (8 * k))
  (if nbits ≤ 8 then [byteAt 0, 0] else [byteAt 1, byteAt 0]) ++ [byteAt 2, byteAt 3, byteAt 4, byteAt 5]

/-- The instruction the decoder reads from a word in the opcode table's numbering. -/
def decodeTableWord (nbits w : Nat) : Option Instr :=
  match decodeList (tableBytes nbits w) with
  | .ok (i, _) => some i
  | .error _ => none

end Sys2Proof
end

