-- ==== Sys2Proof/Machine/Ops.lean ====
section
/-! DEFINITION. The named operations over memory, registers, the program, the control register and the predicate
stack (10_state.md, 20_memory.md, 45_vector_engine.md R240 to R243), and raising an error (60_exceptions.md R276),
which is the block's one kind of exception. There is no return from it (R279): the ways out of ERROR are the host's
START and RESET (HostOps.lean). -/

namespace Sys2Proof.Machine

/-! ### Memory -/

/-- What an address that the list does not hold reads as: M is 0x00 after RESET (R39). -/
def unlistedByte : Byte := 0

/-- The byte at a key. -/
def Memory.readKey : Memory → Nat → Byte
  | [], _ => unlistedByte
  | (k, u) :: rest, a => if k = a then u else Memory.readKey rest a

/-- A cell, unless it would hold what an unlisted address reads as. -/
def consCell (a : Nat) (v : Byte) (rest : Memory) : Memory :=
  if v = unlistedByte then rest else (a, v) :: rest

/-- Store a byte at a key, keeping the canonical form. -/
def Memory.writeKey : Memory → Nat → Byte → Memory
  | [], a, v => consCell a v []
  | (k, u) :: rest, a, v =>
    if a < k then consCell a v ((k, u) :: rest)
    else if a = k then consCell a v rest
    else (k, u) :: Memory.writeKey rest a v

/-- The canonical form: strictly rising 16-bit addresses, and no cell equal to what an unlisted address reads as. -/
abbrev Memory.wf (m : Memory) : Prop :=
  m.Pairwise (fun c d => c.1 < d.1) ∧ ∀ c ∈ m, c.1 < memSize ∧ c.2 ≠ unlistedByte

/-- M[a]. -/
def Memory.read (m : Memory) (a : Word) : Byte := m.readKey a.toNat

/-- M[a] <- v. -/
def Memory.write (m : Memory) (a : Word) (v : Byte) : Memory := m.writeKey a.toNat v

/-- MemRead(a, W / 8) (R61, R63): little-endian, the second byte at (a + 1) mod 2^16. -/
def memRead (m : Memory) (a : Word) : (w : Width) → BitVec w.bits
  | .byte => m.read a
  | .word => joinBytes (m.read a) (m.read (a + 1))

/-- MemWrite(a, W / 8, v) (R62, R63). -/
def memWrite (m : Memory) (a : Word) : (w : Width) → BitVec w.bits → Memory
  | .byte, v => m.write a v
  | .word, v => (m.write a (loByte v)).write (a + 1) (hiByte v)

/-! ### Registers -/

/-- Reading `x[i]` (R10, R20). -/
def readWord (x : Regs) (i : RegIdx) : Word := x[i]

/-- `x[i] <- v` (R10, R23). -/
def writeWord (x : Regs) (i : RegIdx) (v : Word) : Regs := x.set i v

/-- The word register that holds byte register `i` (R21): x[i] for i < 4, x[i − 4] from there on. -/
def byteOwner (i : RegIdx) : RegIdx := if i.val < 4 then i else i - 4

/-- ReadReg8(i) (R22). -/
def readReg8 (x : Regs) (i : RegIdx) : Byte :=
  if i.val < 4 then loByte (readWord x (byteOwner i)) else hiByte (readWord x (byteOwner i))

/-- WriteReg8(i, v) (R22): the other byte of the word is kept. -/
def writeReg8 (x : Regs) (i : RegIdx) (v : Byte) : Regs :=
  let old := readWord x (byteOwner i)
  writeWord x (byteOwner i) (if i.val < 4 then joinBytes v (hiByte old) else joinBytes (loByte old) v)

/-- The register an index names at a width (R83). -/
def readReg (x : Regs) (i : RegIdx) : (w : Width) → BitVec w.bits
  | .byte => readReg8 x i
  | .word => readWord x i

/-- Writing it (R22, R23). -/
def writeReg (x : Regs) (i : RegIdx) : (w : Width) → BitVec w.bits → Regs
  | .byte, v => writeReg8 x i v
  | .word, v => writeWord x i v

/-- The register index of CX (R20). -/
def cxIdx : RegIdx := 1

/-- x[1] <- (x[1] − 1) mod 2^16 (R218 to R220). -/
def decCx (x : Regs) : Regs := writeWord x cxIdx (readWord x cxIdx - 1)

/-! ### The control register -/

/-- CTRL.MODE (R31). -/
def modeOf (c : BitVec 8) : Mode :=
  match (c.extractLsb' 0 2).toNat with
  | 0 => .decodeOnly
  | 1 => .scalar
  | 2 => .vector
  | _ => .reserved

/-- CTRL.LANES (R31). -/
def laneCountOf (c : BitVec 8) : Nat := (c.extractLsb' 2 6).toNat

/-- The selected mode. -/
def State.mode (s : State) : Mode := modeOf s.ctrl

/-- N = CTRL.LANES (R231). -/
def State.laneCount (s : State) : Nat := laneCountOf s.ctrl

/-- A configuration START accepts (R33, R301). -/
def configLegal (c : BitVec 8) : Bool :=
  match modeOf c with
  | .reserved => false
  | .vector => decide (1 ≤ laneCountOf c ∧ laneCountOf c ≤ maxLanes)
  | .decodeOnly => true
  | .scalar => true

/-! ### Instruction fetch -/

/-- FetchByte(a) (R67): the data memory, or the read-only copy of the program, as CODE_FETCH_SOURCE says. -/
def State.fetchByte (s : State) (a : Nat) : Byte :=
  match s.cfg.codeFetchSource with
  | .memory => s.mem.readKey a
  | .programBuffer => s.prog.getD a 0

/-- At most `k` instruction bytes from offset `a` on, none at or past L (R68). -/
def State.fetchFrom (s : State) (a : Nat) : Nat → List Byte
  | 0 => []
  | k + 1 => if a < s.progLen.toNat then s.fetchByte a :: s.fetchFrom (a + 1) k else []

/-- Decode(start) (R97), for `start < L`: the first byte and the bytes that may follow it. No instruction is longer
than 6 bytes (R101), so five more bytes decide it. -/
def State.decodeAt (s : State) (start : Word) : DecodeResult :=
  decode (s.fetchByte start.toNat) (s.fetchFrom (start.toNat + 1) (maxInsn - 1))

/-! ### Instruction pointer -/

/-- NextSeq(ins) (R135). -/
def nextSeq (off : Word) (len : Nat) : Word := off + BitVec.ofNat 16 len

/-- Target(ins) (R135, R200): (off + len + s_8(rel8)) mod 2^16. -/
def jumpTarget (off : Word) (len : Nat) (rel : Byte) : Word := nextSeq off len + rel.signExtend 16

/-! ### Updates of the state -/

/-- What a scalar instruction can write beside ip, and all it reads (R36, R223): the registers, flags and memory. -/
structure Datapath where
  x : Regs
  flags : Flags
  mem : Memory
  deriving DecidableEq, Repr

/-- The scalar datapath. -/
def State.datapath (s : State) : Datapath := ⟨s.x, s.flags, s.mem⟩

/-- A lane's datapath (R36, R236): its own registers and flags; memory is only there to be read by fetch. -/
def State.laneDatapath (s : State) (l : Lane) : Datapath := ⟨s.lanes[l].x, s.lanes[l].flags, s.mem⟩

/-- The end of a scalar instruction: its writes and the new ip (R134, R135). -/
def State.withScalar (s : State) (p : Datapath) (ip : Word) : State :=
  { s with x := p.x, flags := p.flags, mem := p.mem, ip := ip }

/-- The end of a vector step: the lanes, the predicate stack and the shared instruction pointer (R234). -/
def State.withVector (s : State) (lanes : Vector LaneState maxLanes) (pstack : List PredEntry) (vip : Word) : State :=
  { s with lanes := lanes, pstack := pstack, vip := vip }

/-- The end of a decode-only step (R306). -/
def State.withSweep (s : State) (out : List (Word × Record)) (dpos : Word) : State :=
  { s with out := out, dpos := dpos }

/-- STATUS.STATE <- DONE (R131, R242). -/
def State.finish (s : State) : State := { s with runState := .done }

/-- Raise(kind, offset, byte) (R276): STATUS becomes ERROR with the report, and nothing else changes. It is applied
to the state the step began with, so every write of the step is discarded. -/
def State.raise (s : State) (kind : ErrKind) (offset : Word) (byte : Byte) : State :=
  { s with runState := .error, errKind := kind, errOffset := offset, errByte := byte }

/-- The report of a failed decode at `start` (R270, R271, R274). `noByte` cannot come from `State.decodeAt`. -/
def State.raiseDecode (s : State) (start : Word) : DecodeFail → State
  | .illegalOpcode b0 => s.raise .decodeError start b0
  | .illegalSubOpcode b1 => s.raise .decodeError (start + 1) b1
  | .truncated b0 => s.raise .inputTruncated start b0
  | .noByte => s.raise .inputTruncated start 0

/-! ### Lanes and the predicate stack -/

/-- Active(l) under a predicate stack (R243): below N, not done, and held back by no entry. -/
def State.active (s : State) (st : List PredEntry) (l : Lane) : Bool :=
  decide (l.val < s.laneCount) && !s.lanes[l].done && st.all (fun e => e.pred[l])

/-- The merge (R240, step 1 of R234): the entries whose resume is not vip. -/
def State.mergedStack (s : State) : List PredEntry := s.pstack.filter (fun e => e.resume != s.vip)

/-- Does the predicate hold of some lane? -/
def anyLane (p : Lane → Bool) : Bool := (List.finRange maxLanes).any p

/-- Blend (R235): the candidate's registers, flags and took bit for a lane in the set, the lane's own otherwise. -/
def blend (inSet : Bool) (cand lane : LaneState) : LaneState :=
  { lane with
    x := if inSet then cand.x else lane.x
    flags := if inSet then cand.flags else lane.flags
    took := if inSet then cand.took else lane.took }

/-- The least resume of a stack, given one resume of it (R241). -/
def leastResume (m : Word) : List PredEntry → Word
  | [] => m
  | e :: rest => leastResume (if e.resume < m then e.resume else m) rest

end Sys2Proof.Machine
end

