-- ==== Sys2Proof/Machine/Operands.lean ====
section
/-! DEFINITION. Operand access (40_execution.md R132 to R134, 20_memory.md R65, R66) and the effect that each data
class has on a datapath (41_mov.md, 42_add_sub_cmp.md). An effect answers `none` when its destination is an
immediate (OperandKindViolation, R133, R273). -/

namespace Sys2Proof.Machine

/-- The word register a base names (R20, R85). -/
def baseIdx : BaseReg → RegIdx
  | .bx => 3
  | .bp => 5
  | .si => 6
  | .di => 7

/-- The word register an index names (R20, R85). -/
def indexIdx : IndexReg → RegIdx
  | .si => 6
  | .di => 7

/-- EA(op) (R65): base + index + displacement, modulo 2^16. -/
def effectiveAddress (x : Regs) (m : MemOperand) : Word :=
  (match m.base with
    | some b => readWord x (baseIdx b)
    | none => 0) +
  (match m.index with
    | some i => readWord x (indexIdx i)
    | none => 0) + m.disp

/-- ReadOp(op) (R132). -/
def readOp {w : Width} (p : Datapath) : Operand w → BitVec w.bits
  | .reg i => readReg p.x i w
  | .imm v => v
  | .mem m => memRead p.mem (effectiveAddress p.x m) w

/-- WriteOp(op, v) (R133). The EA is the one of the datapath the instruction starts with (R66), so it is applied to
that datapath; `none` is OperandKindViolation. -/
def writeOp {w : Width} (p : Datapath) (op : Operand w) (v : BitVec w.bits) : Option Datapath :=
  match op with
  | .reg i => some { p with x := writeReg p.x i w v }
  | .mem m => some { p with mem := memWrite p.mem (effectiveAddress p.x m) w v }
  | .imm _ => none

/-- What a data instruction does to a datapath. -/
abbrev DataEffect := Datapath → Option Datapath

/-- MOV (R160 to R164): copy the source; no flag is written. -/
def movEffect {w : Width} (dst src : Operand w) : DataEffect := fun p => writeOp p dst (readOp p src)

/-- ADD (R174 to R176): both operands are read before the destination and the flags are written (R134). -/
def addEffect {w : Width} (sc : PfScope) (dst src : Operand w) : DataEffect := fun p =>
  let r := addAlu sc (readOp p dst) (readOp p src)
  (writeOp p dst r.1).map fun q => { q with flags := r.2 }

/-- SUB (R177 to R179). -/
def subEffect {w : Width} (sc : PfScope) (dst src : Operand w) : DataEffect := fun p =>
  let r := subAlu sc (readOp p dst) (readOp p src)
  (writeOp p dst r.1).map fun q => { q with flags := r.2 }

/-- CMP (R180 to R182): SUB's flags; the result is discarded and the destination only read. -/
def cmpEffect {w : Width} (sc : PfScope) (dst src : Operand w) : DataEffect := fun p =>
  some { p with flags := (subAlu sc (readOp p dst) (readOp p src)).2 }

end Sys2Proof.Machine
end

