-- ==== Sys2Proof/Machine/Engine.lean ====
section
/-! DEFINITION. How one decoded instruction runs in the two engines: the scalar one (40_execution.md R130 to R139)
and the vector one (45_vector_engine.md R233 to R239). A meaning is one call of `dataStep` or `jumpStep`.

CTRL.MODE selects the engine (70_reset_and_hazards.md R306). `step` runs instructions in SCALAR and VECTOR mode
only; in the two other modes, in which the block runs no instruction, these functions take the scalar branch and
nothing calls them (assumption 4). -/

namespace Sys2Proof.Machine

/-- One step's outcome. -/
abbrev Result := Host.Outcome State Fault Refusal

/-! ### Data instructions -/

/-- A data instruction in the scalar engine: its effect on the scalar datapath, then ip <- NextSeq (R134, R135). -/
def scalarData (i : Instr) (eff : DataEffect) (s : State) : State :=
  match eff s.datapath with
  | some p => s.withScalar p (nextSeq s.ip i.len)
  | none => s.raise .operandKindViolation s.ip i.op0

/-- ScalarEffect(ins, lane[l]) (R236): the effect on a copy of the lane's registers and flags. -/
def laneCandidate (eff : DataEffect) (s : State) (l : Lane) : LaneState :=
  match eff (s.laneDatapath l) with
  | some p => { s.lanes[l] with x := p.x, flags := p.flags }
  | none => s.lanes[l]

/-- A data instruction in the vector engine: a memory operand is refused before anything changes (R233, R272);
otherwise every lane takes its candidate through Blend and vip <- NextSeq (R234 step 4, R235, R236). -/
def vectorData (i : Instr) (eff : DataEffect) (s : State) : State :=
  if i.hasMem then s.raise .unsupportedInstruction s.vip i.op0
  else if anyLane fun l => decide (l.val < s.laneCount) && (eff (s.laneDatapath l)).isNone then
    s.raise .operandKindViolation s.vip i.op0
  else
    let st := s.mergedStack
    s.withVector
      (Vector.ofFn fun l => blend (s.active st l) (laneCandidate eff s l) s.lanes[l])
      st (nextSeq s.vip i.len)

/-- A data instruction in the engine that CTRL.MODE selects. -/
def dataStep (i : Instr) (eff : DataEffect) (s : State) : Result :=
  match s.mode with
  | .vector => .next (vectorData i eff s)
  | .scalar => .next (scalarData i eff s)
  | .decodeOnly => .next (scalarData i eff s)
  | .reserved => .next (scalarData i eff s)

/-! ### Jumps -/

/-- What a jump does to a register file, and when it is taken (R201, R218 to R221, R238): the registers after the
CX decrement of LOOP, LOOPZ and LOOPNZ, and the condition, read after it. -/
structure JumpRule where
  regs : Regs → Regs
  taken : Regs → Flags → Bool

/-- A conditional jump on the flags (R200, R201). -/
def jccRule (cc : Fin 16) : JumpRule := ⟨id, fun _ f => jumpCond cc f⟩

/-- LOOPNZ (R218). -/
def loopnzRule : JumpRule := ⟨decCx, fun x f => readWord x cxIdx != 0 && !f.zf⟩

/-- LOOPZ (R219). -/
def loopzRule : JumpRule := ⟨decCx, fun x f => readWord x cxIdx != 0 && f.zf⟩

/-- LOOP (R220). -/
def loopRule : JumpRule := ⟨decCx, fun x _ => readWord x cxIdx != 0⟩

/-- JCXZ (R221). -/
def jcxzRule : JumpRule := ⟨id, fun x _ => readWord x cxIdx == 0⟩

/-- A jump in the scalar engine (R200). -/
def scalarJump (i : Instr) (rel : Byte) (j : JumpRule) (s : State) : State :=
  let x' := j.regs s.x
  s.withScalar ⟨x', s.flags, s.mem⟩
    (if j.taken x' s.flags then jumpTarget s.ip i.len rel else nextSeq s.ip i.len)

/-- A lane's candidate at a jump (R238): its registers after the decrement and the latched outcome. -/
def jumpCandidate (j : JumpRule) (lane : LaneState) : LaneState :=
  { lane with x := j.regs lane.x, took := j.taken (j.regs lane.x) lane.flags }

/-- Where the sequencer goes after a jump (R238, R239): `J` the active lanes that jump, `S` the active lanes that do
not, `T` the target, `F` the next instruction, `st` the merged stack. At a divergence the group bound for the lower
offset continues and the other one is parked at its own offset. -/
def jumpFlow (J S : Lane → Bool) (T F : Word) (st : List PredEntry) : List PredEntry × Word :=
  if !anyLane J || T == F then (st, F)
  else if !anyLane S then (st, T)
  else if T < F then (⟨F, Vector.ofFn fun l => !S l⟩ :: st, T)
  else (⟨T, Vector.ofFn fun l => !J l⟩ :: st, F)

/-- JumpStep(ins, A) (R238). -/
def vectorJump (i : Instr) (rel : Byte) (j : JumpRule) (s : State) : State :=
  let st := s.mergedStack
  let A := s.active st
  let c (l : Lane) : Bool := (jumpCandidate j s.lanes[l]).took
  let flow := jumpFlow (fun l => A l && c l) (fun l => A l && !c l)
    (jumpTarget s.vip i.len rel) (nextSeq s.vip i.len) st
  s.withVector (Vector.ofFn fun l => blend (A l) (jumpCandidate j s.lanes[l]) s.lanes[l]) flow.1 flow.2

/-- A jump in the engine that CTRL.MODE selects. -/
def jumpStep (i : Instr) (rel : Byte) (j : JumpRule) (s : State) : Result :=
  match s.mode with
  | .vector => .next (vectorJump i rel j s)
  | .scalar => .next (scalarJump i rel j s)
  | .decodeOnly => .next (scalarJump i rel j s)
  | .reserved => .next (scalarJump i rel j s)

end Sys2Proof.Machine
end

