-- ==== Sys2Proof/Machine/Arith.lean ====
section
/-! DEFINITION. The ADD, SUB and CMP family (42_add_sub_cmp.md). -/

namespace Sys2Proof.Machine

/-- ADD r/m, reg and ADD reg, r/m (R174). -/
def execAddRmReg (d : Bool) (w : Width) (rm : RmOperand) (r : RegIdx) (s : State) : Result :=
  dataStep (.addRmReg d w rm r) (addEffect s.cfg.pfScope (rmRegDst d w rm r) (rmRegSrc d w rm r)) s

/-- ADD r/m, imm (R175). -/
def execAddRmImm (rm : RmOperand) (g : GroupImm) (s : State) : Result :=
  dataStep (.addRmImm rm g) (addEffect s.cfg.pfScope (rm.operand g.width) (.imm g.value)) s

/-- ADD acc, imm (R176). -/
def execAddAccImm (w : Width) (imm : BitVec w.bits) (s : State) : Result :=
  dataStep (.addAccImm w imm) (addEffect s.cfg.pfScope (accOperand w) (.imm imm)) s

/-- SUB r/m, reg and SUB reg, r/m (R177). -/
def execSubRmReg (d : Bool) (w : Width) (rm : RmOperand) (r : RegIdx) (s : State) : Result :=
  dataStep (.subRmReg d w rm r) (subEffect s.cfg.pfScope (rmRegDst d w rm r) (rmRegSrc d w rm r)) s

/-- SUB r/m, imm (R178). -/
def execSubRmImm (rm : RmOperand) (g : GroupImm) (s : State) : Result :=
  dataStep (.subRmImm rm g) (subEffect s.cfg.pfScope (rm.operand g.width) (.imm g.value)) s

/-- SUB acc, imm (R179). -/
def execSubAccImm (w : Width) (imm : BitVec w.bits) (s : State) : Result :=
  dataStep (.subAccImm w imm) (subEffect s.cfg.pfScope (accOperand w) (.imm imm)) s

/-- CMP r/m, reg and CMP reg, r/m (R180). -/
def execCmpRmReg (d : Bool) (w : Width) (rm : RmOperand) (r : RegIdx) (s : State) : Result :=
  dataStep (.cmpRmReg d w rm r) (cmpEffect s.cfg.pfScope (rmRegDst d w rm r) (rmRegSrc d w rm r)) s

/-- CMP r/m, imm (R181). -/
def execCmpRmImm (rm : RmOperand) (g : GroupImm) (s : State) : Result :=
  dataStep (.cmpRmImm rm g) (cmpEffect s.cfg.pfScope (rm.operand g.width) (.imm g.value)) s

/-- CMP acc, imm (R182). -/
def execCmpAccImm (w : Width) (imm : BitVec w.bits) (s : State) : Result :=
  dataStep (.cmpAccImm w imm) (cmpEffect s.cfg.pfScope (accOperand w) (.imm imm)) s

end Sys2Proof.Machine
end

