-- ==== Sys2Proof/Machine/Jumps.lean ====
section
/-! DEFINITION. The jump family (43_jumps.md): the sixteen conditional jumps and the four CX-counted jumps. -/

namespace Sys2Proof.Machine

/-- JO (R202): taken when OF = 1. -/
def execJo (rel : Byte) (s : State) : Result := jumpStep (.jo rel) rel (jccRule 0) s

/-- JNO (R203): taken when OF = 0. -/
def execJno (rel : Byte) (s : State) : Result := jumpStep (.jno rel) rel (jccRule 1) s

/-- JB (R204): taken when CF = 1. -/
def execJb (rel : Byte) (s : State) : Result := jumpStep (.jb rel) rel (jccRule 2) s

/-- JNB (R205): taken when CF = 0. -/
def execJnb (rel : Byte) (s : State) : Result := jumpStep (.jnb rel) rel (jccRule 3) s

/-- JE (R206): taken when ZF = 1. -/
def execJe (rel : Byte) (s : State) : Result := jumpStep (.je rel) rel (jccRule 4) s

/-- JNE (R207): taken when ZF = 0. -/
def execJne (rel : Byte) (s : State) : Result := jumpStep (.jne rel) rel (jccRule 5) s

/-- JBE (R208): taken when CF = 1 or ZF = 1. -/
def execJbe (rel : Byte) (s : State) : Result := jumpStep (.jbe rel) rel (jccRule 6) s

/-- JA (R209): taken when CF = 0 and ZF = 0. -/
def execJa (rel : Byte) (s : State) : Result := jumpStep (.ja rel) rel (jccRule 7) s

/-- JS (R210): taken when SF = 1. -/
def execJs (rel : Byte) (s : State) : Result := jumpStep (.js rel) rel (jccRule 8) s

/-- JNS (R211): taken when SF = 0. -/
def execJns (rel : Byte) (s : State) : Result := jumpStep (.jns rel) rel (jccRule 9) s

/-- JP (R212): taken when PF = 1. -/
def execJp (rel : Byte) (s : State) : Result := jumpStep (.jp rel) rel (jccRule 10) s

/-- JNP (R213): taken when PF = 0. -/
def execJnp (rel : Byte) (s : State) : Result := jumpStep (.jnp rel) rel (jccRule 11) s

/-- JL (R214): taken when SF ≠ OF. -/
def execJl (rel : Byte) (s : State) : Result := jumpStep (.jl rel) rel (jccRule 12) s

/-- JNL (R215): taken when SF = OF. -/
def execJnl (rel : Byte) (s : State) : Result := jumpStep (.jnl rel) rel (jccRule 13) s

/-- JLE (R216): taken when ZF = 1 or SF ≠ OF. -/
def execJle (rel : Byte) (s : State) : Result := jumpStep (.jle rel) rel (jccRule 14) s

/-- JG (R217): taken when ZF = 0 and SF = OF. -/
def execJg (rel : Byte) (s : State) : Result := jumpStep (.jg rel) rel (jccRule 15) s

/-- LOOPNZ (R218): decrement CX; taken when CX ≠ 0 and ZF = 0. -/
def execLoopnz (rel : Byte) (s : State) : Result := jumpStep (.loopnz rel) rel loopnzRule s

/-- LOOPZ (R219): decrement CX; taken when CX ≠ 0 and ZF = 1. -/
def execLoopz (rel : Byte) (s : State) : Result := jumpStep (.loopz rel) rel loopzRule s

/-- LOOP (R220): decrement CX; taken when CX ≠ 0. -/
def execLoop (rel : Byte) (s : State) : Result := jumpStep (.loop rel) rel loopRule s

/-- JCXZ (R221): taken when CX = 0; CX is only read. -/
def execJcxz (rel : Byte) (s : State) : Result := jumpStep (.jcxz rel) rel jcxzRule s

end Sys2Proof.Machine
end

