-- ==== Sys2Proof/Machine/Mov.lean ====
section
/-! DEFINITION. The MOV family (41_mov.md). -/

namespace Sys2Proof.Machine

/-- MOV r/m, reg and MOV reg, r/m (R160). -/
def execMovRmReg (d : Bool) (w : Width) (rm : RmOperand) (r : RegIdx) (s : State) : Result :=
  dataStep (.movRmReg d w rm r) (movEffect (rmRegDst d w rm r) (rmRegSrc d w rm r)) s

/-- MOV r/m, imm (R161). -/
def execMovRmImm (w : Width) (rm : RmOperand) (imm : BitVec w.bits) (s : State) : Result :=
  dataStep (.movRmImm w rm imm) (movEffect (rm.operand w) (.imm imm)) s

/-- MOV reg, imm (R162). -/
def execMovRegImm (w : Width) (r : RegIdx) (imm : BitVec w.bits) (s : State) : Result :=
  dataStep (.movRegImm w r imm) (movEffect (.reg r) (.imm imm)) s

/-- MOV acc, [addr] (R163). -/
def execMovAccMem (w : Width) (addr : Word) (s : State) : Result :=
  dataStep (.movAccMem w addr) (movEffect (accOperand w) (.mem (directMem addr))) s

/-- MOV [addr], acc (R164). -/
def execMovMemAcc (w : Width) (addr : Word) (s : State) : Result :=
  dataStep (.movMemAcc w addr) (movEffect (.mem (directMem addr)) (accOperand w)) s

end Sys2Proof.Machine
end

