-- ==== Sys2Proof/Machine/Dispatch.lean ====
section
/-! DEFINITION. Execute(ins) (40_execution.md R136): one arm for each constructor of `Instr`. -/

namespace Sys2Proof.Machine

-- rows 1 to 34 of 30_encoding.md R91, in order
def exec (i : Instr) (s : State) : Host.Outcome State Fault Refusal :=
  match i with
  | .movRmReg d w rm r => Sys2Proof.Machine.execMovRmReg d w rm r s
  | .movRmImm w rm imm => Sys2Proof.Machine.execMovRmImm w rm imm s
  | .movRegImm w r imm => Sys2Proof.Machine.execMovRegImm w r imm s
  | .movAccMem w addr => Sys2Proof.Machine.execMovAccMem w addr s
  | .movMemAcc w addr => Sys2Proof.Machine.execMovMemAcc w addr s
  | .addRmReg d w rm r => Sys2Proof.Machine.execAddRmReg d w rm r s
  | .addRmImm rm g => Sys2Proof.Machine.execAddRmImm rm g s
  | .addAccImm w imm => Sys2Proof.Machine.execAddAccImm w imm s
  | .subRmReg d w rm r => Sys2Proof.Machine.execSubRmReg d w rm r s
  | .subRmImm rm g => Sys2Proof.Machine.execSubRmImm rm g s
  | .subAccImm w imm => Sys2Proof.Machine.execSubAccImm w imm s
  | .cmpRmReg d w rm r => Sys2Proof.Machine.execCmpRmReg d w rm r s
  | .cmpRmImm rm g => Sys2Proof.Machine.execCmpRmImm rm g s
  | .cmpAccImm w imm => Sys2Proof.Machine.execCmpAccImm w imm s
  | .jo rel => Sys2Proof.Machine.execJo rel s
  | .jno rel => Sys2Proof.Machine.execJno rel s
  | .jb rel => Sys2Proof.Machine.execJb rel s
  | .jnb rel => Sys2Proof.Machine.execJnb rel s
  | .je rel => Sys2Proof.Machine.execJe rel s
  | .jne rel => Sys2Proof.Machine.execJne rel s
  | .jbe rel => Sys2Proof.Machine.execJbe rel s
  | .ja rel => Sys2Proof.Machine.execJa rel s
  | .js rel => Sys2Proof.Machine.execJs rel s
  | .jns rel => Sys2Proof.Machine.execJns rel s
  | .jp rel => Sys2Proof.Machine.execJp rel s
  | .jnp rel => Sys2Proof.Machine.execJnp rel s
  | .jl rel => Sys2Proof.Machine.execJl rel s
  | .jnl rel => Sys2Proof.Machine.execJnl rel s
  | .jle rel => Sys2Proof.Machine.execJle rel s
  | .jg rel => Sys2Proof.Machine.execJg rel s
  | .loopnz rel => Sys2Proof.Machine.execLoopnz rel s
  | .loopz rel => Sys2Proof.Machine.execLoopz rel s
  | .loop rel => Sys2Proof.Machine.execLoop rel s
  | .jcxz rel => Sys2Proof.Machine.execJcxz rel s

end Sys2Proof.Machine
end

