-- ==== Sys2Proof/Machine/Engines.lean ====
section
/-! DEFINITION. The steps of the three modes (70_reset_and_hazards.md R306): ScalarStep (40_execution.md R130),
VectorStep (45_vector_engine.md R234) and the decode-only sweep (30_encoding.md R103). -/

namespace Sys2Proof.Machine

/-- ScalarStep (R130): past the end of the program the run is done (R131); otherwise decode at ip and execute. -/
def scalarStep (s : State) : Result :=
  if s.progLen ≤ s.ip then .next s.finish
  else
    match s.decodeAt s.ip with
    | .error e => .next (s.raiseDecode s.ip e)
    | .ok (i, _) => exec i s

/-- The end of the active group (R241, R242; step 2 of R234): its lanes are done at vip; the run is done when no
group is parked, and otherwise vip moves to the least resume. -/
def groupEnd (s : State) : State :=
  let st := s.mergedStack
  let lanes := Vector.ofFn fun l : Lane =>
    if s.active st l then { s.lanes[l] with done := true, ipFinal := s.vip } else s.lanes[l]
  match st with
  | [] => (s.withVector lanes [] s.vip).finish
  | e :: rest => s.withVector lanes (e :: rest) (leastResume e.resume rest)

/-- VectorStep (R234). The merge of its step 1 is part of `groupEnd` and of the vector branch of every meaning, so
that an error raised by the step leaves the predicate stack as it was (R276). -/
def vectorStep (s : State) : Result :=
  if s.progLen ≤ s.vip then .next (groupEnd s)
  else
    match s.decodeAt s.vip with
    | .error e => .next (s.raiseDecode s.vip e)
    | .ok (i, _) => exec i s

/-- One step of the decode-only sweep (R103, R306). -/
def decodeOnlyStep (s : State) : Result :=
  if s.progLen ≤ s.dpos then .next s.finish
  else
    match s.decodeAt s.dpos with
    | .error e => .next (s.raiseDecode s.dpos e)
    | .ok (i, _) => .next (s.withSweep (s.out ++ [(s.dpos, i.record s.dpos)]) (nextSeq s.dpos i.len))

/-- Replace the bytes of `old` from offset `at` on by `new`, padding with zero bytes where `old` is shorter. -/
def patchBytes (old : List Byte) (start : Nat) (new : List Byte) : List Byte :=
  (old ++ List.replicate (start - old.length) 0).take start ++ new ++ old.drop (start + new.length)

/-- Store bytes at rising offsets from `start` on. -/
def storeBytes (m : Memory) (start : Nat) : List Byte → Memory
  | [] => m
  | b :: rest => storeBytes (m.writeKey start b) (start + 1) rest

/-- A SCALAR run of `s` in progress, with `bytes` placed at ip in M and in the program copy P, and with L large enough
for them. Where ip is so high that the bytes would not fit below the longest program, ip is 0. -/
def placeAtIp (s : State) (bytes : List Byte) : State :=
  let start := if s.ip.toNat + bytes.length ≤ maxProg then s.ip.toNat else 0
  let len := max s.progLen.toNat (start + bytes.length)
  { s with
    ip := BitVec.ofNat 16 start
    mem := storeBytes s.mem start bytes
    prog := patchBytes s.prog start bytes
    progLen := BitVec.ofNat 16 len
    ctrl := (s.ctrl &&& 0xFC) ||| 0x01
    runState := .running }

end Sys2Proof.Machine
end

