-- ==== Sys2Proof/Machine/Step.lean ====
section
/-! DEFINITION. The step of the block (70_reset_and_hazards.md R306, R310), and how the host's checks place an
instruction before it. -/

namespace Sys2Proof.Machine

/-- Step() (R306). Outside RUNNING the block holds its state until the host acts (R286). -/
def step (s : State) : Host.Outcome State Fault Refusal :=
  match s.runState with
  | .running =>
    match s.mode with
    | .scalar => scalarStep s
    | .vector => vectorStep s
    | .decodeOnly => decodeOnlyStep s
    | .reserved => .fault .runningInReservedMode
  | .idle => .next s
  | .done => .next s
  | .error => .next s

/-- `s` with the instruction whose bits are `w` in the opcode table's numbering placed where the next step fetches it,
in a SCALAR run (assumption 5). It stands for the host's LOAD, WRITE_CSR and START. -/
def State.withFetchWord (s : State) (nbits w : Nat) : State := placeAtIp s (tableBytes nbits w)

end Sys2Proof.Machine
end

