-- ==== Sys2Proof/Machine/Asm.lean ====
section
/-! DEFINITION. The canonical assembler text of a decoded record (30_encoding.md R104) and the alias mnemonics
(R105). The printer is outside the block (00_scope.md R5); the text is here because the spec fixes it, and no step
reads it. -/

namespace Sys2Proof.Machine

/-- The canonical mnemonic of a class (R91, R104). -/
def mnemonic : Cls → String
  | .mov => "mov"
  | .add => "add"
  | .sub => "sub"
  | .cmp => "cmp"
  | .jo => "jo"
  | .jno => "jno"
  | .jb => "jb"
  | .jnb => "jnb"
  | .je => "je"
  | .jne => "jne"
  | .jbe => "jbe"
  | .ja => "ja"
  | .js => "js"
  | .jns => "jns"
  | .jp => "jp"
  | .jnp => "jnp"
  | .jl => "jl"
  | .jnl => "jnl"
  | .jle => "jle"
  | .jg => "jg"
  | .loopnz => "loopnz"
  | .loopz => "loopz"
  | .loop => "loop"
  | .jcxz => "jcxz"

/-- The alias mnemonics an assembler accepts for a class (R105). -/
def otherMnemonics : Cls → List String
  | .jb => ["jc", "jnae"]
  | .jnb => ["jnc", "jae"]
  | .je => ["jz"]
  | .jne => ["jnz"]
  | .jbe => ["jna"]
  | .ja => ["jnbe"]
  | .jp => ["jpe"]
  | .jnp => ["jpo"]
  | .jl => ["jnge"]
  | .jnl => ["jge"]
  | .jle => ["jng"]
  | .jg => ["jnle"]
  | .loopz => ["loope"]
  | .loopnz => ["loopne"]
  | .mov | .add | .sub | .cmp | .jo | .jno | .js | .jns | .loop | .jcxz => []

/-- The name of a register at a width (R20, R21, R104). -/
def regName : Width → RegIdx → String
  | .word, i => ["ax", "cx", "dx", "bx", "sp", "bp", "si", "di"].getD i.val ""
  | .byte, i => ["al", "cl", "dl", "bl", "ah", "ch", "dh", "bh"].getD i.val ""

/-- The name of a base register. -/
def baseName : BaseReg → String
  | .bx => "bx"
  | .bp => "bp"
  | .si => "si"
  | .di => "di"

/-- The name of an index register. -/
def indexName : IndexReg → String
  | .si => "si"
  | .di => "di"

/-- The displacement term of a based operand: ` + n` or ` - n` for a nonzero signed displacement (R104). -/
def dispText (d : Int) : String :=
  if d = 0 then "" else if 0 < d then " + " ++ toString d.toNat else " - " ++ toString (-d).toNat

/-- A memory operand (R104). -/
def memText (m : MemOperand) : String :=
  match m.base with
  | none => "[" ++ toString m.disp.toNat ++ "]"
  | some b =>
    "[" ++ baseName b ++
      (match m.index with
        | some i => " + " ++ indexName i
        | none => "") ++
      dispText m.disp.toInt ++ "]"

/-- An operand (R104): an immediate in unsigned decimal, or as its signed value for opcode 83. -/
def operandText {w : Width} (signed : Bool) : Operand w → String
  | .reg i => regName w i
  | .imm v => if signed then toString v.toInt else toString v.toNat
  | .mem m => memText m

/-- The size word before a memory destination with an immediate source (R104). -/
def sizeText {w : Width} (dst src : Operand w) : String :=
  match dst, src with
  | .mem _, .imm _ =>
    match w with
    | .byte => "byte "
    | .word => "word "
  | _, _ => ""

/-- A jump operand, `$+k` or `$-k` with k = s_8(rel8) + 2 (R104). -/
def jumpText (rel : Byte) : String :=
  let k := rel.toInt + 2
  if 0 ≤ k then "$+" ++ toString k.toNat else "$-" ++ toString (-k).toNat

/-- The canonical text of a decoded instruction (R104). -/
def recordText (r : Record) : String :=
  match r.operands with
  | .data _ dst src =>
    mnemonic r.cls ++ " " ++ sizeText dst src ++ operandText false dst ++ ", " ++ operandText (r.op0 == 0x83) src
  | .jump (.imm rel) => mnemonic r.cls ++ " " ++ jumpText rel
  | .jump op => mnemonic r.cls ++ " " ++ operandText true op

end Sys2Proof.Machine
end

