-- ==== Sys2Proof/Machine/HostOps.lean ====
section
/-! DEFINITION. The host's operations (70_reset_and_hazards.md R300, R301, R305): each is one atomic move of the
host on the state, and has no move while a run is in progress, but for RESET and READ_CSR(2) (10_state.md R32). They
are not part of `step`, which is the block's own move. -/

namespace Sys2Proof.Machine

/-- Whose registers a host operation reads or writes (R305): the scalar state or one of the 32 lanes. -/
inductive Target where
  | scalar
  | lane (l : Lane)
  deriving DecidableEq, Repr

/-- The operations of R305. A CSR number runs from 0 to 4 (R31). -/
inductive HostOp where
  | reset
  | load (bytes : List Byte)
  | writeMem (a : Word) (v : Byte)
  | readMem (a : Word)
  | writeReg (t : Target) (i : RegIdx) (v : Word)
  | readReg (t : Target) (i : RegIdx)
  | writeFlags (t : Target) (image : Word)
  | readFlags (t : Target)
  | readIp
  | readLane (l : Lane)
  | writeCsr (n : Fin 5) (v : Word)
  | readCsr (n : Fin 5)
  | readOut
  | start
  deriving DecidableEq, Repr

/-- What an operation returns to the host. -/
inductive HostReply where
  | ok
  | byte (v : Byte)
  | word (v : Word)
  | lane (took done : Bool) (ipFinal : Word)
  | records (out : List (Word × Record))
  deriving DecidableEq, Repr

/-- How a host operation ends: with a move, refused with no change (LOAD of more than 65535 bytes, R305), or with no
move at all (an operation R32 does not allow while RUNNING). -/
inductive HostResult where
  | moved (s : State) (reply : HostReply)
  | refused
  | noMove
  deriving DecidableEq, Repr

/-! ### Control and status registers -/

/-- The STATE field of STATUS (R31). -/
def RunState.code : RunState → Word
  | .idle => 0
  | .running => 1
  | .done => 2
  | .error => 3

/-- The ERR_KIND field of STATUS (R31, R270). -/
def ErrKind.code : ErrKind → Word
  | .none => 0
  | .decodeError => 1
  | .unsupportedInstruction => 2
  | .operandKindViolation => 3
  | .inputTruncated => 4
  | .configError => 5

/-- What READ_CSR returns (R31): every reserved bit reads 0. -/
def State.csr (s : State) (n : Fin 5) : Word :=
  match n with
  | 0 => s.ctrl.setWidth 16
  | 1 => s.progLen
  | 2 => s.runState.code ||| (s.errKind.code <<< 2)
  | 3 => s.errOffset
  | 4 => s.errByte.setWidth 16

/-- What WRITE_CSR does (R305): CTRL[7:0] is stored as written; registers 1 to 4 ignore the write. -/
def State.writeCsr (s : State) (n : Fin 5) (v : Word) : State :=
  match n with
  | 0 => { s with ctrl := loByte v }
  | 1 => s
  | 2 => s
  | 3 => s
  | 4 => s

/-! ### Loading and starting -/

/-- LOAD of a program that fits (R305): M[0 .. L−1] and the copy P take the bytes, PROG_LEN their number. -/
def State.load (s : State) (bytes : List Byte) : State :=
  { s with
    mem := storeBytes s.mem 0 bytes
    prog := bytes
    progLen := BitVec.ofNat 16 bytes.length }

/-- VectorStart (R232): the lanes that take part lose their bookkeeping and keep their registers and flags. -/
def State.vectorStart (s : State) : State :=
  { s with
    vip := 0
    pstack := []
    lanes := Vector.ofFn fun l : Lane =>
      if l.val < s.laneCount then { s.lanes[l] with done := false, took := false, ipFinal := 0 } else s.lanes[l] }

/-- START clears the error report (R301). -/
def State.clearError (s : State) : State := { s with errKind := .none, errOffset := 0, errByte := 0 }

/-- START (R301): a configuration that is not legal raises ConfigError and no run begins (R33, R275); otherwise the
mode's pointer goes to the entry point 0 (R304) and the run begins. -/
def State.start (s : State) : State :=
  if configLegal s.ctrl then
    let s0 := s.clearError
    let s1 := match s.mode with
      | .decodeOnly => s0.withSweep [] 0
      | .scalar => { s0 with ip := 0 }
      | .vector => s0.vectorStart
      | .reserved => s0
    { s1 with runState := .running }
  else s.raise .configError 0 s.ctrl

/-! ### Registers by target -/

/-- The registers of a target. -/
def State.regsOf (s : State) : Target → Regs
  | .scalar => s.x
  | .lane l => s.lanes[l].x

/-- The flags of a target. -/
def State.flagsOf (s : State) : Target → Flags
  | .scalar => s.flags
  | .lane l => s.lanes[l].flags

/-- Writing a word register of a target. -/
def State.setReg (s : State) (t : Target) (i : RegIdx) (v : Word) : State :=
  match t with
  | .scalar => { s with x := writeWord s.x i v }
  | .lane l => { s with lanes := s.lanes.set l { s.lanes[l] with x := writeWord s.lanes[l].x i v } }

/-- Writing the flags of a target. -/
def State.setFlags (s : State) (t : Target) (f : Flags) : State :=
  match t with
  | .scalar => { s with flags := f }
  | .lane l => { s with lanes := s.lanes.set l { s.lanes[l] with flags := f } }

/-! ### The operations -/

/-- The operations allowed while RUNNING (R32): RESET and the read of STATUS. -/
def HostOp.allowedRunning : HostOp → Bool
  | .reset => true
  | .readCsr n => n == 2
  | .load _ => false
  | .writeMem _ _ => false
  | .readMem _ => false
  | .writeReg _ _ _ => false
  | .readReg _ _ => false
  | .writeFlags _ _ => false
  | .readFlags _ => false
  | .readIp => false
  | .readLane _ => false
  | .writeCsr _ _ => false
  | .readOut => false
  | .start => false

/-- The effect of an operation that may be performed (R305). RESET keeps the parameters, which are not state. -/
def HostOp.perform (s : State) : HostOp → HostResult
  | .reset => .moved (State.resetWith s.cfg) .ok
  | .load bytes => if bytes.length ≤ maxProg then .moved (s.load bytes) .ok else .refused
  | .writeMem a v => .moved { s with mem := s.mem.write a v } .ok
  | .readMem a => .moved s (.byte (s.mem.read a))
  | .writeReg t i v => .moved (s.setReg t i v) .ok
  | .readReg t i => .moved s (.word (readWord (s.regsOf t) i))
  | .writeFlags t v => .moved (s.setFlags t (Flags.ofImage v)) .ok
  | .readFlags t => .moved s (.word (s.flagsOf t).image)
  | .readIp => .moved s (.word s.ip)
  | .readLane l => .moved s (.lane s.lanes[l].took s.lanes[l].done s.lanes[l].ipFinal)
  | .writeCsr n v => .moved (s.writeCsr n v) .ok
  | .readCsr n => .moved s (.word (s.csr n))
  | .readOut => .moved s (.records s.out)
  | .start => .moved s.start .ok

/-- One host operation (R32, R305). -/
def hostMove (op : HostOp) (s : State) : HostResult :=
  if s.runState = .running ∧ ¬ op.allowedRunning then .noMove else op.perform s

end Sys2Proof.Machine
end

