-- ==== Sys2Proof/Safety.lean ====
section
/-! DEFINITION. What counts as a safe state and a safe run, in the terms the statements use: the invariants of the
block and of a vector run (45_vector_engine.md R244), the runs of the block together with its host, and the scalar
machine that a lane stands for (R244 item 4, R245). -/

namespace Sys2Proof.Machine

/-! ### Runs -/

/-- The states the block and its host can reach from a RESET, at any parameters. -/
inductive Reachable : State → Prop where
  | reset (c : Config) : Reachable (State.resetWith c)
  | step {s t : State} : Reachable s → step s = .next t → Reachable t
  | host {op : HostOp} {s t : State} {r : HostReply} : Reachable s → hostMove op s = .moved t r → Reachable t

/-- A run is in progress in the given mode (R306). -/
abbrev State.runningIn (s : State) (m : Mode) : Prop := s.runState = .running ∧ s.mode = m

/-- The instruction that decodes at `off` (R97), below the program's end. -/
abbrev State.fetches (s : State) (off : Word) (i : Instr) : Prop :=
  off < s.progLen ∧ ∃ rest, s.decodeAt off = .ok (i, rest)

/-! ### The block's invariant -/

/-- What every reachable state keeps: memory in canonical form (R28), the program copy as long as L (R29), no run in
an illegal configuration (R33), an error report exactly in ERROR (R270, R276, R301). -/
structure State.Inv (s : State) : Prop where
  memCanonical : s.mem.wf
  progLength : s.prog.length = s.progLen.toNat
  configChecked : s.runState = .running → configLegal s.ctrl = true
  errorReport : s.errKind = .none ↔ s.runState ≠ .error

/-- The decode-only stream (R37, R103): records by increasing offset, none overlapping the next, all below the
cursor, which never passes L. -/
structure State.SweepInv (s : State) : Prop where
  ordered : s.out.Pairwise fun a b => a.1.toNat + a.2.len ≤ b.1.toNat
  offsets : ∀ r ∈ s.out, r.2.off = r.1 ∧ r.1.toNat + r.2.len ≤ s.dpos.toNat
  cursor : s.dpos ≤ s.progLen

/-! ### The vector run's invariant (R244) -/

/-- The number of entries that park lane `l`. -/
def State.parkedCount (s : State) (l : Lane) : Nat := s.pstack.countP fun e => !e.pred[l]

/-- Lane `l` takes part in the run (R231). -/
abbrev State.takesPart (s : State) (l : Lane) : Prop := l.val < s.laneCount

/-- Lane `l` is active (R243). -/
abbrev State.laneActive (s : State) (l : Lane) : Prop := s.active s.pstack l = true

/-- Lane `l` is parked in exactly one entry (R244 item 1). -/
abbrev State.laneParked (s : State) (l : Lane) : Prop := s.lanes[l].done = false ∧ s.parkedCount l = 1

/-- Lane `l` is done, and no entry parks it. -/
abbrev State.laneDone (s : State) (l : Lane) : Prop := s.lanes[l].done = true ∧ s.parkedCount l = 0

/-- The invariant of a VECTOR run in progress (R244 items 1 to 3); `someoneWaitsNot` says that the lanes are not all
parked, which bounds the stack. -/
structure State.VectorInv (s : State) : Prop where
  oneState : ∀ l, s.takesPart l → s.laneActive l ∨ s.laneParked l ∨ s.laneDone l
  parksSomeone : ∀ e ∈ s.pstack, ∃ l, s.takesPart l ∧ e.pred[l] = false
  someoneWaitsNot : ∃ l, s.takesPart l ∧ s.parkedCount l = 0
  activeAfterMerge : ∃ l, s.active s.mergedStack l = true

/-! ### A lane as a scalar machine -/

/-- A lane's logical instruction pointer (R244 item 4): ip_final when it is done, its entry's resume when it is
parked, vip when it is active. -/
def State.laneIp (s : State) (l : Lane) : Word :=
  if s.lanes[l].done then s.lanes[l].ipFinal
  else
    match s.pstack.find? fun e => !e.pred[l] with
    | some e => e.resume
    | none => s.vip

/-- The scalar machine that lane `l` stands for (R245): the same memory, program and parameters, in SCALAR mode, with
the lane's registers and flags at its logical instruction pointer. -/
def State.laneScalar (s : State) (l : Lane) : State :=
  { s with
    x := s.lanes[l].x
    flags := s.lanes[l].flags
    ip := s.laneIp l
    ctrl := (s.ctrl &&& 0xFC) ||| 0x01 }

/-- A scalar run that reaches DONE and executes no instruction with a memory operand (the hypotheses of R245). -/
inductive MemoryFreeRun : State → State → Prop where
  | done {s : State} : s.runningIn .scalar → s.progLen ≤ s.ip → MemoryFreeRun s s.finish
  | step {s t u : State} {i : Instr} : s.runningIn .scalar → s.fetches s.ip i → i.hasMem = false →
      step s = .next t → MemoryFreeRun t u → MemoryFreeRun s u

/-! ### Safe runs -/

/-- The run ended normally (R288: exit code 0). -/
abbrev State.finished (s : State) : Prop := s.runState = .done

/-- The run ended with an error (R288: non-zero exit code). -/
abbrev State.failed (s : State) : Prop := s.runState = .error

/-- A state from which `k` steps stop at no fault and no refusal. -/
def SafeFor (k : Nat) (s : State) : Prop := ∃ t, Sys2Proof.core.run k s = .next t

end Sys2Proof.Machine
end

