-- ==== Sys2Proof/Certificates/Slice0/Obligations.lean ====
section
/-! DEFINITION. The statements for the provers, and the words they are written in. Sums, carries, overflows and jump
targets are said over exact integers, not with the model's own functions; an address stored to is the meaning's own
effective address. -/

namespace Sys2Proof.Statements

open Sys2Proof.Machine

/-! ### Arithmetic -/

/-- `b` as a number. -/
def bitNat (b : Bool) : Nat := if b then 1 else 0

/-- `w` as the number its encoding bit holds (30_encoding.md R81). -/
def widthBit (w : Width) : Nat := bitNat (w == .word)

/-- The exact integer lies outside the signed numbers of `n` bits (42_add_sub_cmp.md R170, R171). -/
def OutsideSigned (n : Nat) (z : Int) : Prop := z < -2 ^ (n - 1) ∨ 2 ^ (n - 1) ≤ z

/-- The number of 1 bits among bits k − 1 to 0 (00_scope.md R12). -/
def popCount {n : Nat} (v : BitVec n) (k : Nat) : Nat := ((List.range k).filter fun i => v.getLsbD i).length

/-- `pf` is the parity flag of `r` (R12, R172). -/
def ParityFlag (sc : PfScope) {n : Nat} (r : BitVec n) (pf : Bool) : Prop :=
  (sc = .lowByte → (pf = true ↔ popCount r 8 % 2 = 0)) ∧ (sc = .fullWidth → (pf = true ↔ popCount r n % 2 = 0))

/-- `r` and `f` are the result and flags of a + b at n bits (R170). -/
structure AddOutcome (sc : PfScope) {n : Nat} (a b r : BitVec n) (f : Flags) : Prop where
  result : r.toNat = (a.toNat + b.toNat) % 2 ^ n
  carry : f.cf = true ↔ 2 ^ n ≤ a.toNat + b.toNat
  auxCarry : f.af = true ↔ 16 ≤ a.toNat % 16 + b.toNat % 16
  overflow : f.of = true ↔ OutsideSigned n (a.toInt + b.toInt)
  zero : f.zf = true ↔ r.toNat = 0
  sign : f.sf = true ↔ 2 ^ (n - 1) ≤ r.toNat
  parity : ParityFlag sc r f.pf

/-- `r` and `f` are the result and flags of a − b at n bits (R171). -/
structure SubOutcome (sc : PfScope) {n : Nat} (a b r : BitVec n) (f : Flags) : Prop where
  result : (r.toNat : Int) = ((a.toNat : Int) - b.toNat) % 2 ^ n
  carry : f.cf = true ↔ a.toNat < b.toNat
  auxCarry : f.af = true ↔ a.toNat % 16 < b.toNat % 16
  overflow : f.of = true ↔ OutsideSigned n (a.toInt - b.toInt)
  zero : f.zf = true ↔ r.toNat = 0
  sign : f.sf = true ↔ 2 ^ (n - 1) ≤ r.toNat
  parity : ParityFlag sc r f.pf

/-- The offset a taken two-byte jump at `off` goes to (40_execution.md R135, 43_jumps.md R200). -/
def target (off : Word) (rel : Byte) : Word := BitVec.ofInt 16 ((off.toNat : Int) + 2 + rel.toInt)

/-- The offset after `len` bytes from `off`. -/
def after (off : Word) (len : Nat) : Word := BitVec.ofNat 16 (off.toNat + len)

/-! ### What a scalar instruction changes -/

/-- Nothing but the scalar registers, flags, memory and ip differs between the states. -/
def SameElsewhere (s t : State) : Prop := t = s.withScalar t.datapath t.ip

/-- What register index `i` names at a width: a byte view of R21 or a word of R20. -/
def regValue (x : Regs) (i : RegIdx) : (w : Width) → BitVec w.bits
  | .byte => readReg8 x i
  | .word => readWord x i

/-- ReadOp(op) (40_execution.md R132): the register at its width, the immediate, or the memory at the effective
address. -/
def valueOf (s : State) : {w : Width} → Operand w → BitVec w.bits
  | w, .reg i => regValue s.x i w
  | _, .imm v => v
  | w, .mem m => memRead s.mem (effectiveAddress s.x m) w

/-- Register `i` of width `w` holds `v`, and no other register, byte or word, changed. -/
def OnlyRegister {w : Width} (x y : Regs) (i : RegIdx) (v : BitVec w.bits) : Prop :=
  regValue y i w = v ∧ (∀ j, j ≠ i → regValue y j w = regValue x j w) ∧
    (w = .byte → ∀ j : RegIdx, 4 ≤ j.val → readWord y j = readWord x j)

/-- The bytes of width `w` at `a` hold `v`, and every other byte of memory reads as before. -/
def OnlyStored {w : Width} (m n : Memory) (a : Word) (v : BitVec w.bits) : Prop :=
  memRead n a w = v ∧ ∀ b, (∀ k < w.bytes, b ≠ a + BitVec.ofNat 16 k) → n.read b = m.read b

/-- The destination operand takes `v`, and no other register and no other byte of memory changed. The address
stored to is the effective address in the registers the instruction starts with (20_memory.md R66). -/
def WritesOperand {w : Width} (s t : State) (dst : Operand w) (v : BitVec w.bits) : Prop :=
  match dst with
  | .reg i => OnlyRegister s.x t.x i v ∧ t.mem = s.mem
  | .mem m => t.x = s.x ∧ OnlyStored s.mem t.mem (effectiveAddress s.x m) v
  | .imm _ => False

/-- In every SCALAR state the instruction completes and copies `src` to `dst`; flags keep their values. -/
def Moves (i : Instr) {w : Width} (dst src : Operand w) : Prop :=
  ∀ s : State, s.mode = .scalar → s.mem.wf → ∃ t, exec i s = .next t ∧
    WritesOperand s t dst (valueOf s src) ∧ t.flags = s.flags ∧ t.ip = after s.ip i.len ∧ SameElsewhere s t

/-- In every SCALAR state the instruction completes, writes dst + src to `dst`, and sets the six flags of the sum. -/
def Adds (i : Instr) {w : Width} (dst src : Operand w) : Prop :=
  ∀ s : State, s.mode = .scalar → s.mem.wf → ∃ t r, exec i s = .next t ∧
    AddOutcome s.cfg.pfScope (valueOf s dst) (valueOf s src) r t.flags ∧
    WritesOperand s t dst r ∧ t.ip = after s.ip i.len ∧ SameElsewhere s t

/-- In every SCALAR state the instruction completes, writes dst − src to `dst`, and sets the six flags of the
difference. -/
def Subtracts (i : Instr) {w : Width} (dst src : Operand w) : Prop :=
  ∀ s : State, s.mode = .scalar → s.mem.wf → ∃ t r, exec i s = .next t ∧
    SubOutcome s.cfg.pfScope (valueOf s dst) (valueOf s src) r t.flags ∧
    WritesOperand s t dst r ∧ t.ip = after s.ip i.len ∧ SameElsewhere s t

/-- In every SCALAR state the instruction completes and sets the six flags of dst − src; every register and every
byte of memory keeps its value. -/
def Compares (i : Instr) {w : Width} (dst src : Operand w) : Prop :=
  ∀ s : State, s.mode = .scalar → ∃ t r, exec i s = .next t ∧
    SubOutcome s.cfg.pfScope (valueOf s dst) (valueOf s src) r t.flags ∧
    t.x = s.x ∧ t.mem = s.mem ∧ t.ip = after s.ip i.len ∧ SameElsewhere s t

/-- The instruction's first byte and the bounds of its length (R91). -/
def EncodedAs (i : Instr) (b0 : Nat) (least most : Nat) : Prop :=
  i.op0.toNat = b0 ∧ least ≤ i.len ∧ i.len ≤ most

/-- The reg field of the second byte is the group's sub-opcode (R92, R93). -/
def SubOpcode (i : Instr) (k : Fin 8) : Prop := (encode i)[1]?.map regField = some k

/-- The jump is encoded as the bytes `b0`, `rel`, and in every SCALAR state it completes: it goes to its target when
`taken` holds of the registers and flags, to the next instruction otherwise, and changes nothing but ip. -/
def Jumps (i : Instr) (b0 rel : Byte) (taken : Regs → Flags → Prop) : Prop :=
  encode i = [b0, rel] ∧ ∀ s : State, s.mode = .scalar → ∃ t, exec i s = .next t ∧
    (taken s.x s.flags → t.ip = target s.ip rel) ∧ (¬ taken s.x s.flags → t.ip = after s.ip 2) ∧
    t = { s with ip := t.ip }

/-- The registers with CX one less, modulo 2^16, and every other register as before. -/
def CxDecremented (x y : Regs) : Prop :=
  ((readWord y 1).toNat : Int) = ((readWord x 1).toNat - 1 : Int) % 65536 ∧ ∀ j, j ≠ 1 → readWord y j = readWord x j

/-- The jump is encoded as the bytes `b0`, `rel`, and in every SCALAR state it completes with CX decremented, tests CX
after the decrement, and changes nothing but CX and ip. -/
def LoopJumps (i : Instr) (b0 rel : Byte) (taken : Word → Flags → Prop) : Prop :=
  encode i = [b0, rel] ∧ ∀ s : State, s.mode = .scalar → ∃ t, exec i s = .next t ∧ CxDecremented s.x t.x ∧
    (taken (readWord t.x 1) s.flags → t.ip = target s.ip rel) ∧
    (¬ taken (readWord t.x 1) s.flags → t.ip = after s.ip 2) ∧ t = { s with x := t.x, ip := t.ip }

/-! ### The r/m operand -/

/-- The base and index registers of an rm field (30_encoding.md R85). -/
def termsOf : Fin 8 → BaseReg × Option IndexReg
  | 0 => (.bx, some .si)
  | 1 => (.bx, some .di)
  | 2 => (.bp, some .si)
  | 3 => (.bp, some .di)
  | 4 => (.si, none)
  | 5 => (.di, none)
  | 6 => (.bp, none)
  | 7 => (.bx, none)

/-- `op` is the operand that a mod field, an rm field and the displacement bytes after the ModRM byte stand for
(30_encoding.md R84 to R87). -/
def OperandOf {w : Width} (mod : Fin 4) (rm : Fin 8) (disp : List Byte) (op : Operand w) : Prop :=
  match mod, disp with
  | 0, [] => rm ≠ 6 ∧ op = .mem ⟨some (termsOf rm).1, (termsOf rm).2, 0, false⟩
  | 0, [lo, hi] => rm = 6 ∧ op = .mem ⟨none, none, hi ++ lo, true⟩
  | 1, [d] => op = .mem ⟨some (termsOf rm).1, (termsOf rm).2, BitVec.ofInt 16 d.toInt, false⟩
  | 2, [lo, hi] => op = .mem ⟨some (termsOf rm).1, (termsOf rm).2, hi ++ lo, false⟩
  | 3, [] => op = .reg rm
  | _, _ => False

/-- The bytes after the opcode begin with the ModRM byte mod : reg : rm and the displacement that stand for `op`
(R80, R82). -/
def RmBytes {w : Width} (i : Instr) (reg : Fin 8) (op : Operand w) : Prop :=
  ∃ (mod : Fin 4) (rm : Fin 8) (disp imm : List Byte), OperandOf mod rm disp op ∧
    encode i = i.op0 :: BitVec.ofNat 8 (64 * mod.val + 8 * reg.val + rm.val) :: (disp ++ imm)

/-! ### Jumps in the vector engine -/

/-- The jump conditions (43_jumps.md R201 to R221), read after the CX decrement; false of a data instruction. -/
def takenIf (i : Instr) (x : Regs) (f : Flags) : Bool :=
  match i with
  | .jo _ => f.of
  | .jno _ => !f.of
  | .jb _ => f.cf
  | .jnb _ => !f.cf
  | .je _ => f.zf
  | .jne _ => !f.zf
  | .jbe _ => f.cf || f.zf
  | .ja _ => !(f.cf || f.zf)
  | .js _ => f.sf
  | .jns _ => !f.sf
  | .jp _ => f.pf
  | .jnp _ => !f.pf
  | .jl _ => f.sf != f.of
  | .jnl _ => f.sf == f.of
  | .jle _ => f.zf || f.sf != f.of
  | .jg _ => !f.zf && f.sf == f.of
  | .loopnz _ => readWord x 1 != 0 && !f.zf
  | .loopz _ => readWord x 1 != 0 && f.zf
  | .loop _ => readWord x 1 != 0
  | .jcxz _ => readWord x 1 == 0
  | _ => false

/-- LOOP, LOOPZ and LOOPNZ, the jumps that write CX (R200). -/
def countsCx (i : Instr) : Bool :=
  match i with
  | .loopnz _ | .loopz _ | .loop _ => true
  | _ => false

/-- The registers after a jump: CX decremented by LOOP, LOOPZ and LOOPNZ, and nothing else (R200, R238). -/
def JumpRegs (i : Instr) (x y : Regs) : Prop :=
  (countsCx i = true → CxDecremented x y) ∧ (countsCx i = false → y = x)

/-- Lane `l` is active once the groups parked at vip have rejoined (R234 step 1). -/
def ActiveHere (s : State) (l : Lane) : Prop := s.active s.mergedStack l = true

/-- The scalar machine with lane `l`'s registers and flags at the shared instruction pointer (R236). -/
def laneAtVip (s : State) (l : Lane) : State :=
  { s with x := s.lanes[l].x, flags := s.lanes[l].flags, ip := s.vip, ctrl := (s.ctrl &&& 0xFC) ||| 0x01 }

/-! ### Runs -/

/-- The pointer at which the selected mode fetches (R306). -/
def pointer (s : State) : Word :=
  match s.mode with
  | .scalar => s.ip
  | .vector => s.vip
  | .decodeOnly => s.dpos
  | .reserved => 0

/-- A run in progress in one of the three modes, with its pointer inside the program. -/
def Fetching (s : State) : Prop := s.runState = .running ∧ s.mode ≠ .reserved ∧ pointer s < s.progLen

/-- `s` after an error (60_exceptions.md R276): the four report fields, and nothing else. -/
def errorState (s : State) (kind : ErrKind) (offset : Word) (byte : Byte) : State :=
  { s with runState := .error, errKind := kind, errOffset := offset, errByte := byte }

/-- The instruction bytes that fetch reads from offset `a` on are `bytes` (20_memory.md R67). -/
def FetchReads (s : State) (a : Nat) (bytes : List Byte) : Prop :=
  ∀ k, k < bytes.length → s.fetchByte (a + k) = bytes.getD k 0

/-- The admitted first bytes (30_encoding.md R94). -/
def Admitted (b : Byte) : Prop :=
  let n := b.toNat
  n ≤ 0x05 ∨ (0x28 ≤ n ∧ n ≤ 0x2D) ∨ (0x38 ≤ n ∧ n ≤ 0x3D) ∨ (0x70 ≤ n ∧ n ≤ 0x7F) ∨ (0x80 ≤ n ∧ n ≤ 0x83) ∨
    (0x88 ≤ n ∧ n ≤ 0x8B) ∨ (0xA0 ≤ n ∧ n ≤ 0xA3) ∨ (0xB0 ≤ n ∧ n ≤ 0xBF) ∨ (0xC6 ≤ n ∧ n ≤ 0xC7) ∨
    (0xE0 ≤ n ∧ n ≤ 0xE3)

/-- The D of a ModRM byte (R84, R86, R101). -/
def dispOf (b1 : Byte) : Nat :=
  let n := b1.toNat
  if n / 64 = 0 then (if n % 8 = 6 then 2 else 0) else if n / 64 = 1 then 1 else if n / 64 = 2 then 2 else 0

/-- The length table of R101, from the first two bytes. -/
def tableLength (b0 b1 : Byte) : Nat :=
  let n := b0.toNat
  if n ≤ 0x03 ∨ (0x28 ≤ n ∧ n ≤ 0x2B) ∨ (0x38 ≤ n ∧ n ≤ 0x3B) ∨ (0x88 ≤ n ∧ n ≤ 0x8B) then 2 + dispOf b1
  else if n = 0x80 ∨ n = 0x82 ∨ n = 0x83 ∨ n = 0xC6 then 3 + dispOf b1
  else if n = 0x81 ∨ n = 0xC7 then 4 + dispOf b1
  else if (0xB0 ≤ n ∧ n ≤ 0xB7) ∨ n = 0x04 ∨ n = 0x2C ∨ n = 0x3C then 2
  else if (0xB8 ≤ n ∧ n ≤ 0xBF) ∨ n = 0x05 ∨ n = 0x2D ∨ n = 0x3D ∨ (0xA0 ≤ n ∧ n ≤ 0xA3) then 3
  else 2

/-- The bytes of a list of instructions, one after another. -/
def programBytes : List Instr → List Byte
  | [] => []
  | i :: rest => encode i ++ programBytes rest

/-- The records of a list of instructions laid out from offset `a` on (R103). -/
def recordsFrom (a : Nat) : List Instr → List (Word × Record)
  | [] => []
  | i :: rest => (BitVec.ofNat 16 a, i.record (BitVec.ofNat 16 a)) :: recordsFrom (a + i.len) rest

/-- `k` executions of one instruction after another, each of which must answer a next state. -/
inductive Repeats (i : Instr) : Nat → State → State → Prop where
  | none {s : State} : Repeats i 0 s s
  | more {k : Nat} {s t u : State} : exec i s = .next t → Repeats i k t u → Repeats i (k + 1) s u

end Sys2Proof.Statements

open Sys2Proof Sys2Proof.Machine Sys2Proof.Statements

/-! ### Decoding -/

/-- Derived from 30_encoding.md R97: decoding the bytes of any well-formed instruction, whatever follows them, gives
the instruction back with every operand, and consumes exactly its bytes. -/
def Obligations.DecodeInvertsEncode : Prop :=
  ∀ i : Instr, i.wf = true → ∀ rest : List Byte, decodeList (encode i ++ rest) = .ok (i, rest)

/-- Derived from 30_encoding.md R96, R97: whatever bytes decode, they are exactly the encoding of the instruction
delivered, which is well formed; so no byte sequence has two readings. -/
def Obligations.DecodedBytesAreItsEncoding : Prop :=
  ∀ (bytes rest : List Byte) (i : Instr), decodeList bytes = .ok (i, rest) → i.wf = true ∧ encode i ++ rest = bytes

/-- 30_encoding.md R94: of the 256 first bytes 68 are admitted; in every mode, a step that fetches one of the other
188 raises DecodeError(start, b0), and one that fetches an admitted byte never does. -/
def Obligations.IllegalFirstByteRaisesDecodeError : Prop :=
  (∀ s : State, Fetching s → ¬ Admitted (s.fetchByte (pointer s).toNat) →
    step s = .next (errorState s .decodeError (pointer s) (s.fetchByte (pointer s).toNat))) ∧
  (∀ (b0 : Byte) (rest : List Byte), Admitted b0 → ∀ b, decode b0 rest ≠ .error (.illegalOpcode b)) ∧
  (∃ bytes : List Byte, bytes.Nodup ∧ bytes.length = 68 ∧ ∀ b, b ∈ bytes ↔ Admitted b)

/-- 30_encoding.md R92, R93: the reg field of the second byte of 80 to 83 selects ADD (0), SUB (5) or CMP (7), that of
C6 and C7 must be 0, and any other value raises DecodeError(start + 1, b1), in every mode and whatever follows. -/
def Obligations.IllegalSubOpcodeRaisesDecodeError : Prop :=
  (∀ s : State, Fetching s → (pointer s).toNat + 1 < s.progLen.toNat →
    let b0 := (s.fetchByte (pointer s).toNat).toNat
    let b1 := s.fetchByte ((pointer s).toNat + 1)
    let reg := b1.toNat / 8 % 8
    (0x80 ≤ b0 ∧ b0 ≤ 0x83 ∧ reg ≠ 0 ∧ reg ≠ 5 ∧ reg ≠ 7) ∨ (0xC6 ≤ b0 ∧ b0 ≤ 0xC7 ∧ reg ≠ 0) →
    step s = .next (errorState s .decodeError (after (pointer s) 1) b1)) ∧
  (∀ (b0 b1 : Byte) (rest r : List Byte) (i : Instr), 0x80 ≤ b0.toNat → b0.toNat ≤ 0x83 →
    decode b0 (b1 :: rest) = .ok (i, r) →
    (i.cls = .add ∧ b1.toNat / 8 % 8 = 0) ∨ (i.cls = .sub ∧ b1.toNat / 8 % 8 = 5) ∨
      (i.cls = .cmp ∧ b1.toNat / 8 % 8 = 7)) ∧
  (∀ (b0 b1 : Byte) (rest r : List Byte) (i : Instr), 0xC6 ≤ b0.toNat → b0.toNat ≤ 0xC7 →
    decode b0 (b1 :: rest) = .ok (i, r) → i.cls = .mov ∧ b1.toNat / 8 % 8 = 0)

/-- 30_encoding.md R98: in every mode, where the program ends inside a well-formed instruction, the step raises
InputTruncated(start, b0), b0 the instruction's first byte. -/
def Obligations.TruncatedInstructionRaisesInputTruncated : Prop :=
  ∀ (s : State) (i : Instr) (k : Nat), Fetching s → i.wf = true → 0 < k → k < i.len →
    s.progLen.toNat = (pointer s).toNat + k → FetchReads s (pointer s).toNat ((encode i).take k) →
    step s = .next (errorState s .inputTruncated (pointer s) i.op0)

/-- 30_encoding.md R101: the length of a decoded instruction is the one the table gives for its first two bytes, it
counts the bytes consumed, and it lies between 1 and 6. -/
def Obligations.DecodedLengthFollowsTable : Prop :=
  ∀ (b0 : Byte) (bytes rest : List Byte) (i : Instr), decode b0 bytes = .ok (i, rest) →
    i.len = tableLength b0 (bytes.headD 0) ∧ bytes.length + 1 = i.len + rest.length ∧ 1 ≤ i.len ∧ i.len ≤ 6

/-- Derived from 95_test_vectors.md section 2.1: words of every family, written out from the spec's encoding, decode
to the instruction they stand for. -/
def Obligations.SpecVectorsDecode : Prop :=
  decodeList [0xBC, 0xE6, 0x03] = .ok (.movRegImm .word 4 0x03E6, []) ∧
  decodeList [0x8B, 0x46, 0xFE] = .ok (.movRmReg true .word (.disp8 .bp 0xFE) 0, []) ∧
  decodeList [0xC7, 0x06, 0x00, 0x10, 0x34, 0x12] = .ok (.movRmImm .word (.direct 0x1000) 0x1234, []) ∧
  decodeList [0xA3, 0x00, 0x20] = .ok (.movMemAcc .word 0x2000, []) ∧
  decodeList [0x83, 0xC3, 0xFF] = .ok (.addRmImm (.reg 3) (.op83 0xFF), []) ∧
  decodeList [0x2B, 0x5A, 0x80] = .ok (.subRmReg true .word (.disp8 .bpSi 0x80) 3, []) ∧
  decodeList [0x39, 0xE5] = .ok (.cmpRmReg false .word (.reg 5) 4, []) ∧
  decodeList [0x75, 0xFE] = .ok (.jne 0xFE, []) ∧
  decodeList [0xE2, 0xFC] = .ok (.loop 0xFC, []) ∧
  decodeList [0xE3, 0x10] = .ok (.jcxz 0x10, [])

/-! ### The step -/

/-- Derived from 40_execution.md R130 and 45_vector_engine.md R234: a SCALAR step inside the program is the execution
of the instruction that decodes at ip, and a VECTOR step inside it of the one that decodes at vip. -/
def Obligations.StepExecutesDecodedInstruction : Prop :=
  ∀ (s : State) (i : Instr),
    (s.runningIn .scalar → s.fetches s.ip i → step s = exec i s) ∧
    (s.runningIn .vector → s.fetches s.vip i → step s = exec i s)

/-- Derived from 20_memory.md R67, R68 and 40_execution.md R130: when the bytes that fetch reads at the pointer of a
SCALAR or VECTOR run are the encoding of a well-formed instruction that ends inside the program, the step executes
that instruction. -/
def Obligations.StepExecutesEncodedInstruction : Prop :=
  ∀ (s : State) (i : Instr), s.runState = .running → s.mode = .scalar ∨ s.mode = .vector → i.wf = true →
    (pointer s).toNat + i.len ≤ s.progLen.toNat → FetchReads s (pointer s).toNat (encode i) → step s = exec i s

/-- 40_execution.md R131: the SCALAR step that finds ip ≥ L sets STATUS.STATE to DONE and changes nothing else. -/
def Obligations.ScalarRunEndsPastProgram : Prop :=
  ∀ s : State, s.runningIn .scalar → s.progLen ≤ s.ip → step s = .next { s with runState := .done }

/-- Derived from 70_reset_and_hazards.md R306 and 60_exceptions.md R286: outside RUNNING a step holds the whole state;
a step of a run leaves it RUNNING, DONE or ERROR; it ends DONE only with the mode's pointer at or past L, and
such a step raises no error. -/
def Obligations.StepFollowsRunStateMachine : Prop :=
  ∀ s t : State, step s = .next t →
    (s.runState ≠ .running → t = s) ∧
    (s.runState = .running →
      t.runState ≠ .idle ∧ (t.runState = .done → s.progLen ≤ pointer s) ∧
      (t.runState = .error → pointer s < s.progLen))

/-- Derived from 30_encoding.md R103 and 70_reset_and_hazards.md R306: a DECODE_ONLY step inside the program appends
the record of the instruction at the cursor, moves the cursor past it and changes nothing else; at or past L it ends
the run and changes nothing else. -/
def Obligations.SweepStepAppendsRecord : Prop :=
  ∀ s : State, s.runningIn .decodeOnly →
    (∀ i : Instr, s.fetches s.dpos i →
      step s = .next { s with
        out := s.out ++ [(s.dpos, ⟨i.cls, i.operands, i.len, s.dpos, i.op0⟩)]
        dpos := after s.dpos i.len }) ∧
    (s.progLen ≤ s.dpos → step s = .next { s with runState := .done })

/-- Derived from 30_encoding.md R103: a DECODE_ONLY run just started on the encodings of well-formed instructions, one
after another, ends DONE after one step for each instruction and one more, with exactly their records in OUT, in
order; every other part of the state but the cursor is as it was. -/
def Obligations.SweepListsWholeProgram : Prop :=
  ∀ (s : State) (program : List Instr), s.runningIn .decodeOnly → s.dpos = 0 → s.out = [] →
    (∀ i ∈ program, i.wf = true) → s.progLen.toNat = (programBytes program).length →
    FetchReads s 0 (programBytes program) →
    Sys2Proof.core.run (program.length + 1) s =
      .next { s with out := recordsFrom 0 program, dpos := s.progLen, runState := .done }

/-- Derived from 20_memory.md R67, R74: with PROGRAM_BUFFER the instruction that decodes at an offset does not depend
on M; with MEMORY it does not depend on the program copy, and a store is seen by the next fetch of its byte. -/
def Obligations.FetchSourceDecidesWhetherStoresAreSeen : Prop :=
  ∀ (s : State) (off : Word),
    (s.cfg.codeFetchSource = .programBuffer → ∀ m : Memory, ({ s with mem := m } : State).decodeAt off = s.decodeAt off) ∧
    (s.cfg.codeFetchSource = .memory →
      (∀ p : List Byte, ({ s with prog := p } : State).decodeAt off = s.decodeAt off) ∧
      (s.mem.wf → ∀ (a : Word) (v : Byte), ({ s with mem := s.mem.write a v } : State).fetchByte a.toNat = v))

/-! ### Errors -/

/-- 60_exceptions.md R276: a step of a run that ends in ERROR changes nothing but the four report fields, so every
write of the step is discarded, reports a kind that a step can raise, and is the last step of the run. -/
def Obligations.ErrorsArePrecise : Prop :=
  ∀ s t : State, s.runState = .running → step s = .next t → t.runState = .error →
    t = errorState s t.errKind t.errOffset t.errByte ∧ t.errKind ≠ .none ∧ t.errKind ≠ .configError ∧ step t = .next t

/-- Derived from 60_exceptions.md R272, R273: in every mode no step of a run raises OperandKindViolation, and
UnsupportedInstruction is raised in a VECTOR run alone, at vip with the first byte of an instruction that has a
memory operand. -/
def Obligations.UnsupportedIsRaisedForVectorMemoryOperandsOnly : Prop :=
  ∀ s t : State, s.runState = .running → step s = .next t → t.runState = .error →
    t.errKind ≠ .operandKindViolation ∧
    (t.errKind = .unsupportedInstruction →
      s.mode = .vector ∧ t.errOffset = s.vip ∧ ∃ i, s.fetches s.vip i ∧ i.hasMem = true ∧ t.errByte = i.op0)

/-! ### The ALU, registers, memory and addresses -/

/-- 42_add_sub_cmp.md R170: AddALU at both widths. -/
def Obligations.AddAluMatchesExactSum : Prop :=
  ∀ (sc : PfScope) (w : Width) (a b : BitVec w.bits), AddOutcome sc a b (addAlu sc a b).1 (addAlu sc a b).2

/-- 42_add_sub_cmp.md R171: SubALU at both widths. -/
def Obligations.SubAluMatchesExactDifference : Prop :=
  ∀ (sc : PfScope) (w : Width) (a b : BitVec w.bits), SubOutcome sc a b (subAlu sc a b).1 (subAlu sc a b).2

/-- Derived from the formula of 42_add_sub_cmp.md R172 (assumption 6 on R172's remark): the parity flag counts the low
byte or the whole result as PF_SCOPE says; for W = 8 the two settings agree, and for W = 16 they differ exactly when
the high byte of the result has an odd number of 1 bits. -/
def Obligations.ParityFollowsScope : Prop :=
  (∀ (sc : PfScope) (w : Width) (r : BitVec w.bits), ParityFlag sc r (parity sc r)) ∧
  (∀ r : Byte, parity .lowByte r = parity .fullWidth r) ∧
  (∀ lo hi : Byte, parity .lowByte (joinBytes lo hi) ≠ parity .fullWidth (joinBytes lo hi) ↔
    popCount hi 8 % 2 = 1)

/-- Derived from 42_add_sub_cmp.md R173 and 10_state.md R27: two SCALAR states that differ in their flags alone leave
any instruction with the same registers and memory; after MOV, ADD, SUB and CMP with the same ip as well; after ADD, SUB
and CMP with the same flags, and after MOV and every jump each with its own. -/
def Obligations.AluFlagsIgnorePriorFlags : Prop :=
  ∀ (i : Instr) (s : State) (f : Flags), s.mode = .scalar →
    ∃ t u, exec i s = .next t ∧ exec i { s with flags := f } = .next u ∧ u.x = t.x ∧ u.mem = t.mem ∧
      (i.cls = .mov ∨ i.cls = .add ∨ i.cls = .sub ∨ i.cls = .cmp → u.ip = t.ip) ∧
      (i.cls = .add ∨ i.cls = .sub ∨ i.cls = .cmp → u.flags = t.flags) ∧
      (¬ (i.cls = .add ∨ i.cls = .sub ∨ i.cls = .cmp) → t.flags = s.flags ∧ u.flags = f)

/-- Derived from 10_state.md R27: an instruction that is not an ADD, SUB or CMP writes no flag, of the scalar state or
of any lane, in any mode. -/
def Obligations.OnlyArithmeticWritesFlags : Prop :=
  ∀ (i : Instr) (s t : State), i.cls ≠ .add → i.cls ≠ .sub → i.cls ≠ .cmp → exec i s = .next t →
    t.flags = s.flags ∧ ∀ l : Lane, t.lanes[l].flags = s.lanes[l].flags

/-- 10_state.md R22: a byte register reads the half of its word that R21 names; a byte write is read back, leaves every
other byte register alone, and so keeps the other byte of its word. -/
def Obligations.ByteRegistersAreViews : Prop :=
  ∀ (x : Regs) (i j : RegIdx) (v : Byte),
    (i.val < 4 → (readReg8 x i).toNat = (readWord x i).toNat % 256) ∧
    (4 ≤ i.val → ∀ k : RegIdx, k.val + 4 = i.val → (readReg8 x i).toNat = (readWord x k).toNat / 256) ∧
    readReg8 (writeReg8 x i v) i = v ∧
    (j ≠ i → readReg8 (writeReg8 x i v) j = readReg8 x j) ∧
    (4 ≤ j.val → readWord (writeReg8 x i v) j = readWord x j)

/-- 20_memory.md R61, R62, R63: a 16-bit access is little-endian with its high byte at (a + 1) mod 2^16, so that at
0xFFFF it uses 0xFFFF and 0x0000; a byte access touches one byte; and no other byte changes. -/
def Obligations.MemoryAccessIsLittleEndian : Prop :=
  ∀ (m : Memory), m.wf → ∀ (a b : Word),
    (∀ v : Byte, (memWrite m a .byte v).read b = if b = a then v else m.read b) ∧
    (∀ v : Word, ((memWrite m a .word v).read b).toNat =
      if b = a then v.toNat % 256 else if b.toNat = (a.toNat + 1) % 65536 then v.toNat / 256 else (m.read b).toNat) ∧
    (memRead m a .byte = m.read a) ∧
    (b.toNat = (a.toNat + 1) % 65536 →
      (memRead m a .word : Word).toNat = (m.read a).toNat + 256 * (m.read b).toNat)

/-- 20_memory.md R65, 30_encoding.md R84 to R87 and 40_execution.md R132: every r/m operand has the base and index
registers of its rm field, its displacement bytes (disp8 sign-extended, disp16 low byte first, none) or the direct
address; the effective address is base + index + signed displacement modulo 2^16, and the displacement's unsigned
reading gives the same address; and ReadOp reads the register at its width, the immediate, or memory at that address. -/
def Obligations.EffectiveAddressIsSumModulo64K : Prop :=
  (∀ (d : Bool) (w : Width) (rm : RmOperand) (r : RegIdx) (imm : BitVec w.bits) (g : GroupImm), rm.wf = true →
    RmBytes (.movRmReg d w rm r) r (rm.operand w) ∧ RmBytes (.movRmImm w rm imm) 0 (rm.operand w) ∧
    RmBytes (.addRmReg d w rm r) r (rm.operand w) ∧ RmBytes (.addRmImm rm g) 0 (rm.operand g.width) ∧
    RmBytes (.subRmReg d w rm r) r (rm.operand w) ∧ RmBytes (.subRmImm rm g) 5 (rm.operand g.width) ∧
    RmBytes (.cmpRmReg d w rm r) r (rm.operand w) ∧ RmBytes (.cmpRmImm rm g) 7 (rm.operand g.width)) ∧
  (∀ (s : State) (w : Width) (op : Operand w), readOp s.datapath op = valueOf s op) ∧
  (∀ (x : Regs) (m : MemOperand),
    let base : Int := match m.base with
      | none => 0
      | some .bx => (readWord x 3).toNat
      | some .bp => (readWord x 5).toNat
      | some .si => (readWord x 6).toNat
      | some .di => (readWord x 7).toNat
    let index : Int := match m.index with
      | none => 0
      | some .si => (readWord x 6).toNat
      | some .di => (readWord x 7).toNat
    ((effectiveAddress x m).toNat : Int) = (base + index + m.disp.toInt) % 65536 ∧
    ((effectiveAddress x m).toNat : Int) = (base + index + m.disp.toNat) % 65536)

/-- 10_state.md R26: the FLAGS image has CF at bit 0, PF 2, AF 4, ZF 6, SF 7, OF 11 and 0 elsewhere; outside RUNNING
a host write of an image sets the six flags from those bits and ignores the others, for the scalar state and for a
lane, and changes nothing else: no flag of another target, no register, no other part of a lane, no memory. -/
def Obligations.FlagsImagePacksSixFlags : Prop :=
  (∀ f : Flags, f.image.toNat = bitNat f.cf + 4 * bitNat f.pf + 16 * bitNat f.af + 64 * bitNat f.zf +
    128 * bitNat f.sf + 2048 * bitNat f.of) ∧
  (∀ (s : State) (who : Target), s.runState ≠ .running →
    hostMove (.readFlags who) s = .moved s (.word (s.flagsOf who).image) ∧
    ∀ v : Word, ∃ t r, hostMove (.writeFlags who v) s = .moved t r ∧
      hostMove (.readFlags who) t = .moved t (.word (v &&& 0x08D5)) ∧
      (∀ who' : Target, who' ≠ who → t.flagsOf who' = s.flagsOf who') ∧
      t = { s with flags := t.flags, lanes := t.lanes } ∧
      ∀ l : Lane, t.lanes[l] = { s.lanes[l] with flags := t.lanes[l].flags })

/-! ### Instructions in the scalar engine -/

/-- 41_mov.md R160 to R165, for movRmReg, movRmImm, movRegImm, movAccMem and movMemAcc: in every SCALAR state MOV
completes, copies its source to its destination, keeps every flag, changes no other register and no other byte of
memory, and moves ip past itself; with the row of each form. -/
def Obligations.MovCopiesSourceToDestination : Prop :=
  (∀ (d : Bool) (w : Width) (rm : RmOperand) (r : RegIdx),
    EncodedAs (.movRmReg d w rm r) (0x88 + 2 * bitNat d + widthBit w) 2 4 ∧
    Moves (.movRmReg d w rm r) (if d then .reg r else rm.operand w) (if d then rm.operand w else .reg r)) ∧
  (∀ (w : Width) (rm : RmOperand) (imm : BitVec w.bits),
    EncodedAs (.movRmImm w rm imm) (0xC6 + widthBit w) 3 6 ∧ SubOpcode (.movRmImm w rm imm) 0 ∧
    Moves (.movRmImm w rm imm) (rm.operand w) (.imm imm)) ∧
  (∀ (w : Width) (r : RegIdx) (imm : BitVec w.bits),
    EncodedAs (.movRegImm w r imm) (0xB0 + 8 * widthBit w + r.val) 2 3 ∧
    Moves (.movRegImm w r imm) (.reg r : Operand w) (.imm imm)) ∧
  (∀ (w : Width) (addr : Word),
    EncodedAs (.movAccMem w addr) (0xA0 + widthBit w) 3 3 ∧
    Moves (.movAccMem w addr) (.reg 0 : Operand w) (.mem ⟨none, none, addr, true⟩)) ∧
  (∀ (w : Width) (addr : Word),
    EncodedAs (.movMemAcc w addr) (0xA2 + widthBit w) 3 3 ∧
    Moves (.movMemAcc w addr) (.mem ⟨none, none, addr, true⟩ : Operand w) (.reg 0))

/-- 42_add_sub_cmp.md R174 to R176, for addRmReg, addRmImm and addAccImm: in every SCALAR state ADD completes, writes
the sum to its destination, sets all six flags, and changes no other register and no other byte of memory; with the
row of each form. -/
def Obligations.AddWritesSumAndFlags : Prop :=
  (∀ (d : Bool) (w : Width) (rm : RmOperand) (r : RegIdx),
    EncodedAs (.addRmReg d w rm r) (2 * bitNat d + widthBit w) 2 4 ∧
    Adds (.addRmReg d w rm r) (if d then .reg r else rm.operand w) (if d then rm.operand w else .reg r)) ∧
  (∀ (rm : RmOperand),
    (∀ g, SubOpcode (.addRmImm rm g) 0) ∧
    (∀ v : Byte, EncodedAs (.addRmImm rm (.op80 v)) 0x80 3 5 ∧
      Adds (w := .byte) (.addRmImm rm (.op80 v)) (rm.operand .byte) (.imm v)) ∧
    (∀ v : Word, EncodedAs (.addRmImm rm (.op81 v)) 0x81 4 6 ∧
      Adds (w := .word) (.addRmImm rm (.op81 v)) (rm.operand .word) (.imm v)) ∧
    (∀ v : Byte, EncodedAs (.addRmImm rm (.op82 v)) 0x82 3 5 ∧
      Adds (w := .byte) (.addRmImm rm (.op82 v)) (rm.operand .byte) (.imm v)) ∧
    (∀ v : Byte, EncodedAs (.addRmImm rm (.op83 v)) 0x83 3 5 ∧
      Adds (w := .word) (.addRmImm rm (.op83 v)) (rm.operand .word) (.imm (BitVec.ofInt 16 v.toInt)))) ∧
  (∀ (w : Width) (imm : BitVec w.bits),
    EncodedAs (.addAccImm w imm) (0x04 + widthBit w) 2 3 ∧
    Adds (.addAccImm w imm) (.reg 0 : Operand w) (.imm imm))

/-- 42_add_sub_cmp.md R177 to R179, for subRmReg, subRmImm and subAccImm: in every SCALAR state SUB completes, writes
the difference to its destination, sets all six flags, and changes no other register and no other byte of memory;
with the row of each form. -/
def Obligations.SubWritesDifferenceAndFlags : Prop :=
  (∀ (d : Bool) (w : Width) (rm : RmOperand) (r : RegIdx),
    EncodedAs (.subRmReg d w rm r) (0x28 + 2 * bitNat d + widthBit w) 2 4 ∧
    Subtracts (.subRmReg d w rm r) (if d then .reg r else rm.operand w) (if d then rm.operand w else .reg r)) ∧
  (∀ (rm : RmOperand),
    (∀ g, SubOpcode (.subRmImm rm g) 5) ∧
    (∀ v : Byte, EncodedAs (.subRmImm rm (.op80 v)) 0x80 3 5 ∧
      Subtracts (w := .byte) (.subRmImm rm (.op80 v)) (rm.operand .byte) (.imm v)) ∧
    (∀ v : Word, EncodedAs (.subRmImm rm (.op81 v)) 0x81 4 6 ∧
      Subtracts (w := .word) (.subRmImm rm (.op81 v)) (rm.operand .word) (.imm v)) ∧
    (∀ v : Byte, EncodedAs (.subRmImm rm (.op82 v)) 0x82 3 5 ∧
      Subtracts (w := .byte) (.subRmImm rm (.op82 v)) (rm.operand .byte) (.imm v)) ∧
    (∀ v : Byte, EncodedAs (.subRmImm rm (.op83 v)) 0x83 3 5 ∧
      Subtracts (w := .word) (.subRmImm rm (.op83 v)) (rm.operand .word) (.imm (BitVec.ofInt 16 v.toInt)))) ∧
  (∀ (w : Width) (imm : BitVec w.bits),
    EncodedAs (.subAccImm w imm) (0x2C + widthBit w) 2 3 ∧
    Subtracts (.subAccImm w imm) (.reg 0 : Operand w) (.imm imm))

/-- 42_add_sub_cmp.md R180 to R182, for cmpRmReg, cmpRmImm and cmpAccImm: in every SCALAR state CMP completes and sets
the six flags of destination − source; every register and every byte of memory keeps its value; with the row of each
form. -/
def Obligations.CmpSetsFlagsAndWritesNothing : Prop :=
  (∀ (d : Bool) (w : Width) (rm : RmOperand) (r : RegIdx),
    EncodedAs (.cmpRmReg d w rm r) (0x38 + 2 * bitNat d + widthBit w) 2 4 ∧
    Compares (.cmpRmReg d w rm r) (if d then .reg r else rm.operand w) (if d then rm.operand w else .reg r)) ∧
  (∀ (rm : RmOperand),
    (∀ g, SubOpcode (.cmpRmImm rm g) 7) ∧
    (∀ v : Byte, EncodedAs (.cmpRmImm rm (.op80 v)) 0x80 3 5 ∧
      Compares (w := .byte) (.cmpRmImm rm (.op80 v)) (rm.operand .byte) (.imm v)) ∧
    (∀ v : Word, EncodedAs (.cmpRmImm rm (.op81 v)) 0x81 4 6 ∧
      Compares (w := .word) (.cmpRmImm rm (.op81 v)) (rm.operand .word) (.imm v)) ∧
    (∀ v : Byte, EncodedAs (.cmpRmImm rm (.op82 v)) 0x82 3 5 ∧
      Compares (w := .byte) (.cmpRmImm rm (.op82 v)) (rm.operand .byte) (.imm v)) ∧
    (∀ v : Byte, EncodedAs (.cmpRmImm rm (.op83 v)) 0x83 3 5 ∧
      Compares (w := .word) (.cmpRmImm rm (.op83 v)) (rm.operand .word) (.imm (BitVec.ofInt 16 v.toInt)))) ∧
  (∀ (w : Width) (imm : BitVec w.bits),
    EncodedAs (.cmpAccImm w imm) (0x3C + widthBit w) 2 3 ∧
    Compares (.cmpAccImm w imm) (.reg 0 : Operand w) (.imm imm))

/-- 43_jumps.md R202 to R209, for jo, jno, jb, jnb, je, jne, jbe and ja (opcodes 70 to 77): in every SCALAR state the
jump completes, goes to off + 2 + s_8(rel8) modulo 2^16 exactly when its flag condition holds and to off + 2 otherwise,
and changes nothing but ip. -/
def Obligations.JumpsOnOverflowCarryAndZero : Prop :=
  ∀ rel : Byte,
    Jumps (.jo rel) 0x70 rel (fun _ f => f.of = true) ∧
    Jumps (.jno rel) 0x71 rel (fun _ f => f.of = false) ∧
    Jumps (.jb rel) 0x72 rel (fun _ f => f.cf = true) ∧
    Jumps (.jnb rel) 0x73 rel (fun _ f => f.cf = false) ∧
    Jumps (.je rel) 0x74 rel (fun _ f => f.zf = true) ∧
    Jumps (.jne rel) 0x75 rel (fun _ f => f.zf = false) ∧
    Jumps (.jbe rel) 0x76 rel (fun _ f => f.cf = true ∨ f.zf = true) ∧
    Jumps (.ja rel) 0x77 rel (fun _ f => f.cf = false ∧ f.zf = false)

/-- 43_jumps.md R210 to R217, for js, jns, jp, jnp, jl, jnl, jle and jg (opcodes 78 to 7F): in every SCALAR state the
jump completes, goes to off + 2 + s_8(rel8) modulo 2^16 exactly when its flag condition holds and to off + 2 otherwise,
and changes nothing but ip. -/
def Obligations.JumpsOnSignAndParity : Prop :=
  ∀ rel : Byte,
    Jumps (.js rel) 0x78 rel (fun _ f => f.sf = true) ∧
    Jumps (.jns rel) 0x79 rel (fun _ f => f.sf = false) ∧
    Jumps (.jp rel) 0x7A rel (fun _ f => f.pf = true) ∧
    Jumps (.jnp rel) 0x7B rel (fun _ f => f.pf = false) ∧
    Jumps (.jl rel) 0x7C rel (fun _ f => f.sf ≠ f.of) ∧
    Jumps (.jnl rel) 0x7D rel (fun _ f => f.sf = f.of) ∧
    Jumps (.jle rel) 0x7E rel (fun _ f => f.zf = true ∨ f.sf ≠ f.of) ∧
    Jumps (.jg rel) 0x7F rel (fun _ f => f.zf = false ∧ f.sf = f.of)

/-- 43_jumps.md R218 to R220, for loopnz, loopz and loop: in every SCALAR state the jump completes with CX decremented
modulo 2^16, is taken when the new CX is not 0 and ZF is as the instruction asks, and changes nothing but CX and ip. -/
def Obligations.LoopJumpsDecrementCx : Prop :=
  ∀ rel : Byte,
    LoopJumps (.loopnz rel) 0xE0 rel (fun cx f => cx ≠ 0 ∧ f.zf = false) ∧
    LoopJumps (.loopz rel) 0xE1 rel (fun cx f => cx ≠ 0 ∧ f.zf = true) ∧
    LoopJumps (.loop rel) 0xE2 rel (fun cx _ => cx ≠ 0)

/-- 43_jumps.md R221, for jcxz: in every SCALAR state JCXZ completes, is taken exactly when the whole CX is 0, and
changes nothing but ip. -/
def Obligations.JcxzTestsCx : Prop :=
  ∀ rel : Byte, Jumps (.jcxz rel) 0xE3 rel (fun x _ => (readWord x 1).toNat = 0)

/-- Derived from 43_jumps.md R201: of the jumps of two opcodes 70 + cc and 71 + cc, cc even, exactly one is taken from
any SCALAR state, and where each goes does not depend on AF. -/
def Obligations.ConditionsComeInNegatedPairs : Prop :=
  ∀ (even odd : Fin 16) (rel : Byte) (s : State) (b : Bool), even.val % 2 = 0 → odd.val = even.val + 1 →
    s.mode = .scalar →
    ∃ i j t u v w, decodeList [BitVec.ofNat 8 (0x70 + even.val), rel] = .ok (i, []) ∧
      decodeList [BitVec.ofNat 8 (0x70 + odd.val), rel] = .ok (j, []) ∧
      exec i s = .next t ∧ exec j s = .next u ∧
      ((t.ip = target s.ip rel ∧ u.ip = after s.ip 2) ∨ (t.ip = after s.ip 2 ∧ u.ip = target s.ip rel)) ∧
      exec i { s with flags := { s.flags with af := b } } = .next v ∧ v.ip = t.ip ∧
      exec j { s with flags := { s.flags with af := b } } = .next w ∧ w.ip = u.ip

/-- 43_jumps.md R200, R223: every jump is two bytes long and in every SCALAR state goes to its target or to the next
instruction; it writes ip and, for LOOP, LOOPZ and LOOPNZ, CX, and nothing else. It reads only the flags, CX and ip: two
states that agree on them leave it with the same ip and CX, whatever else differs. -/
def Obligations.JumpsReadOnlyFlagsAndCx : Prop :=
  ∀ (i : Instr) (rel : Byte) (s t : State), i.operands = .jump (.imm rel) → s.mode = .scalar → t.mode = .scalar →
    s.flags = t.flags → readWord s.x 1 = readWord t.x 1 → s.ip = t.ip →
    encode i = [i.op0, rel] ∧
    ∃ s' t', exec i s = .next s' ∧ exec i t = .next t' ∧ s'.ip = t'.ip ∧ readWord s'.x 1 = readWord t'.x 1 ∧
      (takenIf i s'.x s.flags = true → s'.ip = target s.ip rel) ∧
      (takenIf i s'.x s.flags = false → s'.ip = after s.ip 2) ∧
      JumpRegs i s.x s'.x ∧ s' = { s with x := s'.x, ip := s'.ip }

/-- Derived from 43_jumps.md R220: repeating `loop $+0` from any SCALAR state leaves ip on the instruction until CX
reaches 0, and does so after CX executions, or 65536 when CX is 0, with ip then after it and nothing else changed. -/
def Obligations.LoopToItselfCountsCxDown : Prop :=
  ∀ s : State, s.mode = .scalar →
    let n := if (readWord s.x 1).toNat = 0 then 65536 else (readWord s.x 1).toNat
    (∀ k < n, ∃ t, Repeats (.loop 0xFE) k s t ∧ t.ip = s.ip) ∧
    ∃ t, Repeats (.loop 0xFE) n s t ∧ readWord t.x 1 = 0 ∧ t.ip = after s.ip 2 ∧
      (∀ j, j ≠ 1 → readWord t.x j = readWord s.x j) ∧ t = { s with x := t.x, ip := t.ip }

/-- Derived from 10_state.md R32, R36 and 40_execution.md R136, R139: in SCALAR mode every instruction completes and
changes at most the scalar registers, flags, memory and ip: no control, status or error register, no lane, no part of
the vector engine or the decode-only stream, not L, not the program copy and not the parameters. -/
def Obligations.ScalarInstructionsTouchOnlyScalarState : Prop :=
  ∀ (i : Instr) (s : State), s.mode = .scalar → ∃ t, exec i s = .next t ∧ SameElsewhere s t ∧
    (s.mem.wf → t.mem.wf) ∧
    ∃ u, exec i { s with
        progLen := 0, prog := [], ctrl := 1, runState := .idle, errKind := .none, errOffset := 0, errByte := 0,
        lanes := Vector.replicate maxLanes LaneState.zero, vip := 0, pstack := [], out := [], dpos := 0 } = .next u ∧
      u.datapath = t.datapath ∧ u.ip = t.ip

/-! ### Invariants -/

/-- Derived from 10_state.md R39: the state after RESET, at any parameters, satisfies the block's invariant. -/
def Obligations.InvariantHoldsAfterReset : Prop := ∀ c : Config, (State.resetWith c).Inv

/-- Derived from 10_state.md R28 to R33 and 60_exceptions.md R276: every step keeps the block's invariant: canonical
memory, a program copy of L bytes, no run in an illegal configuration, an error report exactly in ERROR. -/
def Obligations.StepKeepsInvariant : Prop := ∀ s t : State, s.Inv → step s = .next t → t.Inv

/-- Derived from 70_reset_and_hazards.md R300 to R305: every host operation that moves keeps the block's invariant, and the
parameters stay as they are (the model's own clause, assumption 1). -/
def Obligations.HostMoveKeepsInvariant : Prop :=
  ∀ (op : HostOp) (s t : State) (r : HostReply), s.Inv → hostMove op s = .moved t r → t.Inv ∧ t.cfg = s.cfg

/-- Derived from 70_reset_and_hazards.md R306, R311: from every state that the block and its host can reach, any
number of steps runs without a fault and without a refusal. -/
def Obligations.ReachableRunsNeverStop : Prop := ∀ s : State, Reachable s → ∀ k : Nat, SafeFor k s

/-- Derived from 10_state.md R37 and 30_encoding.md R103: every step of a DECODE_ONLY run keeps the stream in order:
records by increasing offset, each ending at or before the next and before the cursor, and the cursor within L. -/
def Obligations.SweepKeepsStreamOrdered : Prop :=
  ∀ s t : State, s.runningIn .decodeOnly → s.SweepInv → step s = .next t → t.SweepInv

/-! ### The vector engine -/

/-- 45_vector_engine.md R236 (with the blend of R235 and step 4 of R234): a MOV, ADD, SUB or CMP without a memory operand completes in
every VECTOR state: each active lane takes the registers and flags that the scalar rule gives it from its own state,
every other lane keeps every bit, vip moves past the instruction, the merged groups leave the predicate stack, and
nothing else changes. -/
def Obligations.VectorDataAppliesScalarRulePerLane : Prop :=
  ∀ (i : Instr) (s : State), s.mode = .vector → i.hasMem = false →
    i.cls = .mov ∨ i.cls = .add ∨ i.cls = .sub ∨ i.cls = .cmp →
    ∃ t, exec i s = .next t ∧
      (∀ l : Lane, ActiveHere s l → ∃ u, exec i (laneAtVip s l) = .next u ∧
        t.lanes[l] = { s.lanes[l] with x := u.x, flags := u.flags }) ∧
      (∀ l : Lane, ¬ ActiveHere s l → t.lanes[l] = s.lanes[l]) ∧
      t = { s with lanes := t.lanes, pstack := s.pstack.filter (fun e => e.resume != s.vip), vip := after s.vip i.len }

/-- 45_vector_engine.md R233: in a VECTOR run an instruction with a memory operand raises
UnsupportedInstruction(vip, op0) with no other change, and an instruction without one is executed and raises
nothing; the register forms of rows 1, 2, 6, 7, 9, 10, 12 and 13, rows 3, 8, 11, 14 and the jumps have none. -/
def Obligations.VectorRefusesMemoryOperands : Prop :=
  (∀ (i : Instr) (s : State), s.runningIn .vector → s.fetches s.vip i →
    (i.hasMem = true → step s = .next (errorState s .unsupportedInstruction s.vip i.op0)) ∧
    (i.hasMem = false → ∃ t, step s = .next t ∧ t.runState = .running)) ∧
  (∀ (d : Bool) (w : Width) (rm : RmOperand) (r : RegIdx) (g : GroupImm) (imm : BitVec w.bits) (a : Word),
    let isReg := ∃ k, rm = .reg k
    ((Instr.movRmReg d w rm r).hasMem = false ↔ isReg) ∧ ((Instr.movRmImm w rm imm).hasMem = false ↔ isReg) ∧
    ((Instr.addRmReg d w rm r).hasMem = false ↔ isReg) ∧ ((Instr.addRmImm rm g).hasMem = false ↔ isReg) ∧
    ((Instr.subRmReg d w rm r).hasMem = false ↔ isReg) ∧ ((Instr.subRmImm rm g).hasMem = false ↔ isReg) ∧
    ((Instr.cmpRmReg d w rm r).hasMem = false ↔ isReg) ∧ ((Instr.cmpRmImm rm g).hasMem = false ↔ isReg) ∧
    (Instr.movRegImm w r imm).hasMem = false ∧ (Instr.addAccImm w imm).hasMem = false ∧
    (Instr.subAccImm w imm).hasMem = false ∧ (Instr.cmpAccImm w imm).hasMem = false ∧
    (Instr.movAccMem w a).hasMem = true ∧ (Instr.movMemAcc w a).hasMem = true) ∧
  (∀ (i : Instr) (rel : Byte), i.operands = .jump (.imm rel) → i.hasMem = false)

/-- 45_vector_engine.md R238, R239: a jump completes in every VECTOR state. Each active lane latches its condition,
read after the CX decrement of LOOP, LOOPZ and LOOPNZ, in took; every other lane keeps every bit. If no active lane
jumps, or the target is the next instruction, vip goes on; if every active lane jumps, vip goes to the target;
otherwise the group bound for the lower offset goes on and exactly the other group is parked at its own offset. Nothing
else changes. -/
def Obligations.VectorJumpDiverges : Prop :=
  ∀ (i : Instr) (rel : Byte) (s : State), s.mode = .vector → i.operands = .jump (.imm rel) →
    ∃ t, exec i s = .next t ∧
      (∀ l : Lane, ActiveHere s l →
        JumpRegs i s.lanes[l].x t.lanes[l].x ∧ t.lanes[l].took = takenIf i t.lanes[l].x s.lanes[l].flags ∧
        t.lanes[l] = { s.lanes[l] with x := t.lanes[l].x, took := t.lanes[l].took }) ∧
      (∀ l : Lane, ¬ ActiveHere s l → t.lanes[l] = s.lanes[l]) ∧
      t = { s with lanes := t.lanes, pstack := t.pstack, vip := t.vip } ∧
      let T := target s.vip rel
      let F := after s.vip 2
      let J := fun l : Lane => ActiveHere s l ∧ t.lanes[l].took = true
      let S := fun l : Lane => ActiveHere s l ∧ t.lanes[l].took = false
      ((∀ l, ¬ J l) ∨ T = F → t.vip = F ∧ t.pstack = s.mergedStack) ∧
      ((∃ l, J l) → T ≠ F → (∀ l, ¬ S l) → t.vip = T ∧ t.pstack = s.mergedStack) ∧
      ((∃ l, J l) → (∃ l, S l) → T < F → t.vip = T ∧
        ∃ e, t.pstack = e :: s.mergedStack ∧ e.resume = F ∧ ∀ l : Lane, s.takesPart l → (e.pred[l] = false ↔ S l)) ∧
      ((∃ l, J l) → (∃ l, S l) → F < T → t.vip = F ∧
        ∃ e, t.pstack = e :: s.mergedStack ∧ e.resume = T ∧ ∀ l : Lane, s.takesPart l → (e.pred[l] = false ↔ J l))

/-- Derived from 45_vector_engine.md R240: in a state of a VECTOR run, the lanes active after the merge are exactly
those that are active already or parked at vip, and the merge leaves no entry at vip. -/
def Obligations.MergeReactivatesLanesParkedAtVip : Prop :=
  ∀ s : State, s.VectorInv →
    (∀ l : Lane, ActiveHere s l ↔
      s.laneActive l ∨ (s.takesPart l ∧ s.lanes[l].done = false ∧ ∃ e ∈ s.pstack, e.pred[l] = false ∧ e.resume = s.vip)) ∧
    (∀ e ∈ s.mergedStack, e.resume ≠ s.vip) ∧
    (∀ e ∈ s.pstack, e.resume ≠ s.vip → e ∈ s.mergedStack)

/-- Derived from 45_vector_engine.md R241, R242 (step 2 of R234): at vip ≥ L the active lanes become done with
ip_final = vip and every other lane keeps every bit; with no group parked the run is DONE; otherwise vip moves to the
least resume of the stack and the run goes on. Nothing else changes. -/
def Obligations.GroupEndFinishesActiveLanes : Prop :=
  ∀ s : State, s.runningIn .vector → s.progLen ≤ s.vip → ∃ t, step s = .next t ∧
    (∀ l : Lane, ActiveHere s l → t.lanes[l] = { s.lanes[l] with done := true, ipFinal := s.vip }) ∧
    (∀ l : Lane, ¬ ActiveHere s l → t.lanes[l] = s.lanes[l]) ∧
    t = { s with lanes := t.lanes, pstack := s.mergedStack, vip := t.vip, runState := t.runState } ∧
    (s.mergedStack = [] → t.runState = .done ∧ t.vip = s.vip) ∧
    (s.mergedStack ≠ [] → t.runState = .running ∧ (∃ e ∈ s.mergedStack, t.vip = e.resume) ∧
      ∀ e ∈ s.mergedStack, t.vip ≤ e.resume)

/-- Derived from 45_vector_engine.md R232, R301: START in VECTOR mode with a legal lane count gives a run at vip = 0
that satisfies the vector invariant, in which every lane that takes part is active and holds the registers and flags
the host left in it, and no other lane changed. -/
def Obligations.VectorStartActivatesEveryLane : Prop :=
  ∀ s t : State, ∀ r : HostReply, s.mode = .vector → 1 ≤ s.laneCount → s.laneCount ≤ 32 →
    hostMove .start s = .moved t r →
    t.runningIn .vector ∧ t.VectorInv ∧ t.vip = 0 ∧ t.pstack = [] ∧ t.mem = s.mem ∧
    (∀ l : Lane, s.takesPart l → t.laneActive l ∧ t.lanes[l].x = s.lanes[l].x ∧ t.lanes[l].flags = s.lanes[l].flags ∧
      t.lanes[l].took = false ∧ t.lanes[l].done = false ∧ t.lanes[l].ipFinal = 0) ∧
    (∀ l : Lane, ¬ s.takesPart l → t.lanes[l] = s.lanes[l])

/-- Derived from 45_vector_engine.md R244: every step of a VECTOR run that leaves it RUNNING keeps the vector
invariant: each lane that takes part is active, parked in one entry or done, each entry parks a lane, and some lane is
active after the merge. -/
def Obligations.StepKeepsVectorInvariant : Prop :=
  ∀ s t : State, s.runningIn .vector → s.VectorInv → step s = .next t → t.runState = .running → t.VectorInv

/-- Derived from 45_vector_engine.md R244 item 2: under the vector invariant the predicate stack has fewer entries than
lanes take part, so never more than 31; and when the run ends every lane that takes part is done. -/
def Obligations.PredicateStackStaysBelowLaneCount : Prop :=
  (∀ s : State, s.VectorInv → s.pstack.length < s.laneCount ∧ s.pstack.length ≤ 31) ∧
  (∀ s t : State, s.runningIn .vector → s.VectorInv → step s = .next t → t.runState = .done →
    ∀ l : Lane, s.takesPart l → t.lanes[l].done = true)

/-- Derived from 45_vector_engine.md R244 item 4 and R245: one step of a VECTOR run is, for every lane that takes part,
one step of the scalar machine that the lane stands for when the lane is active and the step executes an instruction,
and no step of it otherwise. -/
def Obligations.VectorStepIsScalarStepOfEachActiveLane : Prop :=
  ∀ s t : State, s.runningIn .vector → s.VectorInv → step s = .next t → t.runState ≠ .error →
    ∀ l : Lane, s.takesPart l →
      (ActiveHere s l ∧ s.vip < s.progLen →
        ∃ u, step (s.laneScalar l) = .next u ∧ u.runState = .running ∧ u.x = t.lanes[l].x ∧
          u.flags = t.lanes[l].flags ∧ u.ip = t.laneIp l ∧ u.mem = t.mem ∧ t.lanes[l].done = false) ∧
      (¬ (ActiveHere s l ∧ s.vip < s.progLen) →
        t.lanes[l].x = s.lanes[l].x ∧ t.lanes[l].flags = s.lanes[l].flags ∧ t.laneIp l = s.laneIp l)

/-- 45_vector_engine.md R245, the vector/scalar equivalence law: from a VECTOR run just started, if for every lane that
takes part the scalar run of the same program from the lane's state reaches DONE and executes no instruction with a
memory operand, then the VECTOR run reaches DONE, and every lane's registers, flags and ip_final are those of its
scalar run. Where the scalar run of an active lane is at an instruction with a memory operand, the VECTOR run raises
UnsupportedInstruction there. -/
def Obligations.VectorRunEqualsScalarRuns : Prop :=
  (∀ s : State, s.runningIn .vector → 1 ≤ s.laneCount → s.laneCount ≤ 32 → s.vip = 0 → s.pstack = [] →
    (∀ l : Lane, s.takesPart l → s.lanes[l].done = false) →
    (∀ l : Lane, s.takesPart l → ∃ u, MemoryFreeRun (s.laneScalar l) u) →
    ∃ k t, Sys2Proof.core.run k s = .next t ∧ t.runState = .done ∧
      ∀ l : Lane, s.takesPart l → ∀ u, MemoryFreeRun (s.laneScalar l) u →
        t.lanes[l].x = u.x ∧ t.lanes[l].flags = u.flags ∧ t.lanes[l].ipFinal = u.ip) ∧
  (∀ (s : State) (l : Lane) (i : Instr), s.runningIn .vector → s.VectorInv → ActiveHere s l →
    (s.laneScalar l).fetches (s.laneScalar l).ip i → i.hasMem = true →
    step s = .next (errorState s .unsupportedInstruction (s.laneIp l) i.op0))

/-- Derived from 45_vector_engine.md R246: changing the registers and flags of one lane changes nothing that an
instruction does to any other lane in a VECTOR run. -/
def Obligations.LanesDoNotInterfere : Prop :=
  ∀ (i : Instr) (s : State) (m : Lane) (x : Regs) (f : Flags), s.mode = .vector →
    ∃ t u, exec i s = .next t ∧
      exec i { s with lanes := s.lanes.set m { s.lanes[m] with x := x, flags := f } } = .next u ∧
      ∀ l : Lane, l ≠ m → u.lanes[l] = t.lanes[l]

/-- Derived from 10_state.md R36 and 20_memory.md R75: no step of a VECTOR run changes M, a scalar register, flag or ip,
or a lane that takes no part; and no step of a DECODE_ONLY run changes M, a register or a flag of any state or lane. -/
def Obligations.VectorAndSweepStepsKeepMemoryAndScalarState : Prop :=
  ∀ s t : State, step s = .next t →
    (s.runningIn .vector → t.mem = s.mem ∧ t.x = s.x ∧ t.flags = s.flags ∧ t.ip = s.ip ∧ t.prog = s.prog ∧
      t.progLen = s.progLen ∧ t.ctrl = s.ctrl ∧ t.out = s.out ∧ t.dpos = s.dpos ∧ t.cfg = s.cfg ∧
      ∀ l : Lane, ¬ s.takesPart l → t.lanes[l] = s.lanes[l]) ∧
    (s.runningIn .decodeOnly → t.mem = s.mem ∧ t.x = s.x ∧ t.flags = s.flags ∧ t.ip = s.ip ∧ t.lanes = s.lanes ∧
      t.vip = s.vip ∧ t.pstack = s.pstack ∧ t.prog = s.prog ∧ t.progLen = s.progLen ∧ t.ctrl = s.ctrl ∧ t.cfg = s.cfg)

/-! ### The host -/

/-- 70_reset_and_hazards.md R300: RESET is accepted at any time, also while RUNNING, and sets every piece of state to
its reset value. -/
def Obligations.ResetSetsEveryResetValue : Prop :=
  ∀ s : State, ∃ t r, hostMove .reset s = .moved t r ∧
    (∀ i, readWord t.x i = 0) ∧ t.ip = 0 ∧ t.flags = ⟨false, false, false, false, false, false⟩ ∧
    (∀ a, t.mem.read a = 0) ∧ t.prog = [] ∧ t.progLen = 0 ∧ t.mode = .scalar ∧ t.laneCount = 32 ∧
    t.runState = .idle ∧ t.errKind = .none ∧ t.errOffset = 0 ∧ t.errByte = 0 ∧
    (∀ l : Lane, (∀ i, readWord t.lanes[l].x i = 0) ∧
      t.lanes[l].flags = ⟨false, false, false, false, false, false⟩ ∧
      t.lanes[l].took = false ∧ t.lanes[l].done = false ∧ t.lanes[l].ipFinal = 0) ∧
    t.vip = 0 ∧ t.pstack = [] ∧ t.out = [] ∧ t.dpos = 0

/-- Derived from 70_reset_and_hazards.md R301, 10_state.md R33, 60_exceptions.md R270, R275 and 45_vector_engine.md
R232: outside RUNNING, START with CTRL.MODE = 3, or VECTOR with LANES outside 1 to 32, raises ConfigError with
ERR_OFFSET 0 and ERR_BYTE CTRL[7:0] and changes nothing else; in any other configuration, whatever LANES holds in the
other modes, the run begins with the error report cleared and the mode's pointer at 0, in VECTOR with took, done and
ip_final of the lanes that take part at 0, and registers, flags and M keep their values. While RUNNING, START has no
move. The reply to the host is left open (assumption 16). -/
def Obligations.StartChecksConfiguration : Prop :=
  (∀ s : State, s.runState = .running → hostMove .start s = .noMove) ∧
  ∀ s : State, s.runState ≠ .running →
    let illegal := s.ctrl.toNat % 4 = 3 ∨ (s.ctrl.toNat % 4 = 2 ∧ ¬ (1 ≤ s.ctrl.toNat / 4 ∧ s.ctrl.toNat / 4 ≤ 32))
    (illegal → ∃ r, hostMove .start s = .moved (errorState s .configError 0 s.ctrl) r) ∧
    (¬ illegal → ∃ t r, hostMove .start s = .moved t r ∧ t.runState = .running ∧ t.errKind = .none ∧
      t.errOffset = 0 ∧ t.errByte = 0 ∧ pointer t = 0 ∧ t.x = s.x ∧ t.flags = s.flags ∧ t.mem = s.mem ∧
      t.prog = s.prog ∧ t.progLen = s.progLen ∧ t.ctrl = s.ctrl ∧
      (s.mode ≠ .scalar → t.ip = s.ip) ∧ (s.mode = .decodeOnly → t.out = []) ∧
      (s.mode ≠ .decodeOnly → t.out = s.out ∧ t.dpos = s.dpos) ∧
      (s.mode = .vector → t.pstack = [] ∧
        (∀ l : Lane, s.takesPart l → t.lanes[l] = { s.lanes[l] with took := false, done := false, ipFinal := 0 }) ∧
        ∀ l : Lane, ¬ s.takesPart l → t.lanes[l] = s.lanes[l]) ∧
      (s.mode ≠ .vector → t.lanes = s.lanes ∧ t.vip = s.vip ∧ t.pstack = s.pstack))

/-- Derived from 70_reset_and_hazards.md R305: outside RUNNING, LOAD of at most 65535 bytes puts them at M[0 .. L − 1]
and in the program copy, sets PROG_LEN, and changes nothing else; fetch then reads exactly those bytes from either
source. A longer LOAD is refused. (The reply ok is the model's own, assumption 16.) -/
def Obligations.LoadPlacesProgram : Prop :=
  ∀ (s : State) (bytes : List Byte), s.runState ≠ .running → s.mem.wf →
    (65535 < bytes.length → hostMove (.load bytes) s = .refused) ∧
    (bytes.length ≤ 65535 → ∃ t, hostMove (.load bytes) s = .moved t .ok ∧
      t.progLen.toNat = bytes.length ∧ t.prog = bytes ∧
      (∀ a : Word, t.mem.read a = if a.toNat < bytes.length then bytes.getD a.toNat 0 else s.mem.read a) ∧
      FetchReads t 0 bytes ∧ t.mem.wf ∧
      t = { s with mem := t.mem, prog := t.prog, progLen := t.progLen })

/-- Derived from 10_state.md R32: while RUNNING no host operation has a move but RESET and the read of STATUS, and outside RUNNING
every operation ends in a move, or in a refusal for a LOAD that is too long. -/
def Obligations.HostMovesOnlyWhileNotRunning : Prop :=
  ∀ (op : HostOp) (s : State),
    (s.runState = .running → op ≠ .reset → op ≠ .readCsr 2 → hostMove op s = .noMove) ∧
    (s.runState = .running → hostMove (.readCsr 2) s = .moved s (.word (s.csr 2)) ∧ (s.csr 2).toNat % 4 = 1) ∧
    (s.runState ≠ .running → (∃ t r, hostMove op s = .moved t r) ∨
      (∃ bytes, op = .load bytes ∧ 65535 < bytes.length ∧ hostMove op s = .refused))

/-- Derived from 10_state.md R31: CTRL stores MODE and LANES as the host writes them and reads them back, with its upper byte 0;
writes to registers 1 to 4 change nothing; PROG_LEN, STATUS, ERR_OFFSET and ERR_BYTE read as the fields the table
gives. (The reply ok is the model's own, assumption 16.) -/
def Obligations.ControlRegistersReadBack : Prop :=
  ∀ (s : State), s.runState ≠ .running →
    (∀ v : Word, ∃ t, hostMove (.writeCsr 0 v) s = .moved t .ok ∧ t = { s with ctrl := t.ctrl } ∧
      ∃ c : Word, hostMove (.readCsr 0) t = .moved t (.word c) ∧ c.toNat = v.toNat % 256 ∧
        t.laneCount = v.toNat / 4 % 64 ∧ (t.mode = .decodeOnly ↔ v.toNat % 4 = 0) ∧
        (t.mode = .scalar ↔ v.toNat % 4 = 1) ∧ (t.mode = .vector ↔ v.toNat % 4 = 2) ∧
        (t.mode = .reserved ↔ v.toNat % 4 = 3)) ∧
    (∀ (n : Fin 5) (v : Word), n ≠ 0 → hostMove (.writeCsr n v) s = .moved s .ok) ∧
    hostMove (.readCsr 1) s = .moved s (.word s.progLen) ∧
    (∃ c : Word, hostMove (.readCsr 2) s = .moved s (.word c) ∧ c.toNat < 32 ∧
      (s.runState = .idle ↔ c.toNat % 4 = 0) ∧ (s.runState = .done ↔ c.toNat % 4 = 2) ∧
      (s.runState = .error ↔ c.toNat % 4 = 3) ∧
      (s.errKind = .none ↔ c.toNat / 4 = 0) ∧ (s.errKind = .decodeError ↔ c.toNat / 4 = 1) ∧
      (s.errKind = .unsupportedInstruction ↔ c.toNat / 4 = 2) ∧
      (s.errKind = .operandKindViolation ↔ c.toNat / 4 = 3) ∧ (s.errKind = .inputTruncated ↔ c.toNat / 4 = 4) ∧
      (s.errKind = .configError ↔ c.toNat / 4 = 5)) ∧
    hostMove (.readCsr 3) s = .moved s (.word s.errOffset) ∧
    (∃ c : Word, hostMove (.readCsr 4) s = .moved s (.word c) ∧ c.toNat = s.errByte.toNat)

/-- Derived from 70_reset_and_hazards.md R305 and 45_vector_engine.md R247: outside RUNNING, WRITE_REG and WRITE_MEM
are read back by READ_REG and READ_MEM, for the scalar state and for a lane, and change nothing else: no other register
of any target, no flag, no other part of a lane, no other byte of memory. READ_REG, READ_MEM, READ_IP, READ_LANE and
READ_OUT return the register, the byte, the scalar ip, the lane's took, done and ip_final, and OUT, and change nothing.
(The reply ok is the model's own, assumption 16.) -/
def Obligations.HostWritesAreReadBack : Prop :=
  ∀ (s : State), s.runState ≠ .running →
    (∀ (who : Target) (i : RegIdx) (v : Word), ∃ t, hostMove (.writeReg who i v) s = .moved t .ok ∧
      hostMove (.readReg who i) t = .moved t (.word v) ∧
      (∀ (who' : Target) (j : RegIdx), (who' ≠ who ∨ j ≠ i) →
        readWord (t.regsOf who') j = readWord (s.regsOf who') j) ∧
      t = { s with x := t.x, lanes := t.lanes } ∧
      ∀ l : Lane, t.lanes[l] = { s.lanes[l] with x := t.lanes[l].x }) ∧
    (s.mem.wf → ∀ (a : Word) (v : Byte), ∃ t, hostMove (.writeMem a v) s = .moved t .ok ∧
      hostMove (.readMem a) t = .moved t (.byte v) ∧ (∀ b : Word, b ≠ a → t.mem.read b = s.mem.read b) ∧
      t = { s with mem := t.mem }) ∧
    (∀ i : RegIdx, hostMove (.readReg .scalar i) s = .moved s (.word (readWord s.x i))) ∧
    (∀ (l : Lane) (i : RegIdx), hostMove (.readReg (.lane l) i) s = .moved s (.word (readWord s.lanes[l].x i))) ∧
    (∀ a : Word, hostMove (.readMem a) s = .moved s (.byte (s.mem.read a))) ∧
    hostMove .readIp s = .moved s (.word s.ip) ∧
    (∀ l : Lane, hostMove (.readLane l) s =
      .moved s (.lane s.lanes[l].took s.lanes[l].done s.lanes[l].ipFinal)) ∧
    hostMove .readOut s = .moved s (.records s.out)
end

