-- ==== Sys2Proof/Laws/Memory.lean ====
section
/-! SUPPORT. The laws of memory: a read after a write, and that every memory operation keeps the canonical form. -/

namespace Sys2Proof.Machine

/-! ### One cell -/

theorem mem_consCell {a : Nat} {v : Byte} {m : Memory} {c : Host.Cell} (h : c ∈ consCell a v m) :
    (c = (a, v) ∧ v ≠ unlistedByte) ∨ c ∈ m := by
  unfold consCell at h
  split at h
  · exact .inr h
  · rcases List.mem_cons.1 h with h | h
    · exact .inl ⟨h, ‹_›⟩
    · exact .inr h

/-- Every cell of a written memory is the new one or an old one. -/
theorem Memory.mem_writeKey {m : Memory} {a : Nat} {v : Byte} {c : Host.Cell} (h : c ∈ m.writeKey a v) :
    (c = (a, v) ∧ v ≠ unlistedByte) ∨ c ∈ m := by
  induction m with
  | nil => exact mem_consCell h
  | cons d rest ih =>
    obtain ⟨k, u⟩ := d
    simp only [writeKey] at h
    split at h
    · exact mem_consCell h
    · split at h
      · rcases mem_consCell h with h | h
        · exact .inl h
        · exact .inr (List.mem_cons_of_mem _ h)
      · rcases List.mem_cons.1 h with h | h
        · exact .inr (h ▸ List.mem_cons_self)
        · rcases ih h with h | h
          · exact .inl h
          · exact .inr (List.mem_cons_of_mem _ h)

/-- A key below every listed one reads as unlisted. -/
theorem Memory.readKey_of_below {m : Memory} {a : Nat} (h : ∀ c ∈ m, a < c.1) : m.readKey a = unlistedByte := by
  induction m with
  | nil => rfl
  | cons d rest ih =>
    obtain ⟨k, u⟩ := d
    have hk : a < k := h (k, u) List.mem_cons_self
    simp only [readKey, if_neg (Nat.ne_of_gt hk)]
    exact ih fun c hc => h c (List.mem_cons_of_mem _ hc)

theorem readKey_consCell {a k : Nat} {v : Byte} {m : Memory} (h : ∀ c ∈ m, a < c.1) :
    (consCell a v m).readKey k = if k = a then v else m.readKey k := by
  unfold consCell
  split
  · next hv =>
    split
    · next hk => rw [hk, Memory.readKey_of_below h, hv]
    · rfl
  · next hv =>
    simp only [Memory.readKey, eq_comm]

/-- Read after write, by key. -/
theorem Memory.readKey_writeKey {m : Memory} (hs : m.Pairwise (fun c d => c.1 < d.1)) (a : Nat) (v : Byte) (k : Nat) :
    (m.writeKey a v).readKey k = if k = a then v else m.readKey k := by
  induction m with
  | nil => exact readKey_consCell (by simp)
  | cons d rest ih =>
    obtain ⟨q, u⟩ := d
    obtain ⟨hq, hs⟩ := List.pairwise_cons.1 hs
    simp only [writeKey]
    split
    · next h =>
      refine readKey_consCell fun c hc => ?_
      rcases List.mem_cons.1 hc with rfl | hc
      · exact h
      · exact Nat.lt_trans h (hq c hc)
    · split
      · next h =>
        subst h
        rw [readKey_consCell hq]
        by_cases hk : k = a
        · simp [hk]
        · simp [readKey, hk, Ne.symm hk]
      · next h1 h2 =>
        simp only [readKey, ih hs]
        by_cases hk : q = k
        · subst hk
          simp [Ne.symm h2]
        · simp [hk]

theorem pairwise_consCell {a : Nat} {v : Byte} {m : Memory} (hs : m.Pairwise (fun c d => c.1 < d.1))
    (h : ∀ c ∈ m, a < c.1) : (consCell a v m).Pairwise (fun c d => c.1 < d.1) := by
  unfold consCell
  split
  · exact hs
  · exact List.pairwise_cons.2 ⟨h, hs⟩

/-- A write keeps the canonical form. -/
theorem Memory.wf_writeKey {m : Memory} (h : m.wf) {a : Nat} (ha : a < memSize) (v : Byte) : (m.writeKey a v).wf := by
  refine ⟨?_, fun c hc => ?_⟩
  · obtain ⟨hs, -⟩ := h
    induction m with
    | nil => exact pairwise_consCell hs (by simp)
    | cons d rest ih =>
      obtain ⟨q, u⟩ := d
      obtain ⟨hq, hr⟩ := List.pairwise_cons.1 hs
      simp only [writeKey]
      split
      · next hlt =>
        refine pairwise_consCell hs fun c hc => ?_
        rcases List.mem_cons.1 hc with rfl | hc
        · exact hlt
        · exact Nat.lt_trans hlt (hq c hc)
      · split
        · next heq => exact pairwise_consCell hr fun c hc => heq ▸ hq c hc
        · next h1 h2 =>
          refine List.pairwise_cons.2 ⟨fun c hc => ?_, ih hr⟩
          rcases mem_writeKey hc with ⟨rfl, -⟩ | hc
          · exact Nat.lt_of_le_of_ne (Nat.le_of_not_lt h1) (Ne.symm h2)
          · exact hq c hc
  · rcases mem_writeKey hc with ⟨rfl, hv⟩ | hc
    · exact ⟨ha, hv⟩
    · exact h.2 c hc

/-! ### Bytes and words at addresses -/

/-- Read after write of one byte (R61, R62). -/
theorem Memory.read_write {m : Memory} (h : m.wf) (a b : Word) (v : Byte) :
    (m.write a v).read b = if b = a then v else m.read b := by
  unfold read write
  rw [readKey_writeKey h.1]
  by_cases hb : b = a
  · simp [hb]
  · have : b.toNat ≠ a.toNat := fun e => hb (BitVec.eq_of_toNat_eq e)
    simp [hb, this]

theorem Memory.wf_write {m : Memory} (h : m.wf) (a : Word) (v : Byte) : (m.write a v).wf :=
  wf_writeKey h a.isLt v

theorem memWrite_wf {m : Memory} (h : m.wf) (a : Word) (w : Width) (v : BitVec w.bits) : (memWrite m a w v).wf := by
  cases w
  · exact Memory.wf_write h a v
  · exact Memory.wf_write (Memory.wf_write h a _) _ _

@[simp] theorem memRead_byte (m : Memory) (a : Word) : memRead m a .byte = m.read a := rfl
@[simp] theorem memRead_word (m : Memory) (a : Word) : memRead m a .word = joinBytes (m.read a) (m.read (a + 1)) := rfl
@[simp] theorem memWrite_byte (m : Memory) (a : Word) (v : Byte) : memWrite m a .byte v = m.write a v := rfl
@[simp] theorem memWrite_word (m : Memory) (a : Word) (v : Word) :
    memWrite m a .word v = (m.write a (loByte v)).write (a + 1) (hiByte v) := rfl

@[simp] theorem loByte_joinBytes (lo hi : Byte) : loByte (joinBytes lo hi) = lo := by
  unfold loByte joinBytes
  exact BitVec.extractLsb'_append_eq_right

@[simp] theorem hiByte_joinBytes (lo hi : Byte) : hiByte (joinBytes lo hi) = hi := by
  unfold hiByte joinBytes
  exact BitVec.extractLsb'_append_eq_left

@[simp] theorem joinBytes_parts (v : Word) : joinBytes (loByte v) (hiByte v) = v := by
  unfold loByte hiByte joinBytes
  rw [show (v.extractLsb' 8 8 ++ v.extractLsb' 0 8 : BitVec (8 + 8)) = v.extractLsb' 0 (8 + 8) from
    (BitVec.extractLsb'_append_extractLsb'_eq_extractLsb' rfl)]
  exact BitVec.extractLsb'_eq_self

theorem word_add_one_ne (a : Word) : a + 1 ≠ a := by
  intro h
  have := congrArg BitVec.toNat h
  simp only [BitVec.toNat_add] at this
  have ha := a.isLt
  have h1 : (1 : Word).toNat = 1 := rfl
  omega

/-- A value read back from where it was stored (R61, R62, R63). -/
theorem memRead_memWrite {m : Memory} (h : m.wf) (a : Word) (w : Width) (v : BitVec w.bits) :
    memRead (memWrite m a w v) a w = v := by
  cases w
  · simp [Memory.read_write h]
  · simp [Memory.read_write (Memory.wf_write h _ _), Memory.read_write h, show a ≠ a + 1#16 from (word_add_one_ne a).symm]

/-- A store leaves every byte outside the stored ones alone (R69). -/
theorem read_memWrite_of_outside {m : Memory} (h : m.wf) {a b : Word} (w : Width) (v : BitVec w.bits)
    (hb : ∀ k < w.bytes, b ≠ a + BitVec.ofNat 16 k) : (memWrite m a w v).read b = m.read b := by
  have h0 : b ≠ a := by simpa using hb 0 (by cases w <;> decide)
  cases w
  · simp [Memory.read_write h, h0]
  · have h1 : b ≠ a + 1#16 := hb 1 (by decide)
    simp [Memory.read_write (Memory.wf_write h _ _), Memory.read_write h, h0, h1]

/-- Storing a list of bytes that fits keeps the canonical form. -/
theorem storeBytes_wf {bs : List Byte} {m : Memory} (h : m.wf) {a : Nat} (ha : a + bs.length ≤ memSize) :
    (storeBytes m a bs).wf := by
  induction bs generalizing m a with
  | nil => exact h
  | cons b rest ih =>
    simp only [List.length_cons] at ha
    exact ih (Memory.wf_writeKey h (by omega) b) (by omega)

/-- What a stored list of bytes reads as. -/
theorem readKey_storeBytes {bs : List Byte} {m : Memory} (h : m.wf) {a : Nat} (ha : a + bs.length ≤ memSize) (k : Nat) :
    (storeBytes m a bs).readKey k = if a ≤ k ∧ k < a + bs.length then bs.getD (k - a) 0 else m.readKey k := by
  induction bs generalizing m a with
  | nil =>
    have : ¬ (a ≤ k ∧ k < a + ([] : List Byte).length) := by simp
    rw [storeBytes, if_neg this]
  | cons b rest ih =>
    simp only [List.length_cons] at ha
    have hw := Memory.wf_writeKey h (show a < memSize by omega) b
    simp only [storeBytes, ih hw (show a + 1 + rest.length ≤ memSize by omega), Memory.readKey_writeKey h.1,
      List.length_cons]
    by_cases h1 : k = a
    · subst h1
      simp
    · by_cases h2 : a + 1 ≤ k ∧ k < a + 1 + rest.length
      · have h3 : a ≤ k ∧ k < a + (rest.length + 1) := by omega
        rw [if_pos h2, if_pos h3, show k - a = (k - (a + 1)) + 1 by omega]
        simp
      · have h3 : ¬ (a ≤ k ∧ k < a + (rest.length + 1)) := by omega
        rw [if_neg h2, if_neg h3, if_neg h1]

/-- Canonical memories that read the same are equal. -/
theorem Memory.ext_of_readKey {m n : Memory} (hm : m.wf) (hn : n.wf) (h : ∀ k, m.readKey k = n.readKey k) : m = n := by
  induction m generalizing n with
  | nil =>
    cases n with
    | nil => rfl
    | cons d _ =>
      obtain ⟨k, u⟩ := d
      exact absurd (h k).symm (by simpa [readKey] using (hn.2 (k, u) List.mem_cons_self).2)
  | cons c rest ih =>
    obtain ⟨k, u⟩ := c
    have hu := (hm.2 (k, u) List.mem_cons_self).2
    obtain ⟨hk, hr⟩ := List.pairwise_cons.1 hm.1
    cases n with
    | nil => exact absurd (h k) (by simpa [readKey] using hu)
    | cons d rest' =>
      obtain ⟨q, t⟩ := d
      have ht := (hn.2 (q, t) List.mem_cons_self).2
      obtain ⟨hq, hr'⟩ := List.pairwise_cons.1 hn.1
      have hkq : k = q := by
        rcases Nat.lt_trichotomy k q with hlt | heq | hlt
        · have e := h k
          rw [readKey_of_below (m := (q, t) :: rest') fun c hc => by
            rcases List.mem_cons.1 hc with rfl | hc
            · exact hlt
            · exact Nat.lt_trans hlt (hq c hc)] at e
          exact absurd e (by simpa [readKey] using hu)
        · exact heq
        · have e := h q
          rw [readKey_of_below (m := (k, u) :: rest) fun c hc => by
            rcases List.mem_cons.1 hc with rfl | hc
            · exact hlt
            · exact Nat.lt_trans hlt (hk c hc)] at e
          exact absurd e.symm (by simpa [readKey] using ht)
      subst hkq
      have hut : u = t := by simpa [readKey] using h k
      subst hut
      congr 1
      refine ih ⟨hr, fun c hc => hm.2 c (List.mem_cons_of_mem _ hc)⟩
        ⟨hr', fun c hc => hn.2 c (List.mem_cons_of_mem _ hc)⟩ fun j => ?_
      by_cases hj : k = j
      · subst hj
        rw [readKey_of_below hk, readKey_of_below hq]
      · simpa [readKey, hj] using h j

end Sys2Proof.Machine
end

