-- ==== Sys2Proof/Laws/PerInstr.lean ====
section
/-! SUPPORT. What holds of every instruction as a term, one lemma for each constructor: its encoding has as many bytes
as its length says, and no fewer than 2 and no more than 6 (30_encoding.md R90, R101). -/

namespace Sys2Proof.Laws.EncodeLength

/-- The encoding of an instruction has its length, which lies between 2 and 6 bytes. -/
def Statement (i : Instr) : Prop := (encode i).length = i.len ∧ 2 ≤ i.len ∧ i.len ≤ maxInsn

theorem dispBytes_length (rm : RmOperand) : rm.dispBytes.length = rm.dispLen := by cases rm <;> rfl

theorem dispLen_le (rm : RmOperand) : rm.dispLen ≤ 2 := by cases rm <;> simp [RmOperand.dispLen]

theorem encode_length (rm : RmOperand) (r : Fin 8) : (rm.encode r).length = 1 + rm.dispLen := by
  simp [RmOperand.encode, dispBytes_length, Nat.add_comm]

theorem immBytes_length (w : Width) (v : BitVec w.bits) : (immBytes w v).length = w.bytes := by cases w <;> rfl

theorem bytes_bounds (w : Width) : 1 ≤ w.bytes ∧ w.bytes ≤ 2 := by cases w <;> decide

theorem groupBytes_length (g : GroupImm) : g.bytes.length = g.len := by cases g <;> rfl

theorem groupLen_bounds (g : GroupImm) : 1 ≤ g.len ∧ g.len ≤ 2 := by cases g <;> simp [GroupImm.len]

theorem movRmReg (d : Bool) (w : Width) (rm : RmOperand) (r : RegIdx) : Statement (.movRmReg d w rm r) := by
  have := dispLen_le rm
  simp only [Statement, maxInsn, encode, Instr.tailBytes, Instr.len, List.length_cons, encode_length]
  omega

theorem movRmImm (w : Width) (rm : RmOperand) (imm : BitVec w.bits) : Statement (.movRmImm w rm imm) := by
  have := dispLen_le rm
  have := bytes_bounds w
  simp only [Statement, maxInsn, encode, Instr.tailBytes, Instr.len, List.length_cons, List.length_append, encode_length,
    immBytes_length]
  omega

theorem movRegImm (w : Width) (r : RegIdx) (imm : BitVec w.bits) : Statement (.movRegImm w r imm) := by
  have := bytes_bounds w
  simp only [Statement, maxInsn, encode, Instr.tailBytes, Instr.len, List.length_cons, immBytes_length]
  omega

theorem movAccMem (w : Width) (addr : Word) : Statement (.movAccMem w addr) := by
  exact ⟨rfl, Nat.le_of_ble_eq_true rfl, Nat.le_of_ble_eq_true rfl⟩

theorem movMemAcc (w : Width) (addr : Word) : Statement (.movMemAcc w addr) := by
  exact ⟨rfl, Nat.le_of_ble_eq_true rfl, Nat.le_of_ble_eq_true rfl⟩

theorem addRmReg (d : Bool) (w : Width) (rm : RmOperand) (r : RegIdx) : Statement (.addRmReg d w rm r) := by
  have := dispLen_le rm
  simp only [Statement, maxInsn, encode, Instr.tailBytes, Instr.len, List.length_cons, encode_length]
  omega

theorem addRmImm (rm : RmOperand) (g : GroupImm) : Statement (.addRmImm rm g) := by
  have := dispLen_le rm
  have := groupLen_bounds g
  simp only [Statement, maxInsn, encode, Instr.tailBytes, Instr.len, List.length_cons, List.length_append, encode_length,
    groupBytes_length]
  omega

theorem addAccImm (w : Width) (imm : BitVec w.bits) : Statement (.addAccImm w imm) := by
  have := bytes_bounds w
  simp only [Statement, maxInsn, encode, Instr.tailBytes, Instr.len, List.length_cons, immBytes_length]
  omega

theorem subRmReg (d : Bool) (w : Width) (rm : RmOperand) (r : RegIdx) : Statement (.subRmReg d w rm r) := by
  have := dispLen_le rm
  simp only [Statement, maxInsn, encode, Instr.tailBytes, Instr.len, List.length_cons, encode_length]
  omega

theorem subRmImm (rm : RmOperand) (g : GroupImm) : Statement (.subRmImm rm g) := by
  have := dispLen_le rm
  have := groupLen_bounds g
  simp only [Statement, maxInsn, encode, Instr.tailBytes, Instr.len, List.length_cons, List.length_append, encode_length,
    groupBytes_length]
  omega

theorem subAccImm (w : Width) (imm : BitVec w.bits) : Statement (.subAccImm w imm) := by
  have := bytes_bounds w
  simp only [Statement, maxInsn, encode, Instr.tailBytes, Instr.len, List.length_cons, immBytes_length]
  omega

theorem cmpRmReg (d : Bool) (w : Width) (rm : RmOperand) (r : RegIdx) : Statement (.cmpRmReg d w rm r) := by
  have := dispLen_le rm
  simp only [Statement, maxInsn, encode, Instr.tailBytes, Instr.len, List.length_cons, encode_length]
  omega

theorem cmpRmImm (rm : RmOperand) (g : GroupImm) : Statement (.cmpRmImm rm g) := by
  have := dispLen_le rm
  have := groupLen_bounds g
  simp only [Statement, maxInsn, encode, Instr.tailBytes, Instr.len, List.length_cons, List.length_append, encode_length,
    groupBytes_length]
  omega

theorem cmpAccImm (w : Width) (imm : BitVec w.bits) : Statement (.cmpAccImm w imm) := by
  have := bytes_bounds w
  simp only [Statement, maxInsn, encode, Instr.tailBytes, Instr.len, List.length_cons, immBytes_length]
  omega

theorem jo (rel : Byte) : Statement (.jo rel) := by
  exact ⟨rfl, Nat.le_of_ble_eq_true rfl, Nat.le_of_ble_eq_true rfl⟩

theorem jno (rel : Byte) : Statement (.jno rel) := by
  exact ⟨rfl, Nat.le_of_ble_eq_true rfl, Nat.le_of_ble_eq_true rfl⟩

theorem jb (rel : Byte) : Statement (.jb rel) := by
  exact ⟨rfl, Nat.le_of_ble_eq_true rfl, Nat.le_of_ble_eq_true rfl⟩

theorem jnb (rel : Byte) : Statement (.jnb rel) := by
  exact ⟨rfl, Nat.le_of_ble_eq_true rfl, Nat.le_of_ble_eq_true rfl⟩

theorem je (rel : Byte) : Statement (.je rel) := by
  exact ⟨rfl, Nat.le_of_ble_eq_true rfl, Nat.le_of_ble_eq_true rfl⟩

theorem jne (rel : Byte) : Statement (.jne rel) := by
  exact ⟨rfl, Nat.le_of_ble_eq_true rfl, Nat.le_of_ble_eq_true rfl⟩

theorem jbe (rel : Byte) : Statement (.jbe rel) := by
  exact ⟨rfl, Nat.le_of_ble_eq_true rfl, Nat.le_of_ble_eq_true rfl⟩

theorem ja (rel : Byte) : Statement (.ja rel) := by
  exact ⟨rfl, Nat.le_of_ble_eq_true rfl, Nat.le_of_ble_eq_true rfl⟩

theorem js (rel : Byte) : Statement (.js rel) := by
  exact ⟨rfl, Nat.le_of_ble_eq_true rfl, Nat.le_of_ble_eq_true rfl⟩

theorem jns (rel : Byte) : Statement (.jns rel) := by
  exact ⟨rfl, Nat.le_of_ble_eq_true rfl, Nat.le_of_ble_eq_true rfl⟩

theorem jp (rel : Byte) : Statement (.jp rel) := by
  exact ⟨rfl, Nat.le_of_ble_eq_true rfl, Nat.le_of_ble_eq_true rfl⟩

theorem jnp (rel : Byte) : Statement (.jnp rel) := by
  exact ⟨rfl, Nat.le_of_ble_eq_true rfl, Nat.le_of_ble_eq_true rfl⟩

theorem jl (rel : Byte) : Statement (.jl rel) := by
  exact ⟨rfl, Nat.le_of_ble_eq_true rfl, Nat.le_of_ble_eq_true rfl⟩

theorem jnl (rel : Byte) : Statement (.jnl rel) := by
  exact ⟨rfl, Nat.le_of_ble_eq_true rfl, Nat.le_of_ble_eq_true rfl⟩

theorem jle (rel : Byte) : Statement (.jle rel) := by
  exact ⟨rfl, Nat.le_of_ble_eq_true rfl, Nat.le_of_ble_eq_true rfl⟩

theorem jg (rel : Byte) : Statement (.jg rel) := by
  exact ⟨rfl, Nat.le_of_ble_eq_true rfl, Nat.le_of_ble_eq_true rfl⟩

theorem loopnz (rel : Byte) : Statement (.loopnz rel) := by
  exact ⟨rfl, Nat.le_of_ble_eq_true rfl, Nat.le_of_ble_eq_true rfl⟩

theorem loopz (rel : Byte) : Statement (.loopz rel) := by
  exact ⟨rfl, Nat.le_of_ble_eq_true rfl, Nat.le_of_ble_eq_true rfl⟩

theorem loop (rel : Byte) : Statement (.loop rel) := by
  exact ⟨rfl, Nat.le_of_ble_eq_true rfl, Nat.le_of_ble_eq_true rfl⟩

theorem jcxz (rel : Byte) : Statement (.jcxz rel) := by
  exact ⟨rfl, Nat.le_of_ble_eq_true rfl, Nat.le_of_ble_eq_true rfl⟩

end Sys2Proof.Laws.EncodeLength
end

