-- ==== Sys2Proof/Laws/Decode.lean ====
section
/-! SUPPORT. The laws of the decoder's parts and of instruction fetch: each part of an encoding is read back as it was
written, what a part reads is what stands there, and fetch delivers the bytes up to the program's end. -/

namespace Sys2Proof

/-! ### The ModRM byte -/

@[simp] theorem modField_modRmByte (m : Fin 4) (r k : Fin 8) : modField (modRmByte m r k) = m := by
  revert m r k
  decide

@[simp] theorem regField_modRmByte (m : Fin 4) (r k : Fin 8) : regField (modRmByte m r k) = r := by
  revert m r k
  decide

@[simp] theorem rmField_modRmByte (m : Fin 4) (r k : Fin 8) : rmField (modRmByte m r k) = k := by
  revert m r k
  decide

/-- The three fields are the whole byte (R82). -/
theorem modRmByte_fields (b1 : Byte) : modRmByte (modField b1) (regField b1) (rmField b1) = b1 := by
  revert b1
  decide

@[simp] theorem eaTerms_code (t : EaTerms) : eaTerms t.code = t := by cases t <;> rfl

@[simp] theorem code_eaTerms (k : Fin 8) : (eaTerms k).code = k := by
  revert k
  decide

/-! ### A part read back -/

/-- The r/m operand (R84 to R87). -/
theorem readRm_encode {rm : RmOperand} (h : rm.wf = true) (rest : List Byte) :
    readRm rm.modCode rm.rmCode (rm.dispBytes ++ rest) = some (rm, rest) := by
  cases rm with
  | reg r => rfl
  | direct a => simp [readRm, RmOperand.modCode, RmOperand.rmCode, RmOperand.dispBytes, wordBytes]
  | noDisp t => cases t <;> first | rfl | cases h
  | disp8 t d => simp [readRm, RmOperand.modCode, RmOperand.rmCode, RmOperand.dispBytes]
  | disp16 t d => simp [readRm, RmOperand.modCode, RmOperand.rmCode, RmOperand.dispBytes, wordBytes]

/-- An immediate (R88). -/
theorem readImm_encode (w : Width) (v : BitVec w.bits) (rest : List Byte) :
    readImm w (immBytes w v ++ rest) = some (v, rest) := by
  cases w
  · rfl
  · simp [immBytes, readImm, wordBytes]

/-- The immediate of the 80-83 group (R88, R107). -/
theorem readGroupImm_encode (g : GroupImm) (rest : List Byte) :
    readGroupImm g.opcode (g.bytes ++ rest) = some (g, rest) := by
  have h0 : dirField 0x80 = false ∧ widthField 0x80 = .byte := by decide
  have h1 : dirField 0x81 = false ∧ widthField 0x81 = .word := by decide
  have h2 : dirField 0x82 = true ∧ widthField 0x82 = .byte := by decide
  have h3 : dirField 0x83 = true ∧ widthField 0x83 = .word := by decide
  cases g <;>
    simp only [readGroupImm, GroupImm.opcode, GroupImm.bytes, wordBytes, List.cons_append, List.nil_append,
      h0, h1, h2, h3, Machine.joinBytes_parts]

/-! ### What a part reads -/

/-- The bytes of an r/m operand that was read (R84 to R87); it is well formed. -/
theorem readRm_eq_some {mod : Fin 4} {rm : Fin 8} {rest r : List Byte} {op : RmOperand}
    (h : readRm mod rm rest = some (op, r)) :
    op.wf = true ∧ op.modCode = mod ∧ op.rmCode = rm ∧ op.dispBytes ++ r = rest := by
  unfold readRm at h
  split at h
  · cases h
    exact ⟨rfl, rfl, rfl, rfl⟩
  · split at h
    · next hrm =>
      split at h <;> cases h
      exact ⟨rfl, rfl, hrm.symm, by simp [RmOperand.dispBytes, wordBytes]⟩
    · next hrm =>
      cases h
      refine ⟨?_, rfl, code_eaTerms _, rfl⟩
      revert rm
      decide
  · split at h <;> cases h
    exact ⟨rfl, rfl, code_eaTerms _, rfl⟩
  · split at h <;> cases h
    exact ⟨rfl, rfl, code_eaTerms _, by simp [RmOperand.dispBytes, wordBytes]⟩

/-- The bytes of an immediate that was read (R88). -/
theorem readImm_eq_some {w : Width} {rest r : List Byte} {v : BitVec w.bits} (h : readImm w rest = some (v, r)) :
    immBytes w v ++ r = rest := by
  unfold readImm at h
  split at h <;> cases h
  · rfl
  · simp [immBytes, wordBytes]

theorem readByte_eq_some {rest r : List Byte} {b : Byte} (h : readByte rest = some (b, r)) : rest = b :: r := by
  unfold readByte at h
  split at h <;> cases h
  rfl

/-- The bytes of a group immediate that was read, and its opcode (R88, R107). -/
theorem readGroupImm_eq_some {b0 : Byte} {rest r : List Byte} {g : GroupImm} (hk : opKind b0 = some .group)
    (h : readGroupImm b0 rest = some (g, r)) : g.opcode = b0 ∧ g.bytes ++ r = rest := by
  have key : ∀ b : Byte, opKind b = some .group → b = (if dirField b then 2 else 0) + (widthField b).bit + 0x80 := by
    decide
  have hb := key b0 hk
  unfold readGroupImm at h
  split at h <;> (try cases h) <;> rename_i e1 e2 <;> rw [e1, e2] at hb <;>
    exact ⟨hb.symm, by simp [GroupImm.bytes, wordBytes]⟩

/-- A part that was there (R98). -/
theorem orTruncated_eq_ok {b0 : Byte} {α : Type} {part : Option (α × List Byte)} {k : α → List Byte → DecodeResult}
    {x : Instr × List Byte} (h : orTruncated b0 part k = .ok x) : ∃ a r, part = some (a, r) ∧ k a r = .ok x := by
  unfold orTruncated at h
  split at h
  · exact ⟨_, _, rfl, h⟩
  · cases h

/-- A part that was missing, or a failure after it (R98). -/
theorem orTruncated_eq_error {b0 : Byte} {α : Type} {part : Option (α × List Byte)} {k : α → List Byte → DecodeResult}
    {e : DecodeFail} (h : orTruncated b0 part k = .error e) :
    e = .truncated b0 ∨ ∃ a r, part = some (a, r) ∧ k a r = .error e := by
  unfold orTruncated at h
  split at h
  · exact .inr ⟨_, _, rfl, h⟩
  · cases h
    exact .inl rfl

namespace Machine

/-! ### Fetch -/

theorem fetchFrom_cons {s : State} {a : Nat} (k : Nat) (h : a < s.progLen.toNat) :
    s.fetchFrom a (k + 1) = s.fetchByte a :: s.fetchFrom (a + 1) k := by
  simp [State.fetchFrom, h]

theorem fetchFrom_past {s : State} {a : Nat} (k : Nat) (h : s.progLen.toNat ≤ a) : s.fetchFrom a k = [] := by
  cases k with
  | zero => rfl
  | succ k => simp [State.fetchFrom, Nat.not_lt.2 h]

/-- Fetch never delivers a byte at or past L (R68). -/
theorem fetchFrom_length (s : State) (a k : Nat) : (s.fetchFrom a k).length ≤ s.progLen.toNat - a := by
  induction k generalizing a with
  | zero => simp [State.fetchFrom]
  | succ k ih =>
    by_cases h : a < s.progLen.toNat
    · have := ih (a + 1)
      rw [fetchFrom_cons k h, List.length_cons]
      omega
    · simp [State.fetchFrom, h]

/-- Fetch of bytes that end inside the program delivers them first. -/
theorem fetchFrom_of_inside {s : State} {bs : List Byte} {a k : Nat} (hk : bs.length ≤ k)
    (hl : a + bs.length ≤ s.progLen.toNat) (hr : ∀ j, j < bs.length → s.fetchByte (a + j) = bs.getD j 0) :
    ∃ r, s.fetchFrom a k = bs ++ r := by
  induction bs generalizing a k with
  | nil => exact ⟨_, rfl⟩
  | cons b bs ih =>
    simp only [List.length_cons] at *
    obtain ⟨k, rfl⟩ : ∃ m, k = m + 1 := ⟨k - 1, by omega⟩
    have h0 : s.fetchByte a = b := by simpa using hr 0 (by omega)
    obtain ⟨r, h⟩ := ih (a := a + 1) (k := k) (by omega) (by omega) fun j hj => by
      simpa [Nat.add_assoc, Nat.add_comm 1 j] using hr (j + 1) (by omega)
    exact ⟨r, by rw [fetchFrom_cons k (by omega), h0, h]; rfl⟩

/-- Fetch of bytes that end where the program ends delivers exactly them (R68). -/
theorem fetchFrom_to_end {s : State} {bs : List Byte} {a k : Nat} (hk : bs.length < k)
    (hl : a + bs.length = s.progLen.toNat) (hr : ∀ j, j < bs.length → s.fetchByte (a + j) = bs.getD j 0) :
    s.fetchFrom a k = bs := by
  obtain ⟨r, h⟩ := fetchFrom_of_inside (Nat.le_of_lt hk) (Nat.le_of_eq hl) hr
  have hn := fetchFrom_length s a k
  rw [h, List.length_append] at hn
  have : r = [] := List.eq_nil_of_length_eq_zero (by omega)
  rw [h, this, List.append_nil]

/-- What decodes at an offset depends on the program's length and on what fetch reads, and on nothing else. -/
theorem decodeAt_congr {s t : State} (hl : s.progLen = t.progLen) (hf : ∀ a, s.fetchByte a = t.fetchByte a)
    (off : Word) : s.decodeAt off = t.decodeAt off := by
  have key : ∀ k a, s.fetchFrom a k = t.fetchFrom a k := by
    intro k
    induction k with
    | zero => intro _; rfl
    | succ k ih => intro a; simp only [State.fetchFrom, hl, hf, ih]
  simp only [State.decodeAt, hf, key]

end Machine

end Sys2Proof
end

