-- ==== Sys2Proof/Laws/Registers.lean ====
section
/-! SUPPORT. The laws of the register file (10_state.md R20 to R23): a byte or a word read after a write, and what a
write leaves alone. -/

namespace Sys2Proof.Machine

/-- A word register after a word write (R23): separate words share no storage. -/
@[simp] theorem readWord_writeWord (x : Regs) (i j : RegIdx) (v : Word) :
    readWord (writeWord x i v) j = if j = i then v else readWord x j := by
  unfold readWord writeWord
  by_cases h : j = i
  · subst h
    simp
  · have hv : i.val ≠ j.val := fun e => h (Fin.ext e.symm)
    simp only [h, if_false]
    exact Vector.getElem_set_ne _ _ hv

/-- Two register files that read the same are equal. -/
theorem Regs.ext_of_readWord {x y : Regs} (h : ∀ i, readWord x i = readWord y i) : x = y :=
  Vector.ext fun i hi => h ⟨i, hi⟩

@[simp] theorem readReg_byte (x : Regs) (i : RegIdx) : readReg x i .byte = readReg8 x i := rfl
@[simp] theorem readReg_word (x : Regs) (i : RegIdx) : readReg x i .word = readWord x i := rfl
@[simp] theorem writeReg_byte (x : Regs) (i : RegIdx) (v : Byte) : writeReg x i .byte v = writeReg8 x i v := rfl
@[simp] theorem writeReg_word (x : Regs) (i : RegIdx) (v : Word) : writeReg x i .word v = writeWord x i v := rfl

theorem byteOwner_lt (i : RegIdx) : (byteOwner i).val < 4 := by
  revert i
  decide

/-- Two byte indices with one owner and one half are one index (R21). -/
theorem byteOwner_inj {i j : RegIdx} (h : byteOwner i = byteOwner j) (hh : i.val < 4 ↔ j.val < 4) : i = j := by
  revert i j
  decide

/-- The sub-register isolation law (R22): a byte write changes the byte it names and no other one. -/
theorem readReg8_writeReg8 (x : Regs) (i j : RegIdx) (v : Byte) :
    readReg8 (writeReg8 x i v) j = if j = i then v else readReg8 x j := by
  unfold readReg8 writeReg8
  simp only [readWord_writeWord]
  by_cases ho : byteOwner j = byteOwner i
  · by_cases hi : i.val < 4 <;> by_cases hj : j.val < 4
    · have : j = i := byteOwner_inj ho (by simp [hi, hj])
      subst this
      simp [hi]
    · have : j ≠ i := by rintro rfl; exact hj hi
      simp [hi, hj, ho, this]
    · have : j ≠ i := by rintro rfl; exact hi hj
      simp [hi, hj, ho, this]
    · have : j = i := byteOwner_inj ho (by simp [hi, hj])
      subst this
      simp [hi]
  · have : j ≠ i := by rintro rfl; exact ho rfl
    simp [ho, this]

/-- A byte write leaves every word register but the byte's own alone (R21). -/
theorem readWord_writeReg8 (x : Regs) (i j : RegIdx) (v : Byte) (h : j ≠ byteOwner i) :
    readWord (writeReg8 x i v) j = readWord x j := by
  simp [writeReg8, h]

/-- A register read back after it was written. -/
@[simp] theorem readReg_writeReg (x : Regs) (i : RegIdx) (w : Width) (v : BitVec w.bits) :
    readReg (writeReg x i w v) i w = v := by
  cases w
  · simp [readReg8_writeReg8]
  · simp

/-- Writing a register does not change what any other register of the same width reads as. -/
theorem readReg_writeReg_of_ne (x : Regs) (w : Width) {i j : RegIdx} (h : j ≠ i) (v : BitVec w.bits) :
    readReg (writeReg x i w v) j w = readReg x j w := by
  cases w
  · simp [readReg8_writeReg8, h]
  · simp [h]

/-- CX after the decrement (R218). -/
@[simp] theorem decCx_cx (x : Regs) : readWord (decCx x) cxIdx = readWord x cxIdx - 1 := by
  simp [decCx]

/-- The decrement changes no other register. -/
theorem decCx_of_ne (x : Regs) {j : RegIdx} (h : j ≠ cxIdx) : readWord (decCx x) j = readWord x j := by
  simp [decCx, h]

/-! ### Operands -/

section Operands

variable {w : Width} (p : Datapath)

@[simp] theorem readOp_reg (i : RegIdx) : readOp p (.reg i : Operand w) = readReg p.x i w := rfl
@[simp] theorem readOp_imm (v : BitVec w.bits) : readOp p (.imm v : Operand w) = v := rfl
@[simp] theorem readOp_mem (m : MemOperand) :
    readOp p (.mem m : Operand w) = memRead p.mem (effectiveAddress p.x m) w := rfl
@[simp] theorem writeOp_reg (i : RegIdx) (v : BitVec w.bits) :
    writeOp p (.reg i) v = some { p with x := writeReg p.x i w v } := rfl
@[simp] theorem writeOp_mem (m : MemOperand) (v : BitVec w.bits) :
    writeOp p (.mem m) v = some { p with mem := memWrite p.mem (effectiveAddress p.x m) w v } := rfl
@[simp] theorem writeOp_imm (v u : BitVec w.bits) : writeOp p (.imm u) v = none := rfl

/-- A direct address is its own EA (R65, R86). -/
@[simp] theorem effectiveAddress_direct (x : Regs) (a : Word) : effectiveAddress x (directMem a) = a := by
  simp [effectiveAddress, directMem]

@[simp] theorem isMem_reg (i : RegIdx) : (Operand.reg i : Operand w).isMem = false := rfl
@[simp] theorem isMem_imm (v : BitVec w.bits) : (Operand.imm v : Operand w).isMem = false := rfl
@[simp] theorem isMem_mem (m : MemOperand) : (Operand.mem m : Operand w).isMem = true := rfl

/-- The r/m operand is a memory operand unless it is a register (R84). -/
theorem rmOperand_isMem (rm : RmOperand) : (rm.operand w).isMem = false ↔ ∃ r, rm = .reg r := by
  cases rm <;> simp [RmOperand.operand]

/-- The r/m operand is never an immediate (R84). -/
theorem rmOperand_ne_imm (rm : RmOperand) (v : BitVec w.bits) : rm.operand w ≠ .imm v := by
  cases rm <;> simp [RmOperand.operand]

/-- A reg/mem-with-reg form never has an immediate destination (R89). -/
theorem rmRegDst_ne_imm (d : Bool) (rm : RmOperand) (r : RegIdx) (v : BitVec w.bits) : rmRegDst d w rm r ≠ .imm v := by
  unfold rmRegDst
  split
  · simp
  · exact rmOperand_ne_imm rm v

/-- Writing fails only at an immediate (R133). -/
theorem writeOp_isSome {dst : Operand w} (h : ∀ u, dst ≠ .imm u) (v : BitVec w.bits) : (writeOp p dst v).isSome := by
  cases dst with
  | reg i => rfl
  | mem m => rfl
  | imm u => exact absurd rfl (h u)

/-- Everything a write of an operand can do: it writes one register, or stores to one place, or fails. -/
theorem writeOp_eq_some {dst : Operand w} {v : BitVec w.bits} {q : Datapath} (h : writeOp p dst v = some q) :
    (∃ i, dst = .reg i ∧ q = { p with x := writeReg p.x i w v }) ∨
    (∃ m, dst = .mem m ∧ q = { p with mem := memWrite p.mem (effectiveAddress p.x m) w v }) := by
  cases dst with
  | reg i => exact .inl ⟨i, rfl, (Option.some.inj h).symm⟩
  | mem m => exact .inr ⟨m, rfl, (Option.some.inj h).symm⟩
  | imm u => cases h

end Operands

end Sys2Proof.Machine
end

