-- ==== Sys2Proof/Laws/State.lean ====
section
/-! SUPPORT. One lemma for each field of the state under each named update of Machine/Ops.lean, so that no later proof
unfolds a record update; and the fields of the state after RESET. -/

namespace Sys2Proof.Machine

variable (s : State)

/-! ### withScalar -/

@[simp] theorem State.withScalar_cfg (p : Datapath) (a : Word) : (s.withScalar p a).cfg = s.cfg := rfl
@[simp] theorem State.withScalar_x (p : Datapath) (a : Word) : (s.withScalar p a).x = p.x := rfl
@[simp] theorem State.withScalar_ip (p : Datapath) (a : Word) : (s.withScalar p a).ip = a := rfl
@[simp] theorem State.withScalar_flags (p : Datapath) (a : Word) : (s.withScalar p a).flags = p.flags := rfl
@[simp] theorem State.withScalar_mem (p : Datapath) (a : Word) : (s.withScalar p a).mem = p.mem := rfl
@[simp] theorem State.withScalar_prog (p : Datapath) (a : Word) : (s.withScalar p a).prog = s.prog := rfl
@[simp] theorem State.withScalar_progLen (p : Datapath) (a : Word) : (s.withScalar p a).progLen = s.progLen := rfl
@[simp] theorem State.withScalar_ctrl (p : Datapath) (a : Word) : (s.withScalar p a).ctrl = s.ctrl := rfl
@[simp] theorem State.withScalar_runState (p : Datapath) (a : Word) : (s.withScalar p a).runState = s.runState := rfl
@[simp] theorem State.withScalar_errKind (p : Datapath) (a : Word) : (s.withScalar p a).errKind = s.errKind := rfl
@[simp] theorem State.withScalar_errOffset (p : Datapath) (a : Word) : (s.withScalar p a).errOffset = s.errOffset := rfl
@[simp] theorem State.withScalar_errByte (p : Datapath) (a : Word) : (s.withScalar p a).errByte = s.errByte := rfl
@[simp] theorem State.withScalar_lanes (p : Datapath) (a : Word) : (s.withScalar p a).lanes = s.lanes := rfl
@[simp] theorem State.withScalar_vip (p : Datapath) (a : Word) : (s.withScalar p a).vip = s.vip := rfl
@[simp] theorem State.withScalar_pstack (p : Datapath) (a : Word) : (s.withScalar p a).pstack = s.pstack := rfl
@[simp] theorem State.withScalar_out (p : Datapath) (a : Word) : (s.withScalar p a).out = s.out := rfl
@[simp] theorem State.withScalar_dpos (p : Datapath) (a : Word) : (s.withScalar p a).dpos = s.dpos := rfl
@[simp] theorem State.withScalar_mode (p : Datapath) (a : Word) : (s.withScalar p a).mode = s.mode := rfl
@[simp] theorem State.withScalar_laneCount (p : Datapath) (a : Word) : (s.withScalar p a).laneCount = s.laneCount := rfl

/-! ### withVector -/

@[simp] theorem State.withVector_cfg (ls : Vector LaneState maxLanes) (st : List PredEntry) (v : Word) : (s.withVector ls st v).cfg = s.cfg := rfl
@[simp] theorem State.withVector_x (ls : Vector LaneState maxLanes) (st : List PredEntry) (v : Word) : (s.withVector ls st v).x = s.x := rfl
@[simp] theorem State.withVector_ip (ls : Vector LaneState maxLanes) (st : List PredEntry) (v : Word) : (s.withVector ls st v).ip = s.ip := rfl
@[simp] theorem State.withVector_flags (ls : Vector LaneState maxLanes) (st : List PredEntry) (v : Word) : (s.withVector ls st v).flags = s.flags := rfl
@[simp] theorem State.withVector_mem (ls : Vector LaneState maxLanes) (st : List PredEntry) (v : Word) : (s.withVector ls st v).mem = s.mem := rfl
@[simp] theorem State.withVector_prog (ls : Vector LaneState maxLanes) (st : List PredEntry) (v : Word) : (s.withVector ls st v).prog = s.prog := rfl
@[simp] theorem State.withVector_progLen (ls : Vector LaneState maxLanes) (st : List PredEntry) (v : Word) : (s.withVector ls st v).progLen = s.progLen := rfl
@[simp] theorem State.withVector_ctrl (ls : Vector LaneState maxLanes) (st : List PredEntry) (v : Word) : (s.withVector ls st v).ctrl = s.ctrl := rfl
@[simp] theorem State.withVector_runState (ls : Vector LaneState maxLanes) (st : List PredEntry) (v : Word) : (s.withVector ls st v).runState = s.runState := rfl
@[simp] theorem State.withVector_errKind (ls : Vector LaneState maxLanes) (st : List PredEntry) (v : Word) : (s.withVector ls st v).errKind = s.errKind := rfl
@[simp] theorem State.withVector_errOffset (ls : Vector LaneState maxLanes) (st : List PredEntry) (v : Word) : (s.withVector ls st v).errOffset = s.errOffset := rfl
@[simp] theorem State.withVector_errByte (ls : Vector LaneState maxLanes) (st : List PredEntry) (v : Word) : (s.withVector ls st v).errByte = s.errByte := rfl
@[simp] theorem State.withVector_lanes (ls : Vector LaneState maxLanes) (st : List PredEntry) (v : Word) : (s.withVector ls st v).lanes = ls := rfl
@[simp] theorem State.withVector_vip (ls : Vector LaneState maxLanes) (st : List PredEntry) (v : Word) : (s.withVector ls st v).vip = v := rfl
@[simp] theorem State.withVector_pstack (ls : Vector LaneState maxLanes) (st : List PredEntry) (v : Word) : (s.withVector ls st v).pstack = st := rfl
@[simp] theorem State.withVector_out (ls : Vector LaneState maxLanes) (st : List PredEntry) (v : Word) : (s.withVector ls st v).out = s.out := rfl
@[simp] theorem State.withVector_dpos (ls : Vector LaneState maxLanes) (st : List PredEntry) (v : Word) : (s.withVector ls st v).dpos = s.dpos := rfl
@[simp] theorem State.withVector_mode (ls : Vector LaneState maxLanes) (st : List PredEntry) (v : Word) : (s.withVector ls st v).mode = s.mode := rfl
@[simp] theorem State.withVector_laneCount (ls : Vector LaneState maxLanes) (st : List PredEntry) (v : Word) : (s.withVector ls st v).laneCount = s.laneCount := rfl

/-! ### withSweep -/

@[simp] theorem State.withSweep_cfg (o : List (Word × Record)) (d : Word) : (s.withSweep o d).cfg = s.cfg := rfl
@[simp] theorem State.withSweep_x (o : List (Word × Record)) (d : Word) : (s.withSweep o d).x = s.x := rfl
@[simp] theorem State.withSweep_ip (o : List (Word × Record)) (d : Word) : (s.withSweep o d).ip = s.ip := rfl
@[simp] theorem State.withSweep_flags (o : List (Word × Record)) (d : Word) : (s.withSweep o d).flags = s.flags := rfl
@[simp] theorem State.withSweep_mem (o : List (Word × Record)) (d : Word) : (s.withSweep o d).mem = s.mem := rfl
@[simp] theorem State.withSweep_prog (o : List (Word × Record)) (d : Word) : (s.withSweep o d).prog = s.prog := rfl
@[simp] theorem State.withSweep_progLen (o : List (Word × Record)) (d : Word) : (s.withSweep o d).progLen = s.progLen := rfl
@[simp] theorem State.withSweep_ctrl (o : List (Word × Record)) (d : Word) : (s.withSweep o d).ctrl = s.ctrl := rfl
@[simp] theorem State.withSweep_runState (o : List (Word × Record)) (d : Word) : (s.withSweep o d).runState = s.runState := rfl
@[simp] theorem State.withSweep_errKind (o : List (Word × Record)) (d : Word) : (s.withSweep o d).errKind = s.errKind := rfl
@[simp] theorem State.withSweep_errOffset (o : List (Word × Record)) (d : Word) : (s.withSweep o d).errOffset = s.errOffset := rfl
@[simp] theorem State.withSweep_errByte (o : List (Word × Record)) (d : Word) : (s.withSweep o d).errByte = s.errByte := rfl
@[simp] theorem State.withSweep_lanes (o : List (Word × Record)) (d : Word) : (s.withSweep o d).lanes = s.lanes := rfl
@[simp] theorem State.withSweep_vip (o : List (Word × Record)) (d : Word) : (s.withSweep o d).vip = s.vip := rfl
@[simp] theorem State.withSweep_pstack (o : List (Word × Record)) (d : Word) : (s.withSweep o d).pstack = s.pstack := rfl
@[simp] theorem State.withSweep_out (o : List (Word × Record)) (d : Word) : (s.withSweep o d).out = o := rfl
@[simp] theorem State.withSweep_dpos (o : List (Word × Record)) (d : Word) : (s.withSweep o d).dpos = d := rfl
@[simp] theorem State.withSweep_mode (o : List (Word × Record)) (d : Word) : (s.withSweep o d).mode = s.mode := rfl
@[simp] theorem State.withSweep_laneCount (o : List (Word × Record)) (d : Word) : (s.withSweep o d).laneCount = s.laneCount := rfl

/-! ### finish -/

@[simp] theorem State.finish_cfg : s.finish.cfg = s.cfg := rfl
@[simp] theorem State.finish_x : s.finish.x = s.x := rfl
@[simp] theorem State.finish_ip : s.finish.ip = s.ip := rfl
@[simp] theorem State.finish_flags : s.finish.flags = s.flags := rfl
@[simp] theorem State.finish_mem : s.finish.mem = s.mem := rfl
@[simp] theorem State.finish_prog : s.finish.prog = s.prog := rfl
@[simp] theorem State.finish_progLen : s.finish.progLen = s.progLen := rfl
@[simp] theorem State.finish_ctrl : s.finish.ctrl = s.ctrl := rfl
@[simp] theorem State.finish_runState : s.finish.runState = .done := rfl
@[simp] theorem State.finish_errKind : s.finish.errKind = s.errKind := rfl
@[simp] theorem State.finish_errOffset : s.finish.errOffset = s.errOffset := rfl
@[simp] theorem State.finish_errByte : s.finish.errByte = s.errByte := rfl
@[simp] theorem State.finish_lanes : s.finish.lanes = s.lanes := rfl
@[simp] theorem State.finish_vip : s.finish.vip = s.vip := rfl
@[simp] theorem State.finish_pstack : s.finish.pstack = s.pstack := rfl
@[simp] theorem State.finish_out : s.finish.out = s.out := rfl
@[simp] theorem State.finish_dpos : s.finish.dpos = s.dpos := rfl
@[simp] theorem State.finish_mode : s.finish.mode = s.mode := rfl
@[simp] theorem State.finish_laneCount : s.finish.laneCount = s.laneCount := rfl

/-! ### raise -/

@[simp] theorem State.raise_cfg (k : ErrKind) (o : Word) (b : Byte) : (s.raise k o b).cfg = s.cfg := rfl
@[simp] theorem State.raise_x (k : ErrKind) (o : Word) (b : Byte) : (s.raise k o b).x = s.x := rfl
@[simp] theorem State.raise_ip (k : ErrKind) (o : Word) (b : Byte) : (s.raise k o b).ip = s.ip := rfl
@[simp] theorem State.raise_flags (k : ErrKind) (o : Word) (b : Byte) : (s.raise k o b).flags = s.flags := rfl
@[simp] theorem State.raise_mem (k : ErrKind) (o : Word) (b : Byte) : (s.raise k o b).mem = s.mem := rfl
@[simp] theorem State.raise_prog (k : ErrKind) (o : Word) (b : Byte) : (s.raise k o b).prog = s.prog := rfl
@[simp] theorem State.raise_progLen (k : ErrKind) (o : Word) (b : Byte) : (s.raise k o b).progLen = s.progLen := rfl
@[simp] theorem State.raise_ctrl (k : ErrKind) (o : Word) (b : Byte) : (s.raise k o b).ctrl = s.ctrl := rfl
@[simp] theorem State.raise_runState (k : ErrKind) (o : Word) (b : Byte) : (s.raise k o b).runState = .error := rfl
@[simp] theorem State.raise_errKind (k : ErrKind) (o : Word) (b : Byte) : (s.raise k o b).errKind = k := rfl
@[simp] theorem State.raise_errOffset (k : ErrKind) (o : Word) (b : Byte) : (s.raise k o b).errOffset = o := rfl
@[simp] theorem State.raise_errByte (k : ErrKind) (o : Word) (b : Byte) : (s.raise k o b).errByte = b := rfl
@[simp] theorem State.raise_lanes (k : ErrKind) (o : Word) (b : Byte) : (s.raise k o b).lanes = s.lanes := rfl
@[simp] theorem State.raise_vip (k : ErrKind) (o : Word) (b : Byte) : (s.raise k o b).vip = s.vip := rfl
@[simp] theorem State.raise_pstack (k : ErrKind) (o : Word) (b : Byte) : (s.raise k o b).pstack = s.pstack := rfl
@[simp] theorem State.raise_out (k : ErrKind) (o : Word) (b : Byte) : (s.raise k o b).out = s.out := rfl
@[simp] theorem State.raise_dpos (k : ErrKind) (o : Word) (b : Byte) : (s.raise k o b).dpos = s.dpos := rfl
@[simp] theorem State.raise_mode (k : ErrKind) (o : Word) (b : Byte) : (s.raise k o b).mode = s.mode := rfl
@[simp] theorem State.raise_laneCount (k : ErrKind) (o : Word) (b : Byte) : (s.raise k o b).laneCount = s.laneCount := rfl

/-! ### reset -/

@[simp] theorem State.resetWith_cfg (c : Config) : (State.resetWith c).cfg = c := rfl
@[simp] theorem State.resetWith_x (c : Config) : (State.resetWith c).x = Regs.zero := rfl
@[simp] theorem State.resetWith_ip (c : Config) : (State.resetWith c).ip = 0 := rfl
@[simp] theorem State.resetWith_flags (c : Config) : (State.resetWith c).flags = Flags.zero := rfl
@[simp] theorem State.resetWith_mem (c : Config) : (State.resetWith c).mem = [] := rfl
@[simp] theorem State.resetWith_prog (c : Config) : (State.resetWith c).prog = [] := rfl
@[simp] theorem State.resetWith_progLen (c : Config) : (State.resetWith c).progLen = 0 := rfl
@[simp] theorem State.resetWith_ctrl (c : Config) : (State.resetWith c).ctrl = 0x81 := rfl
@[simp] theorem State.resetWith_runState (c : Config) : (State.resetWith c).runState = .idle := rfl
@[simp] theorem State.resetWith_errKind (c : Config) : (State.resetWith c).errKind = .none := rfl
@[simp] theorem State.resetWith_errOffset (c : Config) : (State.resetWith c).errOffset = 0 := rfl
@[simp] theorem State.resetWith_errByte (c : Config) : (State.resetWith c).errByte = 0 := rfl
@[simp] theorem State.resetWith_lanes (c : Config) : (State.resetWith c).lanes = Vector.replicate maxLanes LaneState.zero := rfl
@[simp] theorem State.resetWith_vip (c : Config) : (State.resetWith c).vip = 0 := rfl
@[simp] theorem State.resetWith_pstack (c : Config) : (State.resetWith c).pstack = [] := rfl
@[simp] theorem State.resetWith_out (c : Config) : (State.resetWith c).out = [] := rfl
@[simp] theorem State.resetWith_dpos (c : Config) : (State.resetWith c).dpos = 0 := rfl
@[simp] theorem State.resetWith_mode (c : Config) : (State.resetWith c).mode = .scalar := by
  show modeOf 0x81 = _
  decide
@[simp] theorem State.resetWith_laneCount (c : Config) : (State.resetWith c).laneCount = 32 := by
  show laneCountOf 0x81 = _
  decide

/-! ### The datapath -/

@[simp] theorem State.datapath_x : s.datapath.x = s.x := rfl
@[simp] theorem State.datapath_flags : s.datapath.flags = s.flags := rfl
@[simp] theorem State.datapath_mem : s.datapath.mem = s.mem := rfl
@[simp] theorem State.laneDatapath_x (l : Lane) : (s.laneDatapath l).x = s.lanes[l].x := rfl
@[simp] theorem State.laneDatapath_flags (l : Lane) : (s.laneDatapath l).flags = s.lanes[l].flags := rfl
@[simp] theorem State.laneDatapath_mem (l : Lane) : (s.laneDatapath l).mem = s.mem := rfl

/-- Putting back the datapath and ip a state has changes nothing. -/
@[simp] theorem State.withScalar_self : s.withScalar s.datapath s.ip = s := rfl

end Sys2Proof.Machine
end

