-- ==== Sys2Proof/Laws/Engine.lean ====
section
/-! SUPPORT. What executing an instruction can do, said once: every meaning is a data step with an effect that never
fails, or a jump step; and the spec lemmas of the two shared steps. -/

namespace Sys2Proof.Machine

/-- How an instruction runs: through `dataStep` with an effect, or through `jumpStep` with a jump rule. -/
inductive Action where
  | data (eff : DataEffect)
  | jump (rel : Byte) (j : JumpRule)

/-- The action of an instruction, at a setting of PF_SCOPE. -/
def action (sc : PfScope) : Instr → Action
  | .movRmReg d w rm r => .data (movEffect (rmRegDst d w rm r) (rmRegSrc d w rm r))
  | .movRmImm w rm imm => .data (movEffect (rm.operand w) (.imm imm))
  | .movRegImm w r imm => .data (movEffect (w := w) (.reg r) (.imm imm))
  | .movAccMem w a => .data (movEffect (accOperand w) (.mem (directMem a)))
  | .movMemAcc w a => .data (movEffect (.mem (directMem a)) (accOperand w))
  | .addRmReg d w rm r => .data (addEffect sc (rmRegDst d w rm r) (rmRegSrc d w rm r))
  | .addRmImm rm g => .data (addEffect sc (rm.operand g.width) (.imm g.value))
  | .addAccImm w imm => .data (addEffect sc (accOperand w) (.imm imm))
  | .subRmReg d w rm r => .data (subEffect sc (rmRegDst d w rm r) (rmRegSrc d w rm r))
  | .subRmImm rm g => .data (subEffect sc (rm.operand g.width) (.imm g.value))
  | .subAccImm w imm => .data (subEffect sc (accOperand w) (.imm imm))
  | .cmpRmReg d w rm r => .data (cmpEffect sc (rmRegDst d w rm r) (rmRegSrc d w rm r))
  | .cmpRmImm rm g => .data (cmpEffect sc (rm.operand g.width) (.imm g.value))
  | .cmpAccImm w imm => .data (cmpEffect sc (accOperand w) (.imm imm))
  | .jo rel => .jump rel (jccRule 0)
  | .jno rel => .jump rel (jccRule 1)
  | .jb rel => .jump rel (jccRule 2)
  | .jnb rel => .jump rel (jccRule 3)
  | .je rel => .jump rel (jccRule 4)
  | .jne rel => .jump rel (jccRule 5)
  | .jbe rel => .jump rel (jccRule 6)
  | .ja rel => .jump rel (jccRule 7)
  | .js rel => .jump rel (jccRule 8)
  | .jns rel => .jump rel (jccRule 9)
  | .jp rel => .jump rel (jccRule 10)
  | .jnp rel => .jump rel (jccRule 11)
  | .jl rel => .jump rel (jccRule 12)
  | .jnl rel => .jump rel (jccRule 13)
  | .jle rel => .jump rel (jccRule 14)
  | .jg rel => .jump rel (jccRule 15)
  | .loopnz rel => .jump rel loopnzRule
  | .loopz rel => .jump rel loopzRule
  | .loop rel => .jump rel loopRule
  | .jcxz rel => .jump rel jcxzRule

/-- Executing an instruction is taking its action. -/
theorem exec_eq_action (i : Instr) (s : State) :
    exec i s = match action s.cfg.pfScope i with
      | .data eff => dataStep i eff s
      | .jump rel j => jumpStep i rel j s := by
  cases i <;> rfl

/-- A jump instruction has no memory operand (R233). -/
theorem hasMem_of_jump {sc : PfScope} {i : Instr} {rel : Byte} {j : JumpRule} (h : action sc i = .jump rel j) :
    i.hasMem = false := by
  cases i <;> first | rfl | cases h

/-- A jump rule changes the registers by nothing but the decrement of CX (R200). -/
theorem jumpRule_regs {sc : PfScope} {i : Instr} {rel : Byte} {j : JumpRule} (h : action sc i = .jump rel j) :
    j.regs = id ∨ j.regs = decCx := by
  cases i <;> simp only [action, Action.jump.injEq, reduceCtorEq] at h <;> obtain ⟨-, rfl⟩ := h <;>
    first | exact .inl rfl | exact .inr rfl

/-! ### Effects -/

section Effects

variable {w : Width} {sc : PfScope} {dst src : Operand w} {p q : Datapath}

theorem movEffect_isSome (h : ∀ u, dst ≠ .imm u) : (movEffect dst src p).isSome := writeOp_isSome p h _

theorem addEffect_isSome (h : ∀ u, dst ≠ .imm u) : (addEffect sc dst src p).isSome := by
  simp only [addEffect, Option.isSome_map]
  exact writeOp_isSome p h _

theorem subEffect_isSome (h : ∀ u, dst ≠ .imm u) : (subEffect sc dst src p).isSome := by
  simp only [subEffect, Option.isSome_map]
  exact writeOp_isSome p h _

theorem cmpEffect_isSome : (cmpEffect sc dst src p).isSome := rfl

/-- What ADD does when its destination is writable: the write of the sum, then the flags. -/
theorem addEffect_eq_some (h : addEffect sc dst src p = some q) :
    ∃ r, writeOp p dst (addAlu sc (readOp p dst) (readOp p src)).1 = some r ∧
      q = { r with flags := (addAlu sc (readOp p dst) (readOp p src)).2 } := by
  obtain ⟨r, hr, rfl⟩ := Option.map_eq_some_iff.1 h
  exact ⟨r, hr, rfl⟩

/-- What SUB does when its destination is writable. -/
theorem subEffect_eq_some (h : subEffect sc dst src p = some q) :
    ∃ r, writeOp p dst (subAlu sc (readOp p dst) (readOp p src)).1 = some r ∧
      q = { r with flags := (subAlu sc (readOp p dst) (readOp p src)).2 } := by
  obtain ⟨r, hr, rfl⟩ := Option.map_eq_some_iff.1 h
  exact ⟨r, hr, rfl⟩

end Effects

/-- The effect of a decoded data instruction never fails (R273). -/
theorem effect_isSome {sc : PfScope} {i : Instr} {eff : DataEffect} (h : action sc i = .data eff) (p : Datapath) :
    (eff p).isSome := by
  cases i <;> simp only [action, Action.data.injEq, reduceCtorEq] at h <;> subst h <;>
    first
    | exact cmpEffect_isSome
    | exact movEffect_isSome (rmRegDst_ne_imm _ _ _)
    | exact movEffect_isSome (rmOperand_ne_imm _)
    | exact movEffect_isSome (fun _ h => by cases h)
    | exact addEffect_isSome (rmRegDst_ne_imm _ _ _)
    | exact addEffect_isSome (rmOperand_ne_imm _)
    | exact addEffect_isSome (fun _ h => by cases h)
    | exact subEffect_isSome (rmRegDst_ne_imm _ _ _)
    | exact subEffect_isSome (rmOperand_ne_imm _)
    | exact subEffect_isSome (fun _ h => by cases h)

/-- An effect changes memory by nothing but one store of its width, so it keeps the canonical form. -/
theorem effect_keeps_wf {sc : PfScope} {i : Instr} {eff : DataEffect} (h : action sc i = .data eff) {p q : Datapath}
    (hp : p.mem.wf) (hq : eff p = some q) : q.mem.wf := by
  have key : ∀ {w : Width} {dst : Operand w} {v : BitVec w.bits} {r : Datapath},
      writeOp p dst v = some r → r.mem.wf := by
    intro w dst v r hr
    obtain ⟨_, _, rfl⟩ | ⟨_, _, rfl⟩ := writeOp_eq_some p hr
    · exact hp
    · exact memWrite_wf hp _ _ _
  cases i <;> simp only [action, Action.data.injEq, reduceCtorEq] at h <;> subst h <;>
    first
    | exact key hq
    | (obtain ⟨_, hr, rfl⟩ := addEffect_eq_some hq; exact (key hr :))
    | (obtain ⟨_, hr, rfl⟩ := subEffect_eq_some hq; exact (key hr :))
    | (cases hq; exact hp)

/-! ### The two shared steps -/

theorem dataStep_of_vector {i : Instr} {eff : DataEffect} {s : State} (h : s.mode = .vector) :
    dataStep i eff s = .next (vectorData i eff s) := by
  simp [dataStep, h]

theorem dataStep_of_not_vector {i : Instr} {eff : DataEffect} {s : State} (h : s.mode ≠ .vector) :
    dataStep i eff s = .next (scalarData i eff s) := by
  unfold dataStep
  cases hm : s.mode <;> first | rfl | exact absurd hm h

theorem jumpStep_of_vector {i : Instr} {rel : Byte} {j : JumpRule} {s : State} (h : s.mode = .vector) :
    jumpStep i rel j s = .next (vectorJump i rel j s) := by
  simp [jumpStep, h]

theorem jumpStep_of_not_vector {i : Instr} {rel : Byte} {j : JumpRule} {s : State} (h : s.mode ≠ .vector) :
    jumpStep i rel j s = .next (scalarJump i rel j s) := by
  unfold jumpStep
  cases hm : s.mode <;> first | rfl | exact absurd hm h

/-- A scalar data instruction with a writable destination: its effect, then ip <- NextSeq (R135). -/
theorem scalarData_of_some {i : Instr} {eff : DataEffect} {s : State} {p : Datapath} (h : eff s.datapath = some p) :
    scalarData i eff s = s.withScalar p (nextSeq s.ip i.len) := by
  simp [scalarData, h]

/-- Everything a decoded instruction does in the scalar engine: an effect on the datapath or a jump, and ip. It raises
no error and touches nothing else (R136, R139, R223). -/
theorem exec_scalar {i : Instr} {s : State} (h : s.mode ≠ .vector) :
    (∃ eff p, action s.cfg.pfScope i = .data eff ∧ eff s.datapath = some p ∧
      exec i s = .next (s.withScalar p (nextSeq s.ip i.len))) ∨
    (∃ rel j, action s.cfg.pfScope i = .jump rel j ∧
      exec i s = .next (s.withScalar ⟨j.regs s.x, s.flags, s.mem⟩
        (if j.taken (j.regs s.x) s.flags then jumpTarget s.ip i.len rel else nextSeq s.ip i.len))) := by
  rw [exec_eq_action]
  cases ha : action s.cfg.pfScope i with
  | data eff =>
    obtain ⟨p, hp⟩ := Option.isSome_iff_exists.1 (effect_isSome ha s.datapath)
    exact .inl ⟨eff, p, rfl, hp, by simp [dataStep_of_not_vector h, scalarData_of_some hp]⟩
  | jump rel j => exact .inr ⟨rel, j, rfl, by simp [jumpStep_of_not_vector h, scalarJump]⟩

/-- Everything a decoded instruction does in the vector engine: it is refused for its memory operand (R233), or every
lane takes its candidate through Blend (R235, R236), or the sequencer takes a jump (R238). -/
theorem exec_vector {i : Instr} {s : State} (h : s.mode = .vector) :
    (i.hasMem = true ∧ exec i s = .next (s.raise .unsupportedInstruction s.vip i.op0)) ∨
    (∃ eff, i.hasMem = false ∧ action s.cfg.pfScope i = .data eff ∧
      exec i s = .next (s.withVector
        (Vector.ofFn fun l => blend (s.active s.mergedStack l) (laneCandidate eff s l) s.lanes[l])
        s.mergedStack (nextSeq s.vip i.len))) ∨
    (∃ rel j, i.hasMem = false ∧ action s.cfg.pfScope i = .jump rel j ∧ exec i s = .next (vectorJump i rel j s)) := by
  rw [exec_eq_action]
  cases ha : action s.cfg.pfScope i with
  | data eff =>
    simp only [dataStep_of_vector h]
    cases hm : i.hasMem with
    | true => exact .inl ⟨rfl, by simp [vectorData, hm]⟩
    | false =>
      refine .inr (.inl ⟨eff, rfl, rfl, ?_⟩)
      have hn : anyLane (fun l => decide (l.val < s.laneCount) && (eff (s.laneDatapath l)).isNone) = false := by
        simp only [anyLane, List.any_eq_false, Bool.and_eq_true, not_and, Bool.not_eq_true, Option.isNone_eq_false_iff]
        exact fun l _ _ => effect_isSome ha _
      simp [vectorData, hm, hn]
  | jump rel j => exact .inr (.inr ⟨rel, j, hasMem_of_jump ha, rfl, by simp [jumpStep_of_vector h]⟩)

/-- Executing a decoded instruction always answers a next state. -/
theorem exec_next (i : Instr) (s : State) : ∃ t, exec i s = .next t := by
  by_cases h : s.mode = .vector
  · obtain ⟨-, h⟩ | ⟨_, -, -, h⟩ | ⟨_, _, -, -, h⟩ := exec_vector (i := i) h <;> exact ⟨_, h⟩
  · obtain ⟨_, _, -, -, h⟩ | ⟨_, _, -, h⟩ := exec_scalar (i := i) h <;> exact ⟨_, h⟩

/-! ### Lanes -/

/-- `anyLane` says that some lane satisfies the predicate. -/
theorem anyLane_iff {p : Lane → Bool} : anyLane p = true ↔ ∃ l, p l = true := by
  simp [anyLane]

@[simp] theorem blend_true (cand lane : LaneState) :
    blend true cand lane = { lane with x := cand.x, flags := cand.flags, took := cand.took } := rfl

/-- A lane outside the active set keeps every bit (R235). -/
@[simp] theorem blend_false (cand lane : LaneState) : blend false cand lane = lane := rfl

@[simp] theorem blend_done (b : Bool) (cand lane : LaneState) : (blend b cand lane).done = lane.done := rfl
@[simp] theorem blend_ipFinal (b : Bool) (cand lane : LaneState) : (blend b cand lane).ipFinal = lane.ipFinal := rfl

/-! ### The step -/

theorem step_of_not_running {s : State} (h : s.runState ≠ .running) : step s = .next s := by
  unfold step
  cases hr : s.runState <;> first | rfl | exact absurd hr h

theorem step_scalar {s : State} (hr : s.runState = .running) (hm : s.mode = .scalar) : step s = scalarStep s := by
  simp [step, hr, hm]

theorem step_vector {s : State} (hr : s.runState = .running) (hm : s.mode = .vector) : step s = vectorStep s := by
  simp [step, hr, hm]

theorem step_decodeOnly {s : State} (hr : s.runState = .running) (hm : s.mode = .decodeOnly) :
    step s = decodeOnlyStep s := by
  simp [step, hr, hm]

/-- Everything a step can do. -/
theorem step_cases {s t : State} (h : step s = .next t) :
    (s.runState ≠ .running ∧ t = s) ∨
    (s.runState = .running ∧
      ((s.mode = .scalar ∧ ((s.progLen ≤ s.ip ∧ t = s.finish) ∨
          (¬ s.progLen ≤ s.ip ∧ ((∃ e, s.decodeAt s.ip = .error e ∧ t = s.raiseDecode s.ip e) ∨
            ∃ i r, s.decodeAt s.ip = .ok (i, r) ∧ exec i s = .next t)))) ∨
       (s.mode = .vector ∧ ((s.progLen ≤ s.vip ∧ t = groupEnd s) ∨
          (¬ s.progLen ≤ s.vip ∧ ((∃ e, s.decodeAt s.vip = .error e ∧ t = s.raiseDecode s.vip e) ∨
            ∃ i r, s.decodeAt s.vip = .ok (i, r) ∧ exec i s = .next t)))) ∨
       (s.mode = .decodeOnly ∧ ((s.progLen ≤ s.dpos ∧ t = s.finish) ∨
          (¬ s.progLen ≤ s.dpos ∧ ((∃ e, s.decodeAt s.dpos = .error e ∧ t = s.raiseDecode s.dpos e) ∨
            ∃ i r, s.decodeAt s.dpos = .ok (i, r) ∧
              t = s.withSweep (s.out ++ [(s.dpos, i.record s.dpos)]) (nextSeq s.dpos i.len))))))) := by
  by_cases hr : s.runState = .running
  · refine .inr ⟨hr, ?_⟩
    cases hm : s.mode with
    | scalar =>
      rw [step_scalar hr hm, scalarStep] at h
      refine .inl ⟨rfl, ?_⟩
      split at h
      · exact .inl ⟨‹_›, by cases h; rfl⟩
      · refine .inr ⟨‹_›, ?_⟩
        split at h
        · exact .inl ⟨_, ‹_›, by cases h; rfl⟩
        · exact .inr ⟨_, _, ‹_›, h⟩
    | vector =>
      rw [step_vector hr hm, vectorStep] at h
      refine .inr (.inl ⟨rfl, ?_⟩)
      split at h
      · exact .inl ⟨‹_›, by cases h; rfl⟩
      · refine .inr ⟨‹_›, ?_⟩
        split at h
        · exact .inl ⟨_, ‹_›, by cases h; rfl⟩
        · exact .inr ⟨_, _, ‹_›, h⟩
    | decodeOnly =>
      rw [step_decodeOnly hr hm, decodeOnlyStep] at h
      refine .inr (.inr ⟨rfl, ?_⟩)
      split at h
      · exact .inl ⟨‹_›, by cases h; rfl⟩
      · refine .inr ⟨‹_›, ?_⟩
        split at h
        · exact .inl ⟨_, ‹_›, by cases h; rfl⟩
        · exact .inr ⟨_, _, ‹_›, by cases h; rfl⟩
    | reserved =>
      simp [step, hr, hm] at h
  · exact .inl ⟨hr, by rw [step_of_not_running hr] at h; cases h; rfl⟩

/-- A run of no steps. -/
theorem core_run_zero (s : State) : Sys2Proof.core.run 0 s = .next s := rfl

/-- A run of one more step. -/
theorem core_run_succ {s t : State} (k : Nat) (h : step s = .next t) :
    Sys2Proof.core.run (k + 1) s = Sys2Proof.core.run k t := by
  have h' : Sys2Proof.core.step s = .next t := h
  have e := Host.Core.run.eq_2 Sys2Proof.core s k
  rw [h'] at e
  exact e

/-! ### Errors and the vector sequencer -/

/-- A failed decode raises one of two errors, neither of them one that a meaning raises (R270). -/
theorem raiseDecode_eq_raise (s : State) (start : Word) (e : DecodeFail) :
    ∃ k o b, s.raiseDecode start e = s.raise k o b ∧ (k = .decodeError ∨ k = .inputTruncated) := by
  cases e <;> simp only [State.raiseDecode] <;> exact ⟨_, _, _, rfl, by simp⟩

/-- A jump in the vector engine changes the lanes, the predicate stack and vip, and nothing else (R238). -/
theorem vectorJump_eq_withVector (i : Instr) (rel : Byte) (j : JumpRule) (s : State) :
    ∃ ls st v, vectorJump i rel j s = s.withVector ls st v := by
  unfold vectorJump
  exact ⟨_, _, _, rfl⟩

/-- The lanes after the end of a group (R241). -/
theorem groupEnd_lanes (s : State) :
    (groupEnd s).lanes = Vector.ofFn fun l : Lane =>
      if s.active s.mergedStack l then { s.lanes[l] with done := true, ipFinal := s.vip } else s.lanes[l] := by
  unfold groupEnd
  dsimp only
  split <;> simp only [State.finish_lanes, State.withVector_lanes]

/-- The end of the last group ends the run (R242). -/
theorem groupEnd_of_nil {s : State} (h : s.mergedStack = []) :
    (groupEnd s).runState = .done ∧ (groupEnd s).pstack = [] ∧ (groupEnd s).vip = s.vip := by
  unfold groupEnd
  rw [h]
  exact ⟨by rw [State.finish_runState], by rw [State.finish_pstack, State.withVector_pstack],
    by rw [State.finish_vip, State.withVector_vip]⟩

/-- The end of a group that is not the last one goes on at the least resume (R241). -/
theorem groupEnd_of_cons {s : State} {e : PredEntry} {rest : List PredEntry} (h : s.mergedStack = e :: rest) :
    (groupEnd s).runState = s.runState ∧ (groupEnd s).pstack = e :: rest ∧
      (groupEnd s).vip = leastResume e.resume rest := by
  unfold groupEnd
  rw [h]
  exact ⟨by rw [State.withVector_runState], by rw [State.withVector_pstack], by rw [State.withVector_vip]⟩

/-- The least resume is the resume of some entry, and no entry has a lower one. -/
theorem leastResume_spec (m : Word) (st : List PredEntry) :
    (leastResume m st = m ∨ ∃ e ∈ st, leastResume m st = e.resume) ∧ leastResume m st ≤ m ∧
      ∀ e ∈ st, leastResume m st ≤ e.resume := by
  induction st generalizing m with
  | nil => exact ⟨.inl rfl, BitVec.le_refl _, by simp⟩
  | cons e rest ih =>
    simp only [leastResume]
    obtain ⟨h1, h2, h3⟩ := ih (if e.resume < m then e.resume else m)
    have hm : (if e.resume < m then e.resume else m) ≤ m ∧ (if e.resume < m then e.resume else m) ≤ e.resume := by
      split
      · exact ⟨BitVec.le_of_lt ‹_›, BitVec.le_refl _⟩
      · exact ⟨BitVec.le_refl _, BitVec.not_lt.1 ‹_›⟩
    refine ⟨?_, BitVec.le_trans h2 hm.1, fun f hf => ?_⟩
    · rcases h1 with h1 | ⟨f, hf, h1⟩
      · rw [h1]
        split
        · exact .inr ⟨e, List.mem_cons_self, rfl⟩
        · exact .inl rfl
      · exact .inr ⟨f, List.mem_cons_of_mem _ hf, h1⟩
    · rcases List.mem_cons.1 hf with rfl | hf
      · exact BitVec.le_trans h2 hm.2
      · exact h3 f hf

end Sys2Proof.Machine
end

