-- ==== Sys2Proof/Laws/HostOps.lean ====
section
/-! SUPPORT. The laws of the host's operations: when they move, and the fields of CTRL. -/

namespace Sys2Proof.Machine

/-- Outside RUNNING every operation is performed (R32). -/
theorem hostMove_of_not_running {s : State} (h : s.runState ≠ .running) (op : HostOp) : hostMove op s = op.perform s := by
  simp [hostMove, h]

/-- While RUNNING only RESET and the read of STATUS are (R32). -/
theorem hostMove_of_running {s : State} (h : s.runState = .running) {op : HostOp} (ho : op.allowedRunning = false) :
    hostMove op s = .noMove := by
  simp [hostMove, h, ho]

/-- An operation that moved was allowed, and was performed. -/
theorem hostMove_eq_moved {op : HostOp} {s t : State} {r : HostReply} (h : hostMove op s = .moved t r) :
    (s.runState = .running → op.allowedRunning = true) ∧ op.perform s = .moved t r := by
  unfold hostMove at h
  split at h
  · cases h
  · next hn => exact ⟨fun hr => by simpa [hr] using hn, h⟩

/-- MODE and LANES as numbers (R31). -/
theorem mode_iff (c : BitVec 8) :
    (modeOf c = .decodeOnly ↔ c.toNat % 4 = 0) ∧ (modeOf c = .scalar ↔ c.toNat % 4 = 1) ∧
    (modeOf c = .vector ↔ c.toNat % 4 = 2) ∧ (modeOf c = .reserved ↔ c.toNat % 4 = 3) ∧
    laneCountOf c = c.toNat / 4 := by
  revert c
  decide +kernel

/-- The illegal configurations (R33). -/
theorem configLegal_eq_false_iff (c : BitVec 8) :
    configLegal c = false ↔ c.toNat % 4 = 3 ∨ (c.toNat % 4 = 2 ∧ ¬ (1 ≤ c.toNat / 4 ∧ c.toNat / 4 ≤ 32)) := by
  revert c
  decide +kernel

/-- Setting MODE to SCALAR in CTRL (R31). -/
theorem modeOf_setScalar (c : BitVec 8) : modeOf ((c &&& 0xFC) ||| 0x01) = .scalar := by
  revert c
  decide +kernel

@[simp] theorem regsOf_setReg (s : State) (t : Target) (i : RegIdx) (v : Word) :
    (s.setReg t i v).regsOf t = writeWord (s.regsOf t) i v := by
  cases t with
  | scalar => rfl
  | lane l => simp [State.setReg, State.regsOf]

/-- Writing a register of one target leaves every other target alone (R305). -/
theorem regsOf_setReg_of_ne (s : State) {t u : Target} (h : u ≠ t) (i : RegIdx) (v : Word) :
    (s.setReg t i v).regsOf u = s.regsOf u := by
  cases t with
  | scalar =>
    cases u with
    | scalar => exact absurd rfl h
    | lane m => rfl
  | lane l =>
    cases u with
    | scalar => rfl
    | lane m =>
      have : l.val ≠ m.val := fun e => h (by rw [Fin.ext e])
      simp [State.regsOf, State.setReg, this]

@[simp] theorem flagsOf_setFlags (s : State) (t : Target) (f : Flags) : (s.setFlags t f).flagsOf t = f := by
  cases t with
  | scalar => rfl
  | lane l => simp [State.setFlags, State.flagsOf]

end Sys2Proof.Machine
end

