-- ==== Sys2Proof/Laws/Vector.lean ====
section
/-! SUPPORT. The laws of the vector engine's parts: which lanes are active, what becomes of each lane, and where the
sequencer goes. -/

namespace Sys2Proof.Machine

/-- Active, said out (R243). -/
theorem active_iff (s : State) (st : List PredEntry) (l : Lane) :
    s.active st l = true ↔ l.val < s.laneCount ∧ s.lanes[l].done = false ∧ ∀ e ∈ st, e.pred[l] = true := by
  simp [State.active, and_assoc]

/-- The entry of a vector of lanes that a function gives. -/
theorem ofFn_lane {α : Type} (f : Lane → α) (l : Lane) : (Vector.ofFn f)[l] = f l := by simp

/-- A data instruction's candidate for a lane is the effect on the lane's own datapath (R236). -/
theorem laneCandidate_eq {i : Instr} {s : State} {eff : DataEffect} (h : action s.cfg.pfScope i = .data eff) (l : Lane) :
    ∃ p, eff (s.laneDatapath l) = some p ∧ laneCandidate eff s l = { s.lanes[l] with x := p.x, flags := p.flags } := by
  obtain ⟨p, hp⟩ := Option.isSome_iff_exists.1 (effect_isSome h (s.laneDatapath l))
  exact ⟨p, hp, by simp [laneCandidate, hp]⟩

/-- A lane after a jump (R235, R238). -/
theorem vectorJump_lane (i : Instr) (rel : Byte) (j : JumpRule) (s : State) (l : Lane) :
    (vectorJump i rel j s).lanes[l] = blend (s.active s.mergedStack l) (jumpCandidate j s.lanes[l]) s.lanes[l] := by
  simp only [vectorJump, State.withVector_lanes, ofFn_lane]

/-- A lane after the end of a group (R241). -/
theorem groupEnd_lane (s : State) (l : Lane) :
    (groupEnd s).lanes[l] =
      if s.active s.mergedStack l then { s.lanes[l] with done := true, ipFinal := s.vip } else s.lanes[l] := by
  rw [groupEnd_lanes, ofFn_lane]

/-- The end of a group changes the lanes, the predicate stack, vip and perhaps STATUS.STATE, and nothing else. -/
theorem groupEnd_eq (s : State) :
    ∃ ls st v, groupEnd s = s.withVector ls st v ∨ groupEnd s = (s.withVector ls st v).finish := by
  unfold groupEnd
  dsimp only
  split
  · exact ⟨_, _, _, .inr rfl⟩
  · exact ⟨_, _, _, .inl rfl⟩

/-- Executing in the vector engine refuses a memory operand, or changes the lanes, the stack and vip. -/
theorem exec_vector_eq {i : Instr} {s t : State} (h : s.mode = .vector) (he : exec i s = .next t) :
    (i.hasMem = true ∧ t = s.raise .unsupportedInstruction s.vip i.op0) ∨
    (i.hasMem = false ∧ ∃ ls st v, t = s.withVector ls st v) := by
  obtain ⟨h0, h⟩ | ⟨_, h0, _, h⟩ | ⟨_, _, h0, _, h⟩ := exec_vector (i := i) h <;> rw [h] at he <;> cases he
  · exact .inl ⟨h0, rfl⟩
  · exact .inr ⟨h0, _, _, _, rfl⟩
  · exact .inr ⟨h0, vectorJump_eq_withVector _ _ _ _⟩

/-- Where the sequencer goes after a jump, case by case (R238, R239). -/
theorem jumpFlow_spec (J S : Lane → Bool) (T F : Word) (st : List PredEntry) :
    ((∀ l, J l = false) ∨ T = F → jumpFlow J S T F st = (st, F)) ∧
    ((∃ l, J l = true) → T ≠ F → (∀ l, S l = false) → jumpFlow J S T F st = (st, T)) ∧
    ((∃ l, J l = true) → (∃ l, S l = true) → T < F →
      jumpFlow J S T F st = (⟨F, Vector.ofFn fun l => !S l⟩ :: st, T)) ∧
    ((∃ l, J l = true) → (∃ l, S l = true) → F < T →
      jumpFlow J S T F st = (⟨T, Vector.ofFn fun l => !J l⟩ :: st, F)) := by
  have hn : ∀ p : Lane → Bool, (∀ l, p l = false) → anyLane p = false := fun p h => by simp [anyLane, h]
  refine ⟨fun h => ?_, fun h1 h2 h3 => ?_, fun h1 h2 h3 => ?_, fun h1 h2 h3 => ?_⟩
  · unfold jumpFlow
    rw [if_pos]
    rcases h with h | h
    · simp [hn J h]
    · simp [h]
  · rw [← anyLane_iff] at h1
    simp [jumpFlow, h1, h2, hn S h3]
  · rw [← anyLane_iff] at h1 h2
    have : T ≠ F := by rintro rfl; simp at h3
    simp [jumpFlow, h1, h2, h3, this]
  · rw [← anyLane_iff] at h1 h2
    have hne : T ≠ F := by rintro rfl; simp at h3
    have h4 : ¬ T < F := by simpa using BitVec.le_of_lt h3
    simp only [jumpFlow, h1, h2, h4, Bool.not_true, Bool.false_or, beq_iff_eq, hne, if_false, Bool.false_eq_true]

end Sys2Proof.Machine
end

