-- ==== Sys2Proof/Tests/Slice0.lean ====
section
/-! SUPPORT. The model's own tests: the smoke test of `Instr.wf`; the decoding of words written out from
30_encoding.md (R81 to R91) or taken from 95_test_vectors.md; single steps whose results are rows of
95_test_vectors.md; and, for each obligation with hypotheses, a witness that meets them together. -/

namespace Sys2Proof.Tests

open Sys2Proof.Machine Sys2Proof.Statements

/-! ### Helpers -/

/-- The six flags by name: the names of those that are 1, as 95_test_vectors.md lists them. -/
inductive FlagName where
  | CF | PF | AF | ZF | SF | OF
  deriving DecidableEq

/-- The flags whose names are listed. -/
def flagsOf (l : List FlagName) : Flags :=
  ⟨l.contains .CF, l.contains .PF, l.contains .AF, l.contains .ZF, l.contains .SF, l.contains .OF⟩

/-- AX CX DX BX SP BP SI DI. -/
def regs (ax cx dx bx sp bp si di : Word) : Regs := #v[ax, cx, dx, bx, sp, bp, si, di]

/-- The instruction that exactly these bytes decode to. -/
def decoded (bytes : List Byte) : Option Instr :=
  match decodeList bytes with
  | .ok (i, []) => some i
  | .ok (_, _ :: _) => none
  | .error _ => none

/-- The next state, if the step answers one. -/
def nextOf (o : Result) : Option State :=
  match o with
  | .next t => some t
  | .fault _ => none
  | .refused _ => none

/-- The state a host operation leaves. -/
def movedTo (o : HostResult) : Option State :=
  match o with
  | .moved t _ => some t
  | .refused => none
  | .noMove => none

/-- The answer of a host operation. -/
def replyOf (o : HostResult) : Option HostReply :=
  match o with
  | .moved _ r => some r
  | .refused => none
  | .noMove => none

theorem eq_next {o : Result} {t : State} (h : nextOf o = some t) : o = .next t := by
  cases o with
  | next u => exact congrArg _ (Option.some.inj h)
  | fault _ => cases h
  | refused _ => cases h

theorem exists_next {o : Result} (h : (nextOf o).isSome = true) : ∃ t, o = .next t := by
  obtain ⟨t, ht⟩ := Option.isSome_iff_exists.1 h
  exact ⟨t, eq_next ht⟩

/-- RESET, LOAD of `bytes`, a CTRL with the given mode and lane count, and a run in progress. -/
def running (ctrl : Byte) (bytes : List Byte) : State :=
  { (State.reset.load bytes) with ctrl := ctrl, runState := .running }

/-- A SCALAR run at the start of `bytes` with the given registers, flags and further memory. -/
def scalar (bytes : List Byte) (x : Regs := Regs.zero) (f : List FlagName := []) (cells : List (Word × Byte) := []) :
    State :=
  { running 0x01 bytes with
    x := x
    flags := flagsOf f
    mem := cells.foldl (fun m c => m.write c.1 c.2) (running 0x01 bytes).mem }

/-- A SCALAR run at offset `off` with `bytes` there and no-effect bytes (`mov al, al`) before them. -/
def scalarAt (off : Nat) (bytes : List Byte) (cx : Word := 0) (f : List FlagName := []) : State :=
  { scalar (List.replicate (off / 2) [0x88, 0xC0] |>.flatten |> (· ++ bytes)) (regs 0 cx 0 0 0 0 0 0) f with
    ip := BitVec.ofNat 16 off }

/-- A VECTOR run at the start of `bytes`; `xs` are the registers and flags of the lanes that take part. -/
def vector (bytes : List Byte) (xs : List (Regs × List FlagName)) : State :=
  { running (BitVec.ofNat 8 (2 + 4 * xs.length)) bytes with
    lanes := Vector.ofFn fun l : Lane =>
      match xs[l.val]? with
      | some (x, f) => ⟨x, flagsOf f, false, false, 0⟩
      | none => LaneState.zero }

/-- Registers, flags and ip after one step. -/
def after1 (s : State) : Option (Regs × Flags × Word) := (nextOf (step s)).map fun t => (t.x, t.flags, t.ip)

/-- STATE, ERR_KIND, ERR_OFFSET and ERR_BYTE after one step. -/
def report1 (s : State) : Option (RunState × ErrKind × Word × Byte) :=
  (nextOf (step s)).map fun t => (t.runState, t.errKind, t.errOffset, t.errByte)

/-! ### Well-formedness: the one hole of the mod/rm table, in each row that has an r/m operand -/

theorem test_wf_refuses_bp_without_displacement :
    (Instr.movRmReg false .word (.noDisp .bp) 0).wf = false ∧ (Instr.movRmImm .byte (.noDisp .bp) 5).wf = false ∧
    (Instr.addRmReg true .word (.noDisp .bp) 0).wf = false ∧ (Instr.addRmImm (.noDisp .bp) (.op83 1)).wf = false ∧
    (Instr.subRmReg true .byte (.noDisp .bp) 7).wf = false ∧ (Instr.subRmImm (.noDisp .bp) (.op81 1)).wf = false ∧
    (Instr.cmpRmReg false .byte (.noDisp .bp) 1).wf = false ∧ (Instr.cmpRmImm (.noDisp .bp) (.op80 1)).wf = false := by
  decide

theorem test_wf_accepts_neighbours :
    (Instr.movRmReg false .word (.disp8 .bp 0) 0).wf = true ∧ (Instr.movRmReg false .word (.direct 0) 0).wf = true ∧
    (Instr.movRmReg false .word (.noDisp .bpSi) 0).wf = true ∧ (Instr.movRegImm .word 4 0x3E6).wf = true ∧
    (Instr.jg 0).wf = true := by
  decide

/-- The ill-formed operand shares its bits with the direct address, so its encoding reads as something else. -/
theorem test_ill_formed_does_not_round_trip :
    decoded (encode (.movRmReg true .word (.noDisp .bp) 0) ++ [0x34, 0x12]) =
      some (.movRmReg true .word (.direct 0x1234) 0) := by
  decide

/-! ### Decoding: every constructor, by words of 95_test_vectors.md section 2.1 or written out from R81 to R91 -/

theorem test_decode_mov :
    decoded [0x89, 0xD8] = some (.movRmReg false .word (.reg 0) 3) ∧
    decoded [0x8B, 0xC3] = some (.movRmReg true .word (.reg 3) 0) ∧
    decoded [0x8A, 0x26, 0x00, 0x01] = some (.movRmReg true .byte (.direct 0x0100) 4) ∧
    decoded [0x89, 0x87, 0x34, 0x12] = some (.movRmReg false .word (.disp16 .bx 0x1234) 0) ∧
    decoded [0x8B, 0x00] = some (.movRmReg true .word (.noDisp .bxSi) 0) ∧
    decoded [0xC6, 0x06, 0x00, 0x20, 0x05] = some (.movRmImm .byte (.direct 0x2000) 5) ∧
    decoded [0xC7, 0x87, 0x34, 0x12, 0x78, 0x56] = some (.movRmImm .word (.disp16 .bx 0x1234) 0x5678) ∧
    decoded [0xB4, 0x12] = some (.movRegImm .byte 4 0x12) ∧
    decoded [0xBC, 0xE6, 0x03] = some (.movRegImm .word 4 0x03E6) ∧
    decoded [0xA0, 0x00, 0x20] = some (.movAccMem .byte 0x2000) ∧
    decoded [0xA3, 0x00, 0x20] = some (.movMemAcc .word 0x2000) := by
  decide

theorem test_decode_add :
    decoded [0x00, 0xC4] = some (.addRmReg false .byte (.reg 4) 0) ∧
    decoded [0x03, 0x4E, 0x00] = some (.addRmReg true .word (.disp8 .bp 0) 1) ∧
    decoded [0x80, 0xC0, 0x01] = some (.addRmImm (.reg 0) (.op80 1)) ∧
    decoded [0x81, 0x06, 0x00, 0x20, 0x34, 0x12] = some (.addRmImm (.direct 0x2000) (.op81 0x1234)) ∧
    decoded [0x82, 0xC0, 0x01] = some (.addRmImm (.reg 0) (.op82 1)) ∧
    decoded [0x83, 0xC3, 0xFF] = some (.addRmImm (.reg 3) (.op83 0xFF)) ∧
    decoded [0x05, 0xFF, 0xFF] = some (.addAccImm .word 0xFFFF) := by
  decide

theorem test_decode_sub :
    decoded [0x2B, 0x5A, 0x80] = some (.subRmReg true .word (.disp8 .bpSi 0x80) 3) ∧
    decoded [0x29, 0xCB] = some (.subRmReg false .word (.reg 3) 1) ∧
    decoded [0x81, 0xEB, 0x00, 0x01] = some (.subRmImm (.reg 3) (.op81 0x0100)) ∧
    decoded [0x83, 0xEE, 0x01] = some (.subRmImm (.reg 6) (.op83 1)) ∧
    decoded [0x2C, 0x01] = some (.subAccImm .byte 1) := by
  decide

theorem test_decode_cmp :
    decoded [0x39, 0xE5] = some (.cmpRmReg false .word (.reg 5) 4) ∧
    decoded [0x38, 0x27] = some (.cmpRmReg false .byte (.noDisp .bx) 4) ∧
    decoded [0x83, 0xFE, 0x05] = some (.cmpRmImm (.reg 6) (.op83 5)) ∧
    decoded [0x3C, 0x80] = some (.cmpAccImm .byte 0x80) ∧
    decoded [0x3D, 0x00, 0x80] = some (.cmpAccImm .word 0x8000) := by
  decide

theorem test_decode_jumps :
    decoded [0x70, 1] = some (.jo 1) ∧ decoded [0x71, 1] = some (.jno 1) ∧
    decoded [0x72, 1] = some (.jb 1) ∧ decoded [0x73, 1] = some (.jnb 1) ∧
    decoded [0x74, 1] = some (.je 1) ∧ decoded [0x75, 0xFE] = some (.jne 0xFE) ∧
    decoded [0x76, 1] = some (.jbe 1) ∧ decoded [0x77, 1] = some (.ja 1) ∧
    decoded [0x78, 1] = some (.js 1) ∧ decoded [0x79, 1] = some (.jns 1) ∧
    decoded [0x7A, 1] = some (.jp 1) ∧ decoded [0x7B, 1] = some (.jnp 1) ∧
    decoded [0x7C, 1] = some (.jl 1) ∧ decoded [0x7D, 1] = some (.jnl 1) ∧
    decoded [0x7E, 1] = some (.jle 1) ∧ decoded [0x7F, 1] = some (.jg 1) ∧
    decoded [0xE0, 1] = some (.loopnz 1) ∧ decoded [0xE1, 1] = some (.loopz 1) ∧
    decoded [0xE2, 0xFC] = some (.loop 0xFC) ∧ decoded [0xE3, 0x10] = some (.jcxz 0x10) := by
  decide

/-- The records of three rows of section 2.1 (R100). -/
theorem test_records :
    (Instr.movRmReg true .word (.disp8 .bp 0xFE) 0).record 0 =
      ⟨.mov, .data .word (.reg 0) (.mem ⟨some .bp, none, 0xFFFE, false⟩), 3, 0, 0x8B⟩ ∧
    (Instr.addRmImm (.reg 3) (.op83 0xFF)).record 7 = ⟨.add, .data .word (.reg 3) (.imm 0xFFFF), 3, 7, 0x83⟩ ∧
    (Instr.movMemAcc .word 0x2000).record 0 =
      ⟨.mov, .data .word (.mem ⟨none, none, 0x2000, true⟩) (.reg 0), 3, 0, 0xA3⟩ := by
  decide

/-- The words as the opcode table numbers them, `(b0 << 8) | b1`; operand bytes beyond them are 0. -/
theorem test_table_words :
    decodeTableWord 16 0x88C0 = some (.movRmReg false .byte (.reg 0) 0) ∧
    decodeTableWord 16 0x80F8 = some (.cmpRmImm (.reg 0) (.op80 0)) ∧
    decodeTableWord 16 0xB800 = some (.movRegImm .word 0 0) ∧
    decodeTableWord 16 0x7510 = some (.jne 0x10) ∧ decodeTableWord 16 0x9000 = none := by
  decide

/-- `withFetchWord` places the instruction for the very next step. -/
theorem test_with_fetch_word :
    after1 (State.reset.withFetchWord 16 0xB4AB) = some (regs 0xAB00 0 0 0 0 0 0 0, flagsOf [], 2) ∧
    after1 (State.reset.withFetchWord 16 0xE3AB) = some (Regs.zero, flagsOf [], 0xFFAD) := by
  decide

/-- The assembler text of rows of section 2.1 (R104). -/
theorem test_text :
    recordText ((Instr.movRmReg true .word (.disp8 .bp 0xFE) 0).record 0) = "mov ax, [bp - 2]" ∧
    recordText ((Instr.movRmImm .byte (.direct 0x2000) 5).record 0) = "mov byte [8192], 5" ∧
    recordText ((Instr.movRmReg true .word (.disp8 .bxSi 1) 0).record 0) = "mov ax, [bx + si + 1]" ∧
    recordText ((Instr.addRmImm (.reg 3) (.op83 0xFF)).record 0) = "add bx, -1" ∧
    recordText ((Instr.loop 0xFC).record 0) = "loop $-2" ∧ recordText ((Instr.jcxz 0x10).record 0) = "jcxz $+18" := by
  decide +kernel

/-! ### Single scalar steps: rows of 95_test_vectors.md sections 1 and 2.2 to 2.5 -/

theorem test_mov_rm_reg :
    after1 (scalar [0x89, 0xD8] (regs 0 0 0 0x1234 0 0 0 0) [.CF, .ZF]) =
      some (regs 0x1234 0 0 0x1234 0 0 0 0, flagsOf [.CF, .ZF], 2) ∧
    after1 (scalar [0x8B, 0x1F] (regs 0 0 0 0x1000 0 0 0 0) [] [(0x1000, 0x78), (0x1001, 0x56)]) =
      some (regs 0 0 0 0x5678 0 0 0 0, flagsOf [], 2) := by
  decide

/-- `mov al, ah` of the sub-register isolation law (W5). -/
theorem test_mov_byte_registers :
    after1 (scalar [0x88, 0xE0] (regs 0x12FF 0 0 0 0 0 0 0)) = some (regs 0x1212 0 0 0 0 0 0 0, flagsOf [], 2) := by
  decide

theorem test_mov_rm_imm :
    after1 (scalar [0xC6, 0xC0, 0x07] (regs 0xFFFF 0 0 0 0 0 0 0)) =
      some (regs 0xFF07 0 0 0 0 0 0 0, flagsOf [], 3) := by
  decide

/-- The word at FFFF wraps to 0000, over the program's first byte (section 2.2). -/
theorem test_mov_store_wraps :
    (nextOf (step (scalar [0xC7, 0x07, 0x34, 0x12] (regs 0 0 0 0xFFFF 0 0 0 0)))).map
      (fun t => (t.mem.read 0xFFFF, t.mem.read 0, t.mem.read 1, t.ip)) = some (0x34, 0x12, 0x07, 4) := by
  decide

theorem test_mov_reg_imm :
    after1 (scalar [0xBC, 0xE6, 0x03]) = some (regs 0 0 0 0 0x3E6 0 0 0, flagsOf [], 3) ∧
    after1 (scalar [0xB4, 0x12] (regs 0xABCD 0 0 0 0 0 0 0)) = some (regs 0x12CD 0 0 0 0 0 0 0, flagsOf [], 2) := by
  decide

theorem test_mov_acc_mem :
    after1 (scalar [0xA1, 0x00, 0x20] Regs.zero [] [(0x2000, 0xEF), (0x2001, 0xBE)]) =
      some (regs 0xBEEF 0 0 0 0 0 0 0, flagsOf [], 3) ∧
    after1 (scalar [0xA0, 0x00, 0x20] (regs 0x1200 0 0 0 0 0 0 0) [] [(0x2000, 0x7F)]) =
      some (regs 0x127F 0 0 0 0 0 0 0, flagsOf [], 3) := by
  decide

theorem test_mov_mem_acc :
    (nextOf (step (scalar [0xA3, 0x00, 0x20] (regs 0xBEEF 0 0 0 0 0 0 0)))).map
      (fun t => (t.mem.read 0x2000, t.mem.read 0x2001)) = some (0xEF, 0xBE) := by
  decide

/-- Effective addresses: FFFF + 2 wraps, and 0010 − 2 (section 2.2). -/
theorem test_effective_address :
    after1 (scalar [0x8B, 0x47, 0x02] (regs 0 0 0 0xFFFF 0 0 0 0)) =
      some (regs 0x0247 0 0 0xFFFF 0 0 0 0, flagsOf [], 3) ∧
    after1 (scalar [0x8B, 0x46, 0xFE] (regs 0 0 0 0 0 0x10 0 0) [] [(0xE, 0x11), (0xF, 0x22)]) =
      some (regs 0x2211 0 0 0 0 0x10 0 0, flagsOf [], 3) := by
  decide

theorem test_add_rm_reg :
    after1 (scalar [0x01, 0xC0] (regs 0x4001 0 0 0 0 0 0 0)) =
      some (regs 0x8002 0 0 0 0 0 0 0, flagsOf [.SF, .OF], 2) ∧
    after1 (scalar [0x00, 0xC4] (regs 0x10F0 0 0 0 0 0 0 0)) =
      some (regs 0x00F0 0 0 0 0 0 0 0, flagsOf [.CF, .PF, .ZF], 2) := by
  decide

theorem test_add_rm_imm :
    after1 (scalar [0x83, 0xC3, 0xFF]) = some (regs 0 0 0 0xFFFF 0 0 0 0, flagsOf [.PF, .SF], 3) ∧
    (nextOf (step (scalar [0x80, 0x07, 0x01] (regs 0 0 0 0x1000 0 0 0 0) [] [(0x1000, 0xFF)]))).map
      (fun t => (t.mem.read 0x1000, t.flags)) = some (0, flagsOf [.CF, .PF, .AF, .ZF]) := by
  decide

/-- PF is the one flag that PF_SCOPE decides. -/
theorem test_add_acc_imm :
    after1 (scalar [0x05, 0x00, 0x01] (regs 0xFF 0 0 0 0 0 0 0)) =
      some (regs 0x1FF 0 0 0 0 0 0 0, flagsOf [.PF], 3) ∧
    after1 { scalar [0x05, 0x00, 0x01] (regs 0xFF 0 0 0 0 0 0 0) with cfg := ⟨.fullWidth, .memory⟩ } =
      some (regs 0x1FF 0 0 0 0 0 0 0, flagsOf [], 3) := by
  decide

theorem test_sub_rm_reg :
    after1 (scalar [0x29, 0xCB] (regs 0 0xF01 0 0xF003 0 0 0 0)) =
      some (regs 0 0xF01 0 0xE102 0 0 0 0, flagsOf [.SF], 2) ∧
    after1 (scalar [0x29, 0xC0] (regs 0x1234 0 0 0 0 0 0 0) [.CF, .SF]) =
      some (Regs.zero, flagsOf [.PF, .ZF], 2) := by
  decide

theorem test_sub_rm_imm :
    after1 (scalar [0x81, 0xEB, 0x00, 0x01] (regs 0 0 0 0x100 0 0 0 0)) = some (Regs.zero, flagsOf [.PF, .ZF], 4) ∧
    after1 (scalar [0x83, 0xEE, 0x01]) = some (regs 0 0 0 0 0 0 0xFFFF 0, flagsOf [.CF, .PF, .AF, .SF], 3) := by
  decide

theorem test_sub_acc_imm :
    after1 (scalar [0x2C, 0x01] (regs 0x80 0 0 0 0 0 0 0)) = some (regs 0x7F 0 0 0 0 0 0 0, flagsOf [.AF, .OF], 2) := by
  decide

/-- W2, with and without all six flags set before (W5). -/
theorem test_cmp_rm_reg :
    after1 (scalar [0x39, 0xE5] (regs 0 0 0 0 0x63 0x62 0 0)) =
      some (regs 0 0 0 0 0x63 0x62 0 0, flagsOf [.CF, .PF, .AF, .SF], 2) ∧
    after1 (scalar [0x39, 0xE5] (regs 0 0 0 0 0x63 0x62 0 0) [.CF, .PF, .AF, .ZF, .SF, .OF]) =
      some (regs 0 0 0 0 0x63 0x62 0 0, flagsOf [.CF, .PF, .AF, .SF], 2) := by
  decide

theorem test_cmp_rm_imm :
    after1 (scalar [0x83, 0xFE, 0x05] (regs 0 0 0 0 0 0 5 0)) =
      some (regs 0 0 0 0 0 0 5 0, flagsOf [.PF, .ZF], 3) := by
  decide

theorem test_cmp_acc_imm :
    after1 (scalar [0x3D, 0x00, 0x80]) = some (Regs.zero, flagsOf [.CF, .PF, .SF, .OF], 3) ∧
    after1 (scalar [0x3C, 0x80] (regs 0x7F 0 0 0 0 0 0 0)) =
      some (regs 0x7F 0 0 0 0 0 0 0, flagsOf [.CF, .PF, .SF, .OF], 2) := by
  decide

/-- The untaken jumps of W3, each at offset 0. -/
theorem test_untaken_jumps :
    ([(0x70, []), (0x71, [.OF]), (0x72, []), (0x73, [.CF]), (0x74, []), (0x75, [.ZF]), (0x76, []), (0x77, [.ZF]),
      (0x78, []), (0x79, [.SF]), (0x7A, []), (0x7B, [.PF]), (0x7C, []), (0x7D, [.SF]), (0x7E, []), (0x7F, [.ZF])] :
      List (Byte × List FlagName)).all
      (fun r => after1 (scalar [r.1, 0x10] Regs.zero r.2) == some (Regs.zero, flagsOf r.2, 2)) = true := by
  decide

/-- Taken jumps at offset 0: the first ones of section 2.5, and the untaken ones of W3 with the condition met. -/
theorem test_taken_jumps :
    ([(0x70, [.OF]), (0x71, []), (0x72, [.CF]), (0x73, []), (0x74, [.ZF]), (0x75, []), (0x76, [.ZF]), (0x77, []),
      (0x78, [.SF]), (0x79, []), (0x7A, [.PF]), (0x7B, []), (0x7C, [.SF]), (0x7D, [.SF, .OF]), (0x7E, [.OF]),
      (0x7F, [])] : List (Byte × List FlagName)).all
      (fun r => after1 (scalar [r.1, 0x10] Regs.zero r.2) == some (Regs.zero, flagsOf r.2, 0x12)) = true := by
  decide

/-- Backward targets of section 2.5. -/
theorem test_backward_jumps :
    after1 (scalarAt 0x10 [0x71, 0xFE]) = some (Regs.zero, flagsOf [], 0x10) ∧
    after1 (scalarAt 8 [0x75, 0xFC]) = some (Regs.zero, flagsOf [], 6) ∧
    after1 (scalar [0x74, 0x80] Regs.zero [.ZF]) = some (Regs.zero, flagsOf [.ZF], 0xFF82) := by
  decide

theorem test_loopnz :
    after1 (scalarAt 8 [0xE0, 0xFC] 5) = some (regs 0 4 0 0 0 0 0 0, flagsOf [], 6) ∧
    after1 (scalar [0xE0, 0x10] (regs 0 1 0 0 0 0 0 0)) = some (Regs.zero, flagsOf [], 2) := by
  decide

theorem test_loopz :
    after1 (scalarAt 8 [0xE1, 0xFC] 5 [.ZF]) = some (regs 0 4 0 0 0 0 0 0, flagsOf [.ZF], 6) ∧
    after1 (scalar [0xE1, 0x10] (regs 0 5 0 0 0 0 0 0)) = some (regs 0 4 0 0 0 0 0 0, flagsOf [], 2) := by
  decide

theorem test_loop :
    after1 (scalarAt 8 [0xE2, 0xFC] 0) = some (regs 0 0xFFFF 0 0 0 0 0 0, flagsOf [], 6) ∧
    after1 (scalar [0xE2, 0x10] (regs 0 1 0 0 0 0 0 0)) = some (Regs.zero, flagsOf [], 2) := by
  decide

theorem test_jcxz :
    after1 (scalar [0xE3, 0x10]) = some (Regs.zero, flagsOf [], 0x12) ∧
    after1 (scalar [0xE3, 0x10] (regs 0 0x100 0 0 0 0 0 0)) = some (regs 0 0x100 0 0 0 0 0 0, flagsOf [], 2) := by
  decide

/-! ### The ALU: rows of section 2.4 -/

theorem test_alu_add :
    addAlu .lowByte (0x7F : Byte) 0x01 = (0x80, flagsOf [.AF, .SF, .OF]) ∧
    addAlu .lowByte (0x80 : Byte) 0x80 = (0x00, flagsOf [.CF, .PF, .ZF, .OF]) ∧
    addAlu .lowByte (0x8000 : Word) 0xFFFF = (0x7FFF, flagsOf [.CF, .PF, .OF]) ∧
    addAlu .fullWidth (0x00FF : Word) 0x0100 = (0x01FF, flagsOf []) := by
  decide

theorem test_alu_sub :
    subAlu .lowByte (0x80 : Byte) 0x01 = (0x7F, flagsOf [.AF, .OF]) ∧
    subAlu .lowByte (0x7F : Byte) 0xFF = (0x80, flagsOf [.CF, .SF, .OF]) ∧
    subAlu .lowByte (0x0062 : Word) 0x0063 = (0xFFFF, flagsOf [.CF, .PF, .AF, .SF]) ∧
    subAlu .fullWidth (0x8000 : Word) 0x0001 = (0x7FFF, flagsOf [.AF, .OF]) := by
  decide

/-! ### Errors: rows of sections 2.1, 2.6 and 2.7 -/

theorem test_decode_errors :
    ([([0x90], .decodeError, 0, 0x90), ([0xF4], .decodeError, 0, 0xF4), ([0x26, 0x8B, 0x07], .decodeError, 0, 0x26),
      ([0x80, 0x08], .decodeError, 1, 0x08), ([0xC7, 0x08, 0x01], .decodeError, 1, 0x08),
      ([0xB8, 0x34], .inputTruncated, 0, 0xB8), ([0x83], .inputTruncated, 0, 0x83),
      ([0x8B, 0x06], .inputTruncated, 0, 0x8B), ([0xA1, 0xFF], .inputTruncated, 0, 0xA1)] :
      List (List Byte × ErrKind × Word × Byte)).all
      (fun r => report1 (scalar r.1) == some (.error, r.2.1, r.2.2.1, r.2.2.2)) = true := by
  decide

theorem test_vector_refuses_memory :
    report1 (vector [0x8B, 0x07] [(Regs.zero, [])]) = some (.error, .unsupportedInstruction, 0, 0x8B) := by
  decide

/-! ### The decode-only sweep and the vector engine -/

/-- The first two records of P1 (section 3). -/
theorem test_sweep :
    (nextOf (step { running 0 [0xB9, 0x03, 0x00, 0xB8, 0x00, 0x00] with dpos := 3 })).map (fun t => (t.out, t.dpos)) =
      some ([(3, ⟨.mov, .data .word (.reg 0) (.imm 0), 3, 3, 0xB8⟩)], 6) := by
  decide

/-- The bytes of P3V (section 3). -/
def p3 : List Byte := [0x39, 0xE5, 0x72, 0x03, 0xB8, 0x01, 0x00, 0x29, 0xE5]

/-- Step 1 of P3V: the compare in both lanes. -/
theorem test_vector_compare :
    (nextOf (step (vector p3 [(regs 0 0 0 0 0x63 0x62 0 0, []), (regs 0 0 0 0 0x63 0x64 0 0, [])]))).map
      (fun t => (t.vip, t.lanes[0].flags, t.lanes[1].flags)) =
      some (2, flagsOf [.CF, .PF, .AF, .SF], flagsOf []) := by
  decide

/-- Step 2 of P3V: the divergence that parks lane 0 at 0007. -/
theorem test_vector_divergence :
    (nextOf (step { vector p3 [(Regs.zero, [.CF]), (Regs.zero, [])] with vip := 2 })).map
      (fun t => (t.vip, t.lanes[0].took, t.lanes[1].took)) = some (4, true, false) ∧
    (nextOf (step { vector p3 [(Regs.zero, [.CF]), (Regs.zero, [])] with vip := 2 })).map
      (fun t => t.pstack.map fun e => (e.resume, e.pred[0], e.pred[1], e.pred[2])) =
      some [(7, false, true, true)] := by
  decide

/-- T = F (section 2.6): no push, but the outcome is latched. -/
theorem test_vector_jump_to_next :
    (nextOf (step (vector [0x74, 0x00, 0xB0, 0x01] [(Regs.zero, [.ZF]), (Regs.zero, [])]))).map
      (fun t => (t.vip, t.pstack, t.lanes[0].took, t.lanes[1].took)) = some (2, [], true, false) := by
  decide

/-- The empty program (section 2.6): both lanes are done and the run ends. -/
theorem test_vector_empty_program :
    (nextOf (step (vector [] [(Regs.zero, []), (Regs.zero, [])]))).map
      (fun t => (t.runState, t.lanes[0].done, t.lanes[1].done, t.lanes[2].done, t.lanes[0].ipFinal)) =
      some (.done, true, true, false, 0) := by
  decide

/-! ### The host: rows of section 2.7 -/

theorem test_host_registers :
    replyOf (hostMove (.readCsr 0) State.reset) = some (.word 0x0081) ∧
    replyOf (hostMove (.readCsr 2) State.reset) = some (.word 0) ∧
    ((movedTo (hostMove (.writeFlags .scalar 0xFFFF) State.reset)).bind fun t =>
      replyOf (hostMove (.readFlags .scalar) t)) = some (.word 0x08D5) := by
  decide

theorem test_host_start :
    ((movedTo (hostMove (.writeCsr 0 0x0083) State.reset)).bind fun t => movedTo (hostMove .start t)).map
      (fun t => (t.runState, t.errKind, t.errOffset, t.errByte)) = some (.error, .configError, 0, 0x83) ∧
    ((movedTo (hostMove (.writeCsr 0 0x0002) State.reset)).bind fun t => movedTo (hostMove .start t)).map
      (fun t => (t.runState, t.errKind, t.errByte)) = some (.error, .configError, 0x02) ∧
    ((movedTo (hostMove (.writeCsr 0 0x0001) State.reset)).bind fun t => movedTo (hostMove .start t)).map
      (fun t => (t.runState, t.ip)) = some (.running, 0) ∧
    ((movedTo (hostMove .start State.reset)).bind fun t => nextOf (step t)).map (fun t => t.runState) = some .done := by
  decide

/-! ### Witnesses: for each obligation with hypotheses, states and operands that meet them together -/

/-- The instruction that decodes at an offset. -/
def instrAt (s : State) (off : Word) : Option Instr :=
  match s.decodeAt off with
  | .ok (i, _) => some i
  | .error _ => none

theorem fetches_of_instrAt {s : State} {off : Word} {i : Instr} (h : off < s.progLen) (hi : instrAt s off = some i) :
    s.fetches off i := by
  refine ⟨h, ?_⟩
  unfold instrAt at hi
  split at hi
  · next r hd => exact ⟨r, hd ▸ Option.some.inj hi ▸ rfl⟩
  · cases hi

theorem eq_ok_of_decoded {bytes : List Byte} {i : Instr} (h : decoded bytes = some i) : decodeList bytes = .ok (i, []) := by
  unfold decoded at h
  split at h
  · next hd => rw [hd, Option.some.inj h]
  · cases h
  · cases h

/-- A DECODE_ONLY run at the start of `bytes`. -/
def sweep (bytes : List Byte) : State := running 0x80 bytes

/-- P3V before its fourth step: lane 0 parked at 0007, lane 1 active there. -/
def merging : State :=
  { vector p3 [(Regs.zero, [.CF]), (Regs.zero, [])] with
    vip := 7
    pstack := [⟨7, Vector.ofFn fun l : Lane => decide (l.val ≠ 0)⟩] }

/-- P5 where lane 1 has reached the end and lane 0 is parked at 0007: `cmp ax, 0; je $+4; jne $+4; mov bh, 9; mov bl, 7`. -/
def skipped : State :=
  { vector [0x3D, 0, 0, 0x74, 2, 0x75, 2, 0xB7, 9, 0xB3, 7] [(Regs.zero, [.ZF]), (Regs.zero, [])] with
    vip := 11
    pstack := [⟨7, Vector.ofFn fun l : Lane => decide (l.val ≠ 0)⟩] }

theorem merging_inv : merging.VectorInv := ⟨by decide, by decide, by decide, by decide⟩

theorem skipped_inv : skipped.VectorInv := ⟨by decide, by decide, by decide, by decide⟩

theorem witness_DecodeInvertsEncode :
    (Instr.movRmImm .word (.direct 0xFFFF) 0xFFFF).wf = true ∧ (Instr.cmpRmImm (.disp8 .bp 0x80) (.op83 0x80)).wf = true := by
  decide

theorem witness_DecodedBytesAreItsEncoding :
    decodeList [0x8B, 0x06, 0x34, 0x12] = .ok (.movRmReg true .word (.direct 0x1234) 0, []) :=
  eq_ok_of_decoded (by decide)

/-- The bytes on either side of admitted ranges: 06 and E4 are not admitted, 05 and E3 are. -/
theorem witness_IllegalFirstByteRaisesDecodeError :
    (Fetching (scalar [0x06]) ∧ ¬ Admitted ((scalar [0x06]).fetchByte (pointer (scalar [0x06])).toNat)) ∧
    (Fetching (vector [0xE4] [(Regs.zero, [])]) ∧
      ¬ Admitted ((vector [0xE4] [(Regs.zero, [])]).fetchByte (pointer (vector [0xE4] [(Regs.zero, [])])).toNat)) ∧
    (Fetching (sweep [0x90]) ∧ ¬ Admitted ((sweep [0x90]).fetchByte (pointer (sweep [0x90])).toNat)) ∧
    Admitted 0x05 ∧ Admitted 0xE3 := by
  refine ⟨⟨⟨by decide, by decide, by decide⟩, ?_⟩, ⟨⟨by decide, by decide, by decide⟩, ?_⟩,
    ⟨⟨by decide, by decide, by decide⟩, ?_⟩, ?_, ?_⟩ <;> unfold Admitted <;> decide

theorem witness_IllegalSubOpcodeRaisesDecodeError :
    (Fetching (scalar [0x83, 0xF0]) ∧ (pointer (scalar [0x83, 0xF0])).toNat + 1 < (scalar [0x83, 0xF0]).progLen.toNat ∧
      ((scalar [0x83, 0xF0]).fetchByte 1).toNat / 8 % 8 = 6) ∧
    (Fetching (sweep [0xC7, 0x08]) ∧ (pointer (sweep [0xC7, 0x08])).toNat + 1 < (sweep [0xC7, 0x08]).progLen.toNat ∧
      ((sweep [0xC7, 0x08]).fetchByte 1).toNat / 8 % 8 = 1) ∧
    decode 0x80 [0xF8, 0x05] = .ok (.cmpRmImm (.reg 0) (.op80 5), []) ∧
    decode 0xC6 [0xC0, 0x07] = .ok (.movRmImm .byte (.reg 0) 7, []) :=
  ⟨⟨⟨by decide, by decide, by decide⟩, by decide, by decide⟩, ⟨⟨by decide, by decide, by decide⟩, by decide, by decide⟩,
    eq_ok_of_decoded (bytes := [0x80, 0xF8, 0x05]) (by decide), eq_ok_of_decoded (bytes := [0xC6, 0xC0, 0x07]) (by decide)⟩

/-- Programs that end after the first byte, and one byte before the end, of a six-byte instruction. -/
theorem witness_TruncatedInstructionRaisesInputTruncated :
    ∀ k ∈ [1, 5], ∃ (s : State) (i : Instr), Fetching s ∧ i.wf = true ∧ 0 < k ∧ k < i.len ∧
      s.progLen.toNat = (pointer s).toNat + k ∧ FetchReads s (pointer s).toNat ((encode i).take k) := by
  intro k hk
  refine ⟨scalar ((encode (.movRmImm .word (.direct 0x1000) 0x1234)).take k), .movRmImm .word (.direct 0x1000) 0x1234, ?_⟩
  simp only [List.mem_cons, List.not_mem_nil, or_false] at hk
  unfold FetchReads
  rcases hk with rfl | rfl <;> exact ⟨⟨by decide, by decide, by decide⟩, by decide, by decide, by decide, by decide, by decide⟩

theorem witness_DecodedLengthFollowsTable :
    decode 0xC7 [0x06, 0x00, 0x10, 0x34, 0x12] = .ok (.movRmImm .word (.direct 0x1000) 0x1234, []) :=
  eq_ok_of_decoded (bytes := [0xC7, 0x06, 0x00, 0x10, 0x34, 0x12]) (by decide)

theorem witness_StepExecutesDecodedInstruction :
    ((scalar [0xB0, 0x07]).runningIn .scalar ∧ (scalar [0xB0, 0x07]).fetches 0 (.movRegImm .byte 0 7)) ∧
    (merging.runningIn .vector ∧ merging.fetches merging.vip (.subRmReg false .word (.reg 5) 4)) :=
  ⟨⟨by decide, fetches_of_instrAt (by decide) (by decide)⟩, by decide, fetches_of_instrAt (by decide) (by decide)⟩

theorem witness_StepExecutesEncodedInstruction :
    ((scalar [0xB0, 0x07]).runState = .running ∧ (scalar [0xB0, 0x07]).mode = .scalar ∧
      (pointer (scalar [0xB0, 0x07])).toNat + (Instr.movRegImm .byte 0 7).len ≤ (scalar [0xB0, 0x07]).progLen.toNat ∧
      FetchReads (scalar [0xB0, 0x07]) 0 (encode (.movRegImm .byte 0 7))) ∧
    (merging.runState = .running ∧ merging.mode = .vector ∧ (pointer merging).toNat + 2 ≤ merging.progLen.toNat ∧
      FetchReads merging 7 (encode (.subRmReg false .word (.reg 5) 4))) := by
  unfold FetchReads
  decide

theorem witness_ScalarRunEndsPastProgram :
    { scalar [0xB0, 0x07] with ip := 2 }.runningIn .scalar ∧
    { scalar [0xB0, 0x07] with ip := 2 }.progLen ≤ { scalar [0xB0, 0x07] with ip := 2 }.ip := by
  decide

theorem witness_StepFollowsRunStateMachine :
    (State.reset.runState ≠ .running ∧ ∃ t, step State.reset = .next t) ∧
    ((scalar [0xB0]).runState = .running ∧ ∃ t, step (scalar [0xB0]) = .next t ∧ t.runState = .error) ∧
    ((scalar []).runState = .running ∧ ∃ t, step (scalar []) = .next t ∧ t.runState = .done) := by
  refine ⟨⟨by decide, exists_next (by decide)⟩, ⟨by decide, ?_⟩, ⟨by decide, ?_⟩⟩
  · obtain ⟨t, ht⟩ := exists_next (o := step (scalar [0xB0])) (by decide)
    refine ⟨t, ht, ?_⟩
    have h : (nextOf (step (scalar [0xB0]))).map State.runState = some .error := by decide
    rw [ht] at h
    exact Option.some.inj h
  · obtain ⟨t, ht⟩ := exists_next (o := step (scalar [])) (by decide)
    refine ⟨t, ht, ?_⟩
    have h : (nextOf (step (scalar []))).map State.runState = some .done := by decide
    rw [ht] at h
    exact Option.some.inj h

theorem witness_SweepStepAppendsRecord :
    ((sweep [0xB0, 0x07]).runningIn .decodeOnly ∧ (sweep [0xB0, 0x07]).fetches 0 (.movRegImm .byte 0 7)) ∧
    ((sweep []).runningIn .decodeOnly ∧ (sweep []).progLen ≤ (sweep []).dpos) :=
  ⟨⟨by decide, fetches_of_instrAt (by decide) (by decide)⟩, by decide, by decide⟩

theorem witness_SweepListsWholeProgram :
    let p : List Instr := [.movRegImm .word 1 3, .addRmReg false .word (.reg 0) 1, .loop 0xFC]
    let s := sweep (programBytes p)
    s.runningIn .decodeOnly ∧ s.dpos = 0 ∧ s.out = [] ∧ (∀ i ∈ p, i.wf = true) ∧
      s.progLen.toNat = (programBytes p).length ∧ FetchReads s 0 (programBytes p) := by
  unfold FetchReads
  decide

theorem witness_FetchSourceDecidesWhetherStoresAreSeen :
    (State.resetWith ⟨.lowByte, .programBuffer⟩).cfg.codeFetchSource = .programBuffer ∧
    State.reset.cfg.codeFetchSource = .memory ∧ (scalar [0xB0, 0x07]).mem.wf := by
  decide

theorem witness_ErrorsArePrecise :
    ∃ s t : State, s.runState = .running ∧ step s = .next t ∧ t.runState = .error ∧
      t.errKind = .unsupportedInstruction := by
  obtain ⟨t, ht⟩ := exists_next (o := step (vector [0x8B, 0x07] [(Regs.zero, [])])) (by decide)
  have h : (nextOf (step (vector [0x8B, 0x07] [(Regs.zero, [])]))).map (fun t => (t.runState, t.errKind)) =
      some (.error, .unsupportedInstruction) := by decide
  rw [ht] at h
  have h := Option.some.inj h
  exact ⟨_, t, by decide, ht, congrArg Prod.fst h, congrArg Prod.snd h⟩

/-- The same state meets the hypotheses of this one. -/
theorem witness_UnsupportedIsRaisedForVectorMemoryOperandsOnly :
    ∃ s t : State, s.runState = .running ∧ step s = .next t ∧ t.runState = .error ∧
      t.errKind = .unsupportedInstruction := witness_ErrorsArePrecise

theorem witness_AluFlagsIgnorePriorFlags :
    (scalar []).mode = .scalar ∧ (Instr.movRegImm .byte 0 7).cls = .mov ∧ (Instr.addAccImm .byte 7).cls = .add ∧
    (Instr.subAccImm .byte 7).cls = .sub ∧ (Instr.cmpAccImm .byte 7).cls = .cmp ∧
    ¬ ((Instr.loop 7).cls = .add ∨ (Instr.loop 7).cls = .sub ∨ (Instr.loop 7).cls = .cmp) := by
  decide

theorem witness_OnlyArithmeticWritesFlags :
    (∃ t, exec (.movRegImm .byte 0 7) (scalar []) = .next t) ∧ (∃ t, exec (.loop 0) merging = .next t) ∧
    (Instr.movRegImm .byte 0 7).cls ≠ .add ∧ (Instr.loop 0).cls ≠ .sub ∧ (Instr.loop 0).cls ≠ .cmp :=
  ⟨exists_next (by decide), exists_next (by decide), by decide, by decide, by decide⟩

/-- Byte indices 3 and 4, where the two ranges meet, and the boundary 7. -/
theorem witness_ByteRegistersAreViews :
    (3 : RegIdx).val < 4 ∧ 4 ≤ (4 : RegIdx).val ∧ (0 : RegIdx).val + 4 = (4 : RegIdx).val ∧
    (3 : RegIdx).val + 4 = (7 : RegIdx).val ∧ (4 : RegIdx) ≠ 0 := by
  decide

/-- The address FFFF, whose second byte is at 0000. -/
theorem witness_MemoryAccessIsLittleEndian :
    (scalar [0xB0, 0x07]).mem.wf ∧ (0x0000 : Word).toNat = ((0xFFFF : Word).toNat + 1) % 65536 := by
  decide

theorem witness_FlagsImagePacksSixFlags :
    State.reset.runState ≠ .running ∧ Target.scalar ≠ .lane 31 ∧ Target.lane 0 ≠ .lane 31 := by
  decide

/-- Every mod field; with mod = 00, rm = 110 on either side of its hole; disp8 at its least value. -/
theorem witness_EffectiveAddressIsSumModulo64K :
    ([.reg 7, .direct 0xFFFF, .noDisp .di, .noDisp .bx, .disp8 .bp 0x80, .disp16 .bxSi 0x8000] : List RmOperand).all
      RmOperand.wf = true := by
  decide

/-- The displacement of `mov ax, [bp - 2]` (`8B 46 FE`) is sign-extended, its rm field 110 is BP (R85, R87). -/
theorem test_rm_operand_bytes :
    RmBytes (w := .word) (.movRmReg true .word (.disp8 .bp 0xFE) 0) 0 (.mem ⟨some .bp, none, 0xFFFE, false⟩) :=
  ⟨1, 6, [0xFE], [], rfl, rfl⟩

/-- A SCALAR state with canonical memory: the hypotheses of `Moves`, `Adds`, `Subtracts` and `Compares`. -/
theorem witness_MovCopiesSourceToDestination : (scalar [0xB0, 0x07]).mode = .scalar ∧ (scalar [0xB0, 0x07]).mem.wf := by
  decide

theorem witness_AddWritesSumAndFlags : (scalar [0x04, 0x07]).mode = .scalar ∧ (scalar [0x04, 0x07]).mem.wf := by decide

theorem witness_SubWritesDifferenceAndFlags : (scalar [0x2C, 0x07]).mode = .scalar ∧ (scalar [0x2C, 0x07]).mem.wf := by
  decide

theorem witness_CmpSetsFlagsAndWritesNothing : (scalar [0x3C, 0x07]).mode = .scalar := by decide

/-- SCALAR states in which a condition holds and does not hold, for both clauses of `Jumps`. -/
theorem witness_JumpsOnOverflowCarryAndZero :
    (scalar [] Regs.zero [.OF]).mode = .scalar ∧ (scalar [] Regs.zero [.OF]).flags.of = true ∧
    (scalar []).mode = .scalar ∧ (scalar []).flags.of = false := by
  decide

theorem witness_JumpsOnSignAndParity :
    (scalar [] Regs.zero [.SF]).mode = .scalar ∧ (scalar [] Regs.zero [.SF]).flags.sf = true ∧
    (scalar []).mode = .scalar ∧ (scalar []).flags.sf = false := by
  decide

/-- CX 0 (which becomes FFFF) and CX 1 (which becomes 0), for both clauses of `LoopJumps`. -/
theorem witness_LoopJumpsDecrementCx :
    (scalar []).mode = .scalar ∧ readWord (decCx (scalar []).x) 1 = 0xFFFF ∧
    (scalar [] (regs 0 1 0 0 0 0 0 0)).mode = .scalar ∧ readWord (decCx (scalar [] (regs 0 1 0 0 0 0 0 0)).x) 1 = 0 := by
  decide

theorem witness_JcxzTestsCx :
    (scalar []).mode = .scalar ∧ (readWord (scalar []).x 1).toNat = 0 ∧
    (scalar [] (regs 0 0x100 0 0 0 0 0 0)).mode = .scalar ∧ (readWord (scalar [] (regs 0 0x100 0 0 0 0 0 0)).x 1).toNat ≠ 0 := by
  decide

theorem witness_ConditionsComeInNegatedPairs :
    (14 : Fin 16).val % 2 = 0 ∧ (15 : Fin 16).val = (14 : Fin 16).val + 1 ∧ (0 : Fin 16).val % 2 = 0 ∧
    (1 : Fin 16).val = (0 : Fin 16).val + 1 ∧ (scalar []).mode = .scalar := by
  decide

/-- Two states that agree on the flags, CX and ip and differ in AX and memory. -/
theorem witness_JumpsReadOnlyFlagsAndCx :
    (Instr.loop 0xFE).operands = .jump (.imm 0xFE) ∧ (scalar [0xE2, 0xFE] (regs 0 5 0 0 0 0 0 0)).mode = .scalar ∧
    (scalar [] (regs 9 5 0 0 0 0 0 0)).mode = .scalar ∧
    (scalar [0xE2, 0xFE] (regs 0 5 0 0 0 0 0 0)).flags = (scalar [] (regs 9 5 0 0 0 0 0 0)).flags ∧
    readWord (scalar [0xE2, 0xFE] (regs 0 5 0 0 0 0 0 0)).x 1 = readWord (scalar [] (regs 9 5 0 0 0 0 0 0)).x 1 ∧
    (scalar [0xE2, 0xFE] (regs 0 5 0 0 0 0 0 0)).ip = (scalar [] (regs 9 5 0 0 0 0 0 0)).ip := by
  decide

/-- CX 0, the case of 65536 executions, and CX 2. -/
theorem witness_LoopToItselfCountsCxDown :
    (scalar [0xE2, 0xFE]).mode = .scalar ∧ (readWord (scalar [0xE2, 0xFE]).x 1).toNat = 0 ∧
    (scalar [0xE2, 0xFE] (regs 0 2 0 0 0 0 0 0)).mode = .scalar ∧
    (readWord (scalar [0xE2, 0xFE] (regs 0 2 0 0 0 0 0 0)).x 1).toNat = 2 := by
  decide

theorem witness_ScalarInstructionsTouchOnlyScalarState : (scalar [0xB0, 0x07]).mode = .scalar ∧ (scalar [0xB0, 0x07]).mem.wf := by
  decide

theorem scalar_inv : (scalar [0xB0, 0x07]).Inv := ⟨by decide, by decide, by decide, by decide⟩

theorem witness_StepKeepsInvariant : (scalar [0xB0, 0x07]).Inv ∧ ∃ t, step (scalar [0xB0, 0x07]) = .next t :=
  ⟨scalar_inv, exists_next (by decide)⟩

theorem witness_HostMoveKeepsInvariant :
    State.reset.Inv ∧ ∃ t r, hostMove (.load [0xB0, 0x07]) State.reset = .moved t r :=
  ⟨⟨by decide, by decide, by decide, by decide⟩, _, _, rfl⟩

/-- A run in progress that the host starts after RESET and LOAD. -/
theorem witness_ReachableRunsNeverStop : ∃ s, Reachable s ∧ s.runState = .running :=
  ⟨(State.reset.load [0xB0, 0x07]).start,
    .host (op := .start) (.host (op := .load [0xB0, 0x07]) (.reset Config.default) rfl) rfl, by decide⟩

/-- A sweep with one record behind it. -/
def swept : State :=
  { sweep [0xB0, 0x07, 0xB0, 0x07] with out := [(0, (Instr.movRegImm .byte 0 7).record 0)], dpos := 2 }

theorem witness_SweepKeepsStreamOrdered :
    swept.runningIn .decodeOnly ∧ swept.SweepInv ∧ ∃ t, step swept = .next t :=
  ⟨by decide, ⟨by decide, by decide, by decide⟩, exists_next (by decide)⟩

/-- Lane 0 is active, lane 2 takes no part. -/
theorem witness_VectorDataAppliesScalarRulePerLane :
    merging.mode = .vector ∧ (Instr.subRmReg false .word (.reg 5) 4).hasMem = false ∧
    (Instr.subRmReg false .word (.reg 5) 4).cls = .sub ∧ ActiveHere merging 0 ∧ ¬ ActiveHere merging 2 := by
  unfold ActiveHere
  decide

theorem witness_VectorRefusesMemoryOperands :
    ((vector [0x8B, 0x07] [(Regs.zero, [])]).runningIn .vector ∧
      (vector [0x8B, 0x07] [(Regs.zero, [])]).fetches 0 (.movRmReg true .word (.noDisp .bx) 0) ∧
      (Instr.movRmReg true .word (.noDisp .bx) 0).hasMem = true) ∧
    (merging.runningIn .vector ∧ merging.fetches merging.vip (.subRmReg false .word (.reg 5) 4) ∧
      (Instr.subRmReg false .word (.reg 5) 4).hasMem = false) ∧
    (Instr.jne 5).operands = .jump (.imm 5) :=
  ⟨⟨by decide, fetches_of_instrAt (by decide) (by decide), by decide⟩,
    ⟨by decide, fetches_of_instrAt (by decide) (by decide), by decide⟩, by decide⟩

/-- At `je` on two lanes: no lane jumps; all jump; they diverge with T < F (rel FE) and with T > F (rel 03); T = F. -/
theorem witness_VectorJumpDiverges :
    let none := vector p3 [(Regs.zero, []), (Regs.zero, [])]
    let all := vector p3 [(Regs.zero, [.ZF]), (Regs.zero, [.ZF])]
    let one := vector p3 [(Regs.zero, [.ZF]), (Regs.zero, [])]
    (Instr.je 3).operands = .jump (.imm 3) ∧ none.mode = .vector ∧ all.mode = .vector ∧ one.mode = .vector ∧
    (∀ l, ActiveHere none l → none.lanes[l].flags.zf = false) ∧
    (∀ l, ActiveHere all l → all.lanes[l].flags.zf = true) ∧
    (ActiveHere one 0 ∧ one.lanes[0].flags.zf = true) ∧ (ActiveHere one 1 ∧ one.lanes[1].flags.zf = false) ∧
    target one.vip 3 = 5 ∧ after one.vip 2 = 2 ∧ target one.vip 0xFE < after one.vip 2 ∧ target one.vip 0 = after one.vip 2 := by
  unfold ActiveHere
  decide

theorem witness_MergeReactivatesLanesParkedAtVip :
    merging.VectorInv ∧ (∃ e ∈ merging.pstack, e.pred[0] = false ∧ e.resume = merging.vip) ∧
    skipped.VectorInv ∧ (∃ e ∈ skipped.pstack, e.resume ≠ skipped.vip) :=
  ⟨merging_inv, by decide, skipped_inv, by decide⟩

/-- The end of the last group, and of a group with another one parked. -/
theorem witness_GroupEndFinishesActiveLanes :
    ({ merging with vip := 9, pstack := [] }.runningIn .vector ∧ { merging with vip := 9, pstack := [] }.progLen ≤ 9 ∧
      { merging with vip := 9, pstack := [] }.mergedStack = []) ∧
    (skipped.runningIn .vector ∧ skipped.progLen ≤ skipped.vip ∧ skipped.mergedStack ≠ []) ∧
    ActiveHere skipped 1 ∧ ¬ ActiveHere skipped 0 := by
  unfold ActiveHere
  decide

/-- LANES = 1 and LANES = 32. -/
theorem witness_VectorStartActivatesEveryLane :
    ∀ c ∈ ([0x06, 0x82] : List Byte), { State.reset with ctrl := c }.mode = .vector ∧
      1 ≤ { State.reset with ctrl := c }.laneCount ∧ { State.reset with ctrl := c }.laneCount ≤ 32 ∧
      ∃ t r, hostMove .start { State.reset with ctrl := c } = .moved t r := by
  intro c hc
  simp only [List.mem_cons, List.not_mem_nil, or_false] at hc
  rcases hc with rfl | rfl <;> exact ⟨by decide, by decide, by decide, _, _, rfl⟩

/-- A merging step, and a group end that leaves another group. -/
theorem witness_StepKeepsVectorInvariant :
    ∀ s ∈ [merging, skipped], s.runningIn .vector ∧ s.VectorInv ∧ ∃ t, step s = .next t ∧ t.runState = .running := by
  intro s hs
  have hi : s.VectorInv := by
    rcases List.mem_cons.1 hs with rfl | hs
    · exact merging_inv
    · rw [List.mem_singleton.1 hs]
      exact skipped_inv
  have hr : ∀ s ∈ [merging, skipped], s.runningIn .vector := by decide
  have hn : ∀ s ∈ [merging, skipped], (nextOf (step s)).map State.runState = some .running := by decide
  obtain ⟨t, ht⟩ := Option.isSome_iff_exists.1 (show (nextOf (step s)).isSome = true by
    have := congrArg Option.isSome (hn s hs)
    simpa using this)
  refine ⟨hr s hs, hi, t, eq_next ht, ?_⟩
  have h := hn s hs
  rw [ht] at h
  exact Option.some.inj h

/-- The last step of a run: lane 0 done, lane 1 active at the end. -/
def ending : State :=
  { vector [0xB0, 0x07] [(Regs.zero, []), (Regs.zero, [])] with
    vip := 2
    lanes := (vector [] [(Regs.zero, []), (Regs.zero, [])]).lanes.set 0 ⟨Regs.zero, Flags.zero, false, true, 2⟩ }

theorem ending_inv : ending.VectorInv := ⟨by decide, by decide, by decide, by decide⟩

theorem witness_PredicateStackStaysBelowLaneCount :
    merging.VectorInv ∧ ending.runningIn .vector ∧ ending.VectorInv ∧
      ∃ t, step ending = .next t ∧ t.runState = .done := by
  refine ⟨merging_inv, by decide, ending_inv, ?_⟩
  obtain ⟨t, ht⟩ := exists_next (o := step ending) (by decide)
  refine ⟨t, ht, ?_⟩
  have h : (nextOf (step ending)).map State.runState = some .done := by decide
  rw [ht] at h
  exact Option.some.inj h

/-- A lane that executes (lane 0 of `merging`), one that does not (lane 0 of `skipped`), and one that ends. -/
theorem witness_VectorStepIsScalarStepOfEachActiveLane :
    (merging.takesPart 0 ∧ ActiveHere merging 0 ∧ merging.vip < merging.progLen) ∧
    (skipped.takesPart 0 ∧ ¬ ActiveHere skipped 0) ∧ (skipped.takesPart 1 ∧ ¬ skipped.vip < skipped.progLen) ∧
    ∀ s ∈ [merging, skipped], s.runningIn .vector ∧ s.VectorInv ∧ ∃ t, step s = .next t ∧ t.runState ≠ .error := by
  refine ⟨by unfold ActiveHere; decide, by unfold ActiveHere; decide, by decide, fun s hs => ?_⟩
  obtain ⟨h1, h2, t, h3, h4⟩ := witness_StepKeepsVectorInvariant s hs
  exact ⟨h1, h2, t, h3, by rw [h4]; decide⟩

/-- The end of a memory-free scalar run of at most `k` instructions. -/
def memoryFreeEnd : Nat → State → Option State
  | 0, _ => none
  | k + 1, s =>
    if s.progLen ≤ s.ip then some s.finish
    else
      match instrAt s s.ip with
      | none => none
      | some i => if i.hasMem then none else (nextOf (exec i s)).bind (memoryFreeEnd k)

theorem memoryFreeEnd_sound {k : Nat} {s u : State} (hr : s.runState = .running) (hm : s.mode = .scalar)
    (h : memoryFreeEnd k s = some u) : MemoryFreeRun s u := by
  induction k generalizing s with
  | zero => cases h
  | succ k ih =>
    simp only [memoryFreeEnd] at h
    split at h
    · next hl =>
      cases h
      exact .done ⟨hr, hm⟩ hl
    · next hl =>
      split at h
      · cases h
      · next i hi =>
        split at h
        · cases h
        · next hmem =>
          obtain ⟨t, ht, h⟩ := Option.bind_eq_some_iff.1 h
          have hx := eq_next ht
          have hf := fetches_of_instrAt (BitVec.not_le.1 hl) hi
          have hs : step s = .next t := by
            obtain ⟨_, r, hd⟩ := hf
            rw [step_scalar hr hm, scalarStep, if_neg hl, hd]
            exact hx
          have ht' : t.runState = .running ∧ t.mode = .scalar := by
            obtain ⟨_, _, _, _, he⟩ | ⟨_, _, _, he⟩ := exec_scalar (i := i) (s := s) (by rw [hm]; decide) <;>
              rw [he] at hx <;> cases hx <;> exact ⟨by rw [State.withScalar_runState, hr], by rw [State.withScalar_mode, hm]⟩
          exact .step ⟨hr, hm⟩ hf (by simpa using hmem) hs (ih ht'.1 ht'.2 h)

/-- P3V from its start: both lanes' scalar runs end and touch no memory, and they part at the jump. -/
theorem witness_VectorRunEqualsScalarRuns :
    let s := vector p3 [(regs 0 0 0 0 0x63 0x62 0 0, []), (regs 0 0 0 0 0x63 0x64 0 0, [])]
    s.runningIn .vector ∧ 1 ≤ s.laneCount ∧ s.laneCount ≤ 32 ∧ s.vip = 0 ∧ s.pstack = [] ∧
      (∀ l : Lane, s.takesPart l → s.lanes[l].done = false) ∧
      (∀ l : Lane, s.takesPart l → ∃ u, MemoryFreeRun (s.laneScalar l) u) := by
  intro s
  refine ⟨by decide, by decide, by decide, by decide, by decide, by decide, fun l hl => ?_⟩
  have h : ∀ l : Lane, s.takesPart l → (memoryFreeEnd 6 (s.laneScalar l)).isSome = true := by decide
  obtain ⟨u, hu⟩ := Option.isSome_iff_exists.1 (h l hl)
  exact ⟨u, memoryFreeEnd_sound rfl (modeOf_setScalar _) hu⟩

/-- `mov ax, [bx]` on one lane, for the clause on memory operands. -/
theorem witness_VectorRunEqualsScalarRuns_memory :
    let s := vector [0x8B, 0x07] [(Regs.zero, [])]
    s.runningIn .vector ∧ s.VectorInv ∧ ActiveHere s 0 ∧
      (s.laneScalar 0).fetches (s.laneScalar 0).ip (.movRmReg true .word (.noDisp .bx) 0) ∧
      (Instr.movRmReg true .word (.noDisp .bx) 0).hasMem = true := by
  intro s
  exact ⟨by decide, ⟨by decide, by decide, by decide, by decide⟩, by unfold ActiveHere; decide,
    fetches_of_instrAt (by decide) (by decide), by decide⟩

theorem witness_LanesDoNotInterfere : merging.mode = .vector ∧ (0 : Lane) ≠ 1 := by decide

theorem witness_VectorAndSweepStepsKeepMemoryAndScalarState :
    (merging.runningIn .vector ∧ ¬ merging.takesPart 2 ∧ ∃ t, step merging = .next t) ∧
    (swept.runningIn .decodeOnly ∧ ∃ t, step swept = .next t) :=
  ⟨⟨by decide, by decide, exists_next (by decide)⟩, by decide, exists_next (by decide)⟩

/-- Illegal: MODE 3; VECTOR with LANES 0 and 33. Legal: VECTOR with 1 and 32; SCALAR with 0; DECODE_ONLY with 63. -/
theorem witness_StartChecksConfiguration :
    (scalar []).runState = .running ∧ State.reset.runState ≠ .running ∧
    (([0x83, 0x02, 0x86] : List Byte).all fun c => !configLegal c) = true ∧
    (([0x06, 0x82, 0x01, 0xFC] : List Byte).all configLegal) = true := by
  decide

/-- The empty program, and one byte too many. -/
theorem witness_LoadPlacesProgram :
    State.reset.runState ≠ .running ∧ State.reset.mem.wf ∧ ([] : List Byte).length ≤ 65535 ∧
    65535 < (List.replicate 65536 (0 : Byte)).length := by
  refine ⟨by decide, by decide, by decide, ?_⟩
  rw [List.length_replicate]
  decide

theorem witness_HostMovesOnlyWhileNotRunning :
    (scalar []).runState = .running ∧ HostOp.start ≠ .reset ∧ HostOp.readCsr 3 ≠ .readCsr 2 ∧
    State.reset.runState ≠ .running := by
  decide

theorem witness_ControlRegistersReadBack : State.reset.runState ≠ .running ∧ (1 : Fin 5) ≠ 0 ∧ (4 : Fin 5) ≠ 0 := by
  decide

theorem witness_HostWritesAreReadBack :
    State.reset.runState ≠ .running ∧ State.reset.mem.wf ∧ Target.lane 31 ≠ .scalar ∧ Target.lane 0 ≠ .lane 1 := by
  decide

end Sys2Proof.Tests
end

section
/-! PROOFS. The state's statements (10_state.md): what a step and a host operation change and leave unchanged, and the
block's invariant. -/

namespace Sys2Proof.Machine

open Sys2Proof.Statements

/-! ### The scalar engine as a function of the datapath -/

/-- Outside VECTOR mode an instruction is a function of PF_SCOPE, the datapath and ip alone: it answers a new datapath
and a new ip, reads nothing else and leaves everything else as it was (R36, R136, R139). -/
theorem exec_of_datapath (i : Instr) (sc : PfScope) (p : Datapath) (ip : Word) :
    ∃ q a, (p.mem.wf → q.mem.wf) ∧ ∀ s : State, s.mode ≠ .vector → s.cfg.pfScope = sc → s.datapath = p → s.ip = ip →
      exec i s = .next (s.withScalar q a) := by
  cases ha : action sc i with
  | data eff =>
    obtain ⟨q, hq⟩ := Option.isSome_iff_exists.1 (effect_isSome ha p)
    refine ⟨q, nextSeq ip i.len, fun hp => effect_keeps_wf ha hp hq, ?_⟩
    rintro s hm rfl rfl rfl
    simp [exec_eq_action, ha, dataStep_of_not_vector hm, scalarData_of_some hq]
  | jump rel j =>
    refine ⟨⟨j.regs p.x, p.flags, p.mem⟩,
      if j.taken (j.regs p.x) p.flags then jumpTarget ip i.len rel else nextSeq ip i.len, id, ?_⟩
    rintro s hm rfl rfl rfl
    rw [exec_eq_action, ha]
    exact jumpStep_of_not_vector hm

/-! ### The block's invariant -/

section Invariant

variable {s : State} (h : s.Inv)
include h

/-- Storing a canonical memory with the other scalar results keeps the invariant. -/
theorem State.Inv.withScalar {p : Datapath} (hp : p.mem.wf) (a : Word) : (s.withScalar p a).Inv :=
  ⟨hp, h.progLength, h.configChecked, h.errorReport⟩

theorem State.Inv.withVector (ls : Vector LaneState maxLanes) (st : List PredEntry) (v : Word) :
    (s.withVector ls st v).Inv :=
  ⟨h.memCanonical, h.progLength, h.configChecked, h.errorReport⟩

theorem State.Inv.withSweep (o : List (Word × Record)) (d : Word) : (s.withSweep o d).Inv :=
  ⟨h.memCanonical, h.progLength, h.configChecked, h.errorReport⟩

/-- A run that ends had no error report, so DONE has none either. -/
theorem State.Inv.finish (hr : s.runState = .running) : s.finish.Inv where
  memCanonical := h.memCanonical
  progLength := h.progLength
  configChecked := by simp
  errorReport := by simpa [hr] using h.errorReport

/-- An error with a kind leaves a report in ERROR (R276). -/
theorem State.Inv.raise {k : ErrKind} (hk : k ≠ .none) (o : Word) (b : Byte) : (s.raise k o b).Inv where
  memCanonical := h.memCanonical
  progLength := h.progLength
  configChecked := by simp
  errorReport := by simpa using hk

theorem State.Inv.raiseDecode (start : Word) (e : DecodeFail) : (s.raiseDecode start e).Inv := by
  obtain ⟨k, o, b, he, hk⟩ := raiseDecode_eq_raise s start e
  rw [he]
  exact h.raise (by rintro rfl; simp at hk) o b

theorem State.Inv.groupEnd (hr : s.runState = .running) : (groupEnd s).Inv := by
  obtain ⟨ls, st, v, hg | hg⟩ := groupEnd_eq s <;> rw [hg]
  · exact h.withVector ls st v
  · exact (h.withVector ls st v).finish hr

/-- Executing an instruction keeps the invariant, in either engine. -/
theorem State.Inv.exec {i : Instr} {t : State} (he : exec i s = .next t) : t.Inv := by
  by_cases hv : s.mode = .vector
  · obtain ⟨-, rfl⟩ | ⟨-, ls, st, v, rfl⟩ := exec_vector_eq hv he
    · exact h.raise (by decide) _ _
    · exact h.withVector ls st v
  · obtain ⟨q, a, hq, hs⟩ := exec_of_datapath i s.cfg.pfScope s.datapath s.ip
    rw [hs s hv rfl rfl rfl] at he
    cases he
    exact h.withScalar (hq h.memCanonical) a

/-- Every step keeps the invariant: each of its ends is one of the updates above. -/
theorem State.Inv.step {t : State} (ht : step s = .next t) : t.Inv := by
  obtain ⟨-, rfl⟩ | ⟨hr, ⟨-, hs⟩ | ⟨-, hs⟩ | ⟨-, hs⟩⟩ := step_cases ht
  · exact h
  · obtain ⟨-, rfl⟩ | ⟨-, ⟨e, -, rfl⟩ | ⟨i, r, -, he⟩⟩ := hs
    · exact h.finish hr
    · exact h.raiseDecode _ e
    · exact h.exec he
  · obtain ⟨-, rfl⟩ | ⟨-, ⟨e, -, rfl⟩ | ⟨i, r, -, he⟩⟩ := hs
    · exact h.groupEnd hr
    · exact h.raiseDecode _ e
    · exact h.exec he
  · obtain ⟨-, rfl⟩ | ⟨-, ⟨e, -, rfl⟩ | ⟨i, r, -, rfl⟩⟩ := hs
    · exact h.finish hr
    · exact h.raiseDecode _ e
    · exact h.withSweep _ _

end Invariant

/-- Settles O39: each end of a step is an update that keeps the invariant. -/
theorem stepKeepsInvariant : Obligations.StepKeepsInvariant := by
  unfold Obligations.StepKeepsInvariant
  exact fun s t h ht => h.step ht

/-- Settles O38: RESET leaves an empty memory, an empty program, and the block IDLE without a report. -/
theorem invariantHoldsAfterReset : Obligations.InvariantHoldsAfterReset := by
  unfold Obligations.InvariantHoldsAfterReset
  exact fun c => {
    memCanonical := by simp [Memory.wf]
    progLength := rfl
    configChecked := by simp
    errorReport := by simp }

/-! ### SCALAR mode -/

/-- Settles O37: in both states the instruction is the same function of the datapath and ip. -/
theorem scalarInstructionsTouchOnlyScalarState : Obligations.ScalarInstructionsTouchOnlyScalarState := by
  unfold Obligations.ScalarInstructionsTouchOnlyScalarState
  intro i s hm
  obtain ⟨q, a, hq, hs⟩ := exec_of_datapath i s.cfg.pfScope s.datapath s.ip
  exact ⟨_, hs s (by simp [hm]) rfl rfl rfl, rfl, hq, _, hs _ (show modeOf 1 ≠ .vector by decide) rfl rfl rfl, rfl, rfl⟩

/-! ### Who writes flags -/

/-- The classes that write flags (R27). -/
def WritesFlags (c : Cls) : Prop := c = .add ∨ c = .sub ∨ c = .cmp

theorem movEffect_flags {w : Width} {dst src : Operand w} {p q : Datapath} (h : movEffect dst src p = some q) :
    q.flags = p.flags := by
  obtain ⟨_, _, rfl⟩ | ⟨_, _, rfl⟩ := writeOp_eq_some p h <;> rfl

/-- The effect of a data instruction that is not an ADD, SUB or CMP is a MOV's: it writes its operand and no flag. -/
theorem effect_keeps_flags {sc : PfScope} {i : Instr} {eff : DataEffect} (h : action sc i = .data eff)
    (hc : ¬ WritesFlags i.cls) {p q : Datapath} (hq : eff p = some q) : q.flags = p.flags := by
  cases i with
  | movRmReg | movRmImm | movRegImm | movAccMem | movMemAcc =>
    cases h
    exact movEffect_flags hq
  | addRmReg | addRmImm | addAccImm | subRmReg | subRmImm | subAccImm | cmpRmReg | cmpRmImm | cmpAccImm =>
    exact absurd (by simp [WritesFlags, Instr.cls]) hc
  | _ => cases h

theorem blend_flags {cand lane : LaneState} (h : cand.flags = lane.flags) (b : Bool) :
    (blend b cand lane).flags = lane.flags := by
  cases b
  · rfl
  · exact h

/-- An instruction of a class that writes no flag keeps the flags of the scalar state. -/
theorem exec_keeps_flags {i : Instr} {s t : State} (hc : ¬ WritesFlags i.cls) (he : exec i s = .next t) :
    t.flags = s.flags := by
  by_cases hv : s.mode = .vector
  · obtain ⟨-, rfl⟩ | ⟨-, ls, st, v, rfl⟩ := exec_vector_eq hv he <;> rfl
  · obtain ⟨eff, p, ha, hp, hs⟩ | ⟨rel, j, -, hs⟩ := exec_scalar (i := i) hv <;> rw [hs] at he <;> cases he
    · exact effect_keeps_flags ha hc hp
    · rfl

/-- An instruction of a class that writes no flag keeps the flags of every lane. -/
theorem exec_keeps_lane_flags {i : Instr} {s t : State} (hc : ¬ WritesFlags i.cls) (he : exec i s = .next t) (l : Lane) :
    t.lanes[l].flags = s.lanes[l].flags := by
  by_cases hv : s.mode = .vector
  · obtain ⟨-, hs⟩ | ⟨eff, -, ha, hs⟩ | ⟨rel, j, -, -, hs⟩ := exec_vector (i := i) hv <;> rw [hs] at he <;> cases he
    · rfl
    · obtain ⟨p, hp, hl⟩ := laneCandidate_eq ha l
      rw [State.withVector_lanes, ofFn_lane, hl]
      exact blend_flags (effect_keeps_flags ha hc hp) _
    · rw [vectorJump_lane]
      exact blend_flags rfl _
  · obtain ⟨q, a, -, hs⟩ := exec_of_datapath i s.cfg.pfScope s.datapath s.ip
    rw [hs s hv rfl rfl rfl] at he
    cases he
    rfl

/-- Settles O21: only the effects of ADD, SUB and CMP write flags. -/
theorem onlyArithmeticWritesFlags : Obligations.OnlyArithmeticWritesFlags := by
  unfold Obligations.OnlyArithmeticWritesFlags
  intro i s t ha hs hc he
  have hn : ¬ WritesFlags i.cls := by simp [WritesFlags, ha, hs, hc]
  exact ⟨exec_keeps_flags hn he, exec_keeps_lane_flags hn he⟩

/-! ### VECTOR and DECODE_ONLY steps -/

/-- A lane that takes no part is active under no predicate stack (R243). -/
theorem active_of_not_takesPart {s : State} {l : Lane} (h : ¬ s.takesPart l) (st : List PredEntry) :
    s.active st l = false := by
  simp [State.active, show ¬ l.val < s.laneCount from h]

/-- Executing an instruction leaves a lane that takes no part as it was (R235). -/
theorem exec_lane_of_not_takesPart {i : Instr} {s t : State} {l : Lane} (hv : s.mode = .vector) (h : ¬ s.takesPart l)
    (he : exec i s = .next t) : t.lanes[l] = s.lanes[l] := by
  obtain ⟨-, hs⟩ | ⟨eff, -, -, hs⟩ | ⟨rel, j, -, -, hs⟩ := exec_vector (i := i) hv <;> rw [hs] at he <;> cases he
  · rfl
  · rw [State.withVector_lanes, ofFn_lane, active_of_not_takesPart h, blend_false]
  · rw [vectorJump_lane, active_of_not_takesPart h, blend_false]

/-- The end of a group leaves a lane that takes no part as it was (R241). -/
theorem groupEnd_lane_of_not_takesPart {s : State} {l : Lane} (h : ¬ s.takesPart l) :
    (groupEnd s).lanes[l] = s.lanes[l] := by
  rw [groupEnd_lane, active_of_not_takesPart h, if_neg Bool.false_ne_true]

/-- Everything a step of a VECTOR run does: the end of a group, an error, or the instruction that decodes at vip
(R234). -/
theorem step_vector_cases {s t : State} (hr : s.runningIn .vector) (h : step s = .next t) :
    t = groupEnd s ∨ (∃ k o b, t = s.raise k o b) ∨ ∃ i, s.fetches s.vip i ∧ exec i s = .next t := by
  obtain ⟨hrun, hm⟩ := hr
  obtain ⟨hn, -⟩ | ⟨-, ⟨hm', -⟩ | ⟨-, hs⟩ | ⟨hm', -⟩⟩ := step_cases h
  · exact absurd hrun hn
  · simp [hm] at hm'
  · obtain ⟨-, rfl⟩ | ⟨hl, ⟨e, -, rfl⟩ | ⟨i, r, hd, he⟩⟩ := hs
    · exact .inl rfl
    · obtain ⟨k, o, b, hk, -⟩ := raiseDecode_eq_raise s s.vip e
      exact .inr (.inl ⟨k, o, b, hk⟩)
    · exact .inr (.inr ⟨i, ⟨BitVec.not_le.1 hl, r, hd⟩, he⟩)
  · simp [hm] at hm'

/-- Everything a step of a VECTOR run writes: the vector engine's own part, STATUS.STATE at the end, or an error. -/
theorem step_vector_eq {s t : State} (hr : s.runningIn .vector) (h : step s = .next t) :
    (∃ ls st v, t = s.withVector ls st v ∨ t = (s.withVector ls st v).finish) ∨ ∃ k o b, t = s.raise k o b := by
  obtain rfl | ⟨k, o, b, rfl⟩ | ⟨i, -, he⟩ := step_vector_cases hr h
  · exact .inl (groupEnd_eq s)
  · exact .inr ⟨k, o, b, rfl⟩
  · obtain ⟨-, rfl⟩ | ⟨-, ls, st, v, rfl⟩ := exec_vector_eq hr.2 he
    · exact .inr ⟨_, _, _, rfl⟩
    · exact .inl ⟨ls, st, v, .inl rfl⟩

/-- A step of a VECTOR run leaves a lane that takes no part as it was (R231, R235). -/
theorem step_vector_lane_of_not_takesPart {s t : State} {l : Lane} (hr : s.runningIn .vector) (h : step s = .next t)
    (hl : ¬ s.takesPart l) : t.lanes[l] = s.lanes[l] := by
  obtain rfl | ⟨k, o, b, rfl⟩ | ⟨i, -, he⟩ := step_vector_cases hr h
  · exact groupEnd_lane_of_not_takesPart hl
  · rfl
  · exact exec_lane_of_not_takesPart hr.2 hl he

/-- Everything a step of a DECODE_ONLY run does: it ends, it raises an error, or it appends the record of the
instruction that decodes at the cursor and moves the cursor past it (R103). -/
theorem step_decodeOnly_cases {s t : State} (hr : s.runningIn .decodeOnly) (h : step s = .next t) :
    t = s.finish ∨ (∃ k o b, t = s.raise k o b) ∨
      ∃ i, s.fetches s.dpos i ∧ t = s.withSweep (s.out ++ [(s.dpos, i.record s.dpos)]) (nextSeq s.dpos i.len) := by
  obtain ⟨hrun, hm⟩ := hr
  obtain ⟨hn, -⟩ | ⟨-, ⟨hm', -⟩ | ⟨hm', -⟩ | ⟨-, hs⟩⟩ := step_cases h
  · exact absurd hrun hn
  · simp [hm] at hm'
  · simp [hm] at hm'
  · obtain ⟨-, rfl⟩ | ⟨hl, ⟨e, -, rfl⟩ | ⟨i, r, hd, rfl⟩⟩ := hs
    · exact .inl rfl
    · obtain ⟨k, o, b, hk, -⟩ := raiseDecode_eq_raise s s.dpos e
      exact .inr (.inl ⟨k, o, b, hk⟩)
    · exact .inr (.inr ⟨i, ⟨BitVec.not_le.1 hl, r, hd⟩, rfl⟩)

/-- Settles O54, from what the steps of the two modes write. -/
theorem vectorAndSweepStepsKeepMemoryAndScalarState :
    Obligations.VectorAndSweepStepsKeepMemoryAndScalarState := by
  unfold Obligations.VectorAndSweepStepsKeepMemoryAndScalarState
  intro s t h
  refine ⟨fun hr => ?_, fun hr => ?_⟩
  · have hl : ∀ l : Lane, ¬ s.takesPart l → t.lanes[l] = s.lanes[l] :=
      fun l => step_vector_lane_of_not_takesPart hr h
    obtain ⟨ls, st, v, rfl | rfl⟩ | ⟨k, o, b, rfl⟩ := step_vector_eq hr h <;>
      exact ⟨rfl, rfl, rfl, rfl, rfl, rfl, rfl, rfl, rfl, rfl, hl⟩
  · obtain rfl | ⟨k, o, b, rfl⟩ | ⟨i, -, rfl⟩ := step_decodeOnly_cases hr h <;>
      exact ⟨rfl, rfl, rfl, rfl, rfl, rfl, rfl, rfl, rfl, rfl, rfl⟩

end Sys2Proof.Machine
end

section
/-! PROOFS. The byte registers, the FLAGS image, and what the host may do and when (10_state.md R22, R26, R31, R32). -/

namespace Sys2Proof.Machine

open Sys2Proof.Statements

/-! ### Byte registers -/

theorem loByte_toNat (v : Word) : (loByte v).toNat = v.toNat % 256 := by
  simp [loByte, BitVec.extractLsb'_toNat]

theorem hiByte_toNat (v : Word) : (hiByte v).toNat = v.toNat / 256 := by
  have := v.isLt
  simp only [hiByte, BitVec.extractLsb'_toNat, Nat.shiftRight_eq_div_pow]
  omega

/-- A low byte register is the low half of the word register with its index (R21). -/
theorem readReg8_low (x : Regs) {i : RegIdx} (h : i.val < 4) : readReg8 x i = loByte (readWord x i) := by
  simp [readReg8, byteOwner, h]

/-- A high byte register is the high half of the word register four below it (R21). -/
theorem readReg8_high (x : Regs) {i k : RegIdx} (h : k.val + 4 = i.val) : readReg8 x i = hiByte (readWord x k) := by
  have hk : i - 4 = k := by
    revert i k
    decide
  have hi : ¬ i.val < 4 := by omega
  simp [readReg8, byteOwner, hi, hk]

/-- Settles O22, from the isolation law of byte writes. -/
theorem byteRegistersAreViews : Obligations.ByteRegistersAreViews := by
  unfold Obligations.ByteRegistersAreViews
  intro x i j v
  refine ⟨fun hi => ?_, fun _ k hk => ?_, ?_, fun hj => ?_, fun hj => ?_⟩
  · rw [readReg8_low x hi, loByte_toNat]
  · rw [readReg8_high x hk, hiByte_toNat]
  · rw [readReg8_writeReg8, if_pos rfl]
  · rw [readReg8_writeReg8, if_neg hj]
  · have := byteOwner_lt i
    exact readWord_writeReg8 x i j v (by rintro rfl; omega)

/-! ### The FLAGS image -/

theorem getLsbD_flagAt (b : Bool) {k : Nat} (hk : k < 16) (n : Nat) : (flagAt b k).getLsbD n = (b && n == k) := by
  cases b
  · simp [flagAt]
  · simp [flagAt, BitVec.getLsbD_twoPow, hk, eq_comm, beq_eq_decide]

/-- The image's value is the sum of its flags' bits (R26). -/
theorem image_toNat (f : Flags) : f.image.toNat = bitNat f.cf + 4 * bitNat f.pf + 16 * bitNat f.af +
    64 * bitNat f.zf + 128 * bitNat f.sf + 2048 * bitNat f.of := by
  obtain ⟨cf, pf, af, zf, sf, of⟩ := f
  revert cf pf af zf sf of
  decide

/-- An image that is written and read back keeps the six flag bits alone (R26). -/
theorem image_ofImage (v : Word) : (Flags.ofImage v).image = v &&& 0x08D5 := by
  refine BitVec.eq_of_getLsbD_eq fun n hn => ?_
  simp only [Flags.image, Flags.ofImage, BitVec.getLsbD_or, BitVec.getLsbD_and, getLsbD_flagAt, Nat.reduceLT]
  interval_cases n <;> simp

/-- Writing the flags of one target leaves every other target's flags alone (R305). -/
theorem flagsOf_setFlags_of_ne (s : State) {t u : Target} (h : u ≠ t) (f : Flags) :
    (s.setFlags t f).flagsOf u = s.flagsOf u := by
  cases t with
  | scalar =>
    cases u with
    | scalar => exact absurd rfl h
    | lane m => rfl
  | lane l =>
    cases u with
    | scalar => rfl
    | lane m =>
      have : l.val ≠ m.val := fun e => h (by rw [Fin.ext e])
      simp [State.flagsOf, State.setFlags, this]

/-- Writing flags changes nothing of the state but flags (R305). -/
theorem setFlags_eq (s : State) (t : Target) (f : Flags) :
    s.setFlags t f = { s with flags := (s.setFlags t f).flags, lanes := (s.setFlags t f).lanes } := by
  cases t <;> rfl

/-- Writing flags changes nothing of a lane but its flags (R305). -/
theorem setFlags_lane (s : State) (t : Target) (f : Flags) (l : Lane) :
    (s.setFlags t f).lanes[l] = { s.lanes[l] with flags := (s.setFlags t f).lanes[l].flags } := by
  cases t with
  | scalar => rfl
  | lane m =>
    by_cases h : m = l
    · subst h
      simp [State.setFlags]
    · have : m.val ≠ l.val := fun e => h (Fin.ext e)
      simp [State.setFlags, this]

theorem setFlags_runState (s : State) (t : Target) (f : Flags) : (s.setFlags t f).runState = s.runState := by
  cases t <;> rfl

/-- Settles O25, from the image's bits and the frame of a write of flags. -/
theorem flagsImagePacksSixFlags : Obligations.FlagsImagePacksSixFlags := by
  unfold Obligations.FlagsImagePacksSixFlags
  refine ⟨image_toNat, fun s who hr => ⟨hostMove_of_not_running hr _, fun v => ?_⟩⟩
  refine ⟨s.setFlags who (Flags.ofImage v), .ok, hostMove_of_not_running hr _, ?_,
    fun who' h => flagsOf_setFlags_of_ne s h _, setFlags_eq s who _, setFlags_lane s who _⟩
  rw [hostMove_of_not_running (by rwa [setFlags_runState]), HostOp.perform, flagsOf_setFlags, image_ofImage]

/-! ### The host -/

theorem hostMove_of_allowed {op : HostOp} (h : op.allowedRunning = true) (s : State) : hostMove op s = op.perform s := by
  simp [hostMove, h]

/-- RESET and the read of STATUS are the only operations allowed while RUNNING (R32). -/
theorem allowedRunning_iff (op : HostOp) : op.allowedRunning = true ↔ op = .reset ∨ op = .readCsr 2 := by
  cases op <;> simp [HostOp.allowedRunning]

/-- An operation that is performed moves, unless it is a LOAD that is too long (R305). -/
theorem perform_moved_or_refused (op : HostOp) (s : State) :
    (∃ t r, op.perform s = .moved t r) ∨ ∃ bytes, op = .load bytes ∧ maxProg < bytes.length ∧ op.perform s = .refused := by
  cases op with
  | load bytes =>
    by_cases h : bytes.length ≤ maxProg
    · exact .inl ⟨s.load bytes, .ok, by simp [HostOp.perform, h]⟩
    · exact .inr ⟨bytes, rfl, Nat.lt_of_not_le h, by simp [HostOp.perform, h]⟩
  | _ => exact .inl ⟨_, _, rfl⟩

/-- STATUS as a number: STATE in bits 1:0 and ERR_KIND above it (R31). -/
theorem csr_status_toNat (s : State) : (s.csr 2).toNat = s.runState.code.toNat + 4 * s.errKind.code.toNat := by
  show (s.runState.code ||| s.errKind.code <<< 2).toNat = _
  cases s.runState <;> cases s.errKind <;> rfl

/-- The numbers of the states (R31). -/
theorem runState_code_toNat (r : RunState) : r.code.toNat < 4 ∧
    (r = .idle ↔ r.code.toNat = 0) ∧ (r = .running ↔ r.code.toNat = 1) ∧ (r = .done ↔ r.code.toNat = 2) ∧
    (r = .error ↔ r.code.toNat = 3) := by
  cases r <;> decide

/-- The numbers of the error kinds (R31, R270). -/
theorem errKind_code_toNat (k : ErrKind) : k.code.toNat < 6 ∧
    (k = .none ↔ k.code.toNat = 0) ∧ (k = .decodeError ↔ k.code.toNat = 1) ∧
    (k = .unsupportedInstruction ↔ k.code.toNat = 2) ∧ (k = .operandKindViolation ↔ k.code.toNat = 3) ∧
    (k = .inputTruncated ↔ k.code.toNat = 4) ∧ (k = .configError ↔ k.code.toNat = 5) := by
  cases k <;> decide

/-- The STATE field of STATUS. -/
theorem csr_status_mod (s : State) : (s.csr 2).toNat % 4 = s.runState.code.toNat := by
  have := (runState_code_toNat s.runState).1
  rw [csr_status_toNat]
  omega

/-- The ERR_KIND field of STATUS. -/
theorem csr_status_div (s : State) : (s.csr 2).toNat / 4 = s.errKind.code.toNat := by
  have := (runState_code_toNat s.runState).1
  rw [csr_status_toNat]
  omega

/-- Settles O58: what is allowed while RUNNING, and how a performed operation ends. -/
theorem hostMovesOnlyWhileNotRunning : Obligations.HostMovesOnlyWhileNotRunning := by
  unfold Obligations.HostMovesOnlyWhileNotRunning
  refine fun op s => ⟨fun hr h1 h2 => ?_, fun hr => ⟨hostMove_of_allowed rfl s, ?_⟩, fun hr => ?_⟩
  · exact hostMove_of_running hr (by simpa [h1, h2] using allowedRunning_iff op)
  · rw [csr_status_mod, hr]
    rfl
  · rw [hostMove_of_not_running hr]
    exact perform_moved_or_refused op s

/-- A write to a read-only register changes nothing (R31, R305). -/
theorem writeCsr_of_ne_zero (s : State) {n : Fin 5} (hn : n ≠ 0) (v : Word) : s.writeCsr n v = s := by
  match n with
  | 0 => exact absurd rfl hn
  | 1 | 2 | 3 | 4 => rfl

/-- Settles O59, from the fields of CTRL and STATUS as numbers. -/
theorem controlRegistersReadBack : Obligations.ControlRegistersReadBack := by
  unfold Obligations.ControlRegistersReadBack
  intro s hr
  refine ⟨fun v => ?_, fun n v hn => ?_, hostMove_of_not_running hr _, ?_, hostMove_of_not_running hr _, ?_⟩
  · obtain ⟨h0, h1, h2, h3, hl⟩ := mode_iff (loByte v)
    rw [loByte_toNat] at h0 h1 h2 h3 hl
    refine ⟨s.writeCsr 0 v, hostMove_of_not_running hr _, rfl, (loByte v).setWidth 16,
      hostMove_of_not_running (s := s.writeCsr 0 v) hr _, ?_, ?_, h0.trans ?_, h1.trans ?_, h2.trans ?_, h3.trans ?_⟩
    · rw [BitVec.toNat_setWidth_of_le (by decide), loByte_toNat]
    · exact hl.trans (by omega)
    all_goals omega
  · rw [hostMove_of_not_running hr, HostOp.perform, writeCsr_of_ne_zero s hn]
  · obtain ⟨hs, hi, -, hd, he⟩ := runState_code_toNat s.runState
    obtain ⟨hk, k0, k1, k2, k3, k4, k5⟩ := errKind_code_toNat s.errKind
    refine ⟨s.csr 2, hostMove_of_not_running hr _, ?_, ?_⟩
    · rw [csr_status_toNat]
      omega
    · rw [csr_status_mod, csr_status_div]
      exact ⟨hi, hd, he, k0, k1, k2, k3, k4, k5⟩
  · exact ⟨s.errByte.setWidth 16, hostMove_of_not_running hr _, BitVec.toNat_setWidth_of_le (by decide)⟩

end Sys2Proof.Machine
end

section
/-! PROOFS. What a decode delivers (30_encoding.md R96, R97): the bytes it consumed are the encoding of its
instruction; and, from their number, that the decode-only sweep stays in order and within L (10_state.md R37). -/

namespace Sys2Proof

/-! ### One inversion lemma for each format -/

section Formats

variable {b0 : Byte} {rest r : List Byte} {i : Instr}

theorem decodeRmReg_eq_ok {mk : Bool → Width → RmOperand → RegIdx → Instr}
    (h : decodeRmReg mk b0 rest = .ok (i, r)) :
    ∃ rm reg, rm.wf = true ∧ i = mk (dirField b0) (widthField b0) rm reg ∧ rm.encode reg ++ r = rest := by
  obtain ⟨b1, r1, h1, h⟩ := orTruncated_eq_ok h
  obtain ⟨rm, r2, h2, h⟩ := orTruncated_eq_ok h
  cases h
  obtain ⟨hwf, hmod, hrm, hb⟩ := readRm_eq_some h2
  refine ⟨rm, regField b1, hwf, rfl, ?_⟩
  rw [readByte_eq_some h1, RmOperand.encode, hmod, hrm, modRmByte_fields, List.cons_append, hb]

theorem decodeMovRmImm_eq_ok (h : decodeMovRmImm b0 rest = .ok (i, r)) :
    ∃ rm imm, rm.wf = true ∧ i = .movRmImm (widthField b0) rm imm ∧
      rm.encode 0 ++ immBytes (widthField b0) imm ++ r = rest := by
  obtain ⟨b1, r1, h1, h⟩ := orTruncated_eq_ok h
  split at h
  · next hreg =>
    obtain ⟨rm, r2, h2, h⟩ := orTruncated_eq_ok h
    obtain ⟨imm, r3, h3, h⟩ := orTruncated_eq_ok h
    cases h
    obtain ⟨hwf, hmod, hrm, hb⟩ := readRm_eq_some h2
    refine ⟨rm, imm, hwf, rfl, ?_⟩
    rw [readByte_eq_some h1, RmOperand.encode, hmod, hrm, ← hreg, modRmByte_fields, List.append_assoc,
      readImm_eq_some h3, List.cons_append, hb]
  · cases h

/-- The sub-opcodes of the group (R92). -/
theorem groupInstr_eq_some {reg : Fin 8} {mk : RmOperand → GroupImm → Instr} (h : groupInstr reg = some mk) :
    (reg = 0 ∧ mk = .addRmImm) ∨ (reg = 5 ∧ mk = .subRmImm) ∨ (reg = 7 ∧ mk = .cmpRmImm) := by
  unfold groupInstr at h
  split at h <;> cases h <;> simp

theorem decodeGroup_eq_ok (hk : opKind b0 = some .group) (h : decodeGroup b0 rest = .ok (i, r)) :
    ∃ reg mk rm g, groupInstr reg = some mk ∧ rm.wf = true ∧ i = mk rm g ∧ g.opcode = b0 ∧
      rm.encode reg ++ g.bytes ++ r = rest := by
  obtain ⟨b1, r1, h1, h⟩ := orTruncated_eq_ok h
  split at h
  · cases h
  · next mk hmk =>
    obtain ⟨rm, r2, h2, h⟩ := orTruncated_eq_ok h
    obtain ⟨g, r3, h3, h⟩ := orTruncated_eq_ok h
    cases h
    obtain ⟨hwf, hmod, hrm, hb⟩ := readRm_eq_some h2
    obtain ⟨hg, hgb⟩ := readGroupImm_eq_some hk h3
    refine ⟨regField b1, mk, rm, g, hmk, hwf, rfl, hg, ?_⟩
    rw [readByte_eq_some h1, RmOperand.encode, hmod, hrm, modRmByte_fields, List.append_assoc, hgb, List.cons_append, hb]

theorem decodeMovRegImm_eq_ok (h : decodeMovRegImm b0 rest = .ok (i, r)) :
    ∃ imm, i = .movRegImm (widthOfBit (b0.getLsbD 3)) (b0.extractLsb' 0 3).toFin imm ∧ immBytes _ imm ++ r = rest := by
  obtain ⟨imm, r1, h1, h⟩ := orTruncated_eq_ok h
  cases h
  exact ⟨imm, rfl, readImm_eq_some h1⟩

theorem decodeAccMem_eq_ok {mk : Width → Word → Instr} (h : decodeAccMem mk b0 rest = .ok (i, r)) :
    ∃ addr, i = mk (widthField b0) addr ∧ wordBytes addr ++ r = rest := by
  obtain ⟨addr, r1, h1, h⟩ := orTruncated_eq_ok h
  cases h
  exact ⟨addr, rfl, readImm_eq_some h1⟩

theorem decodeAccImm_eq_ok {mk : (w : Width) → BitVec w.bits → Instr} (h : decodeAccImm mk b0 rest = .ok (i, r)) :
    ∃ imm, i = mk (widthField b0) imm ∧ immBytes (widthField b0) imm ++ r = rest := by
  obtain ⟨imm, r1, h1, h⟩ := orTruncated_eq_ok h
  cases h
  exact ⟨imm, rfl, readImm_eq_some h1⟩

theorem decodeJump_eq_ok {mk : Byte → Instr} (h : decodeJump mk b0 rest = .ok (i, r)) :
    ∃ rel, i = mk rel ∧ rel :: r = rest := by
  obtain ⟨rel, r1, h1, h⟩ := orTruncated_eq_ok h
  cases h
  exact ⟨rel, rfl, (readByte_eq_some h1).symm⟩

end Formats

/-! ### The first byte -/

/-- The first byte that a kind of row and the fields of `b0` give back (R81, R91). -/
def OpKind.opcode (b0 : Byte) : OpKind → Byte
  | .movRmReg => rmRegOpcode 0x88 (dirField b0) (widthField b0)
  | .addRmReg => rmRegOpcode 0x00 (dirField b0) (widthField b0)
  | .subRmReg => rmRegOpcode 0x28 (dirField b0) (widthField b0)
  | .cmpRmReg => rmRegOpcode 0x38 (dirField b0) (widthField b0)
  | .movRmImm => 0xC6 ||| (widthField b0).bit
  | .movRegImm => 0xB0 ||| ((widthOfBit (b0.getLsbD 3)).bit <<< 3) ||| BitVec.ofNat 8 (b0.extractLsb' 0 3).toFin.val
  | .movAccMem => 0xA0 ||| (widthField b0).bit
  | .movMemAcc => 0xA2 ||| (widthField b0).bit
  | .addAccImm => 0x04 ||| (widthField b0).bit
  | .subAccImm => 0x2C ||| (widthField b0).bit
  | .cmpAccImm => 0x3C ||| (widthField b0).bit
  | .group => b0
  | .jcc cc => 0x70 ||| BitVec.ofNat 8 cc.val
  | .loopnz => 0xE0
  | .loopz => 0xE1
  | .loop => 0xE2
  | .jcxz => 0xE3

/-- The rows are disjoint: the kind and the fields of an admitted first byte determine it (R96). -/
theorem opcode_of_opKind {b0 : Byte} {k : OpKind} (h : opKind b0 = some k) : k.opcode b0 = b0 := by
  have key : ∀ b : Byte, ∀ k ∈ opKind b, k.opcode b = b := by decide
  exact key b0 k h

/-- The encoding of a conditional jump (R91, R201). -/
theorem encode_jccInstr (cc : Fin 16) (rel : Byte) :
    (jccInstr cc rel).wf = true ∧ encode (jccInstr cc rel) = [0x70 ||| BitVec.ofNat 8 cc.val, rel] := by
  fin_cases cc <;> exact ⟨rfl, rfl⟩

/-- What decodes is well formed, and the bytes consumed are its encoding (R96, R97). -/
theorem decode_eq_ok {b0 : Byte} {rest r : List Byte} {i : Instr} (h : decode b0 rest = .ok (i, r)) :
    i.wf = true ∧ encode i ++ r = b0 :: rest := by
  cases hk : opKind b0 with
  | none => simp [decode, hk] at h
  | some k =>
    have hb := opcode_of_opKind hk
    rw [decode, hk] at h
    cases k with
    | movRmReg | addRmReg | subRmReg | cmpRmReg =>
      obtain ⟨rm, reg, hwf, rfl, hr⟩ := decodeRmReg_eq_ok h
      exact ⟨hwf, congrArg₂ List.cons hb hr⟩
    | movRmImm =>
      obtain ⟨rm, imm, hwf, rfl, hr⟩ := decodeMovRmImm_eq_ok h
      exact ⟨hwf, congrArg₂ List.cons hb hr⟩
    | group =>
      obtain ⟨reg, mk, rm, g, hmk, hwf, rfl, hg, hr⟩ := decodeGroup_eq_ok hk h
      obtain ⟨rfl, rfl⟩ | ⟨rfl, rfl⟩ | ⟨rfl, rfl⟩ := groupInstr_eq_some hmk <;>
        exact ⟨hwf, congrArg₂ List.cons hg hr⟩
    | movRegImm =>
      obtain ⟨imm, rfl, hr⟩ := decodeMovRegImm_eq_ok h
      exact ⟨rfl, congrArg₂ List.cons hb hr⟩
    | movAccMem | movMemAcc =>
      obtain ⟨addr, rfl, hr⟩ := decodeAccMem_eq_ok h
      exact ⟨rfl, congrArg₂ List.cons hb hr⟩
    | addAccImm | subAccImm | cmpAccImm =>
      obtain ⟨imm, rfl, hr⟩ := decodeAccImm_eq_ok h
      exact ⟨rfl, congrArg₂ List.cons hb hr⟩
    | jcc cc =>
      obtain ⟨rel, rfl, hr⟩ := decodeJump_eq_ok h
      obtain ⟨hwf, he⟩ := encode_jccInstr cc rel
      exact ⟨hwf, by rw [he]; exact congrArg₂ List.cons hb hr⟩
    | loopnz | loopz | loop | jcxz =>
      obtain ⟨rel, rfl, hr⟩ := decodeJump_eq_ok h
      exact ⟨rfl, congrArg₂ List.cons hb hr⟩

/-- Every instruction's encoding has the instruction's length, between 2 and 6 bytes (R90, R101). -/
theorem encode_length_statement (i : Instr) : Laws.EncodeLength.Statement i := by
  cases i with
  | movRmReg d w rm r => exact Laws.EncodeLength.movRmReg d w rm r
  | movRmImm w rm imm => exact Laws.EncodeLength.movRmImm w rm imm
  | movRegImm w r imm => exact Laws.EncodeLength.movRegImm w r imm
  | addRmReg d w rm r => exact Laws.EncodeLength.addRmReg d w rm r
  | addRmImm rm g => exact Laws.EncodeLength.addRmImm rm g
  | addAccImm w imm => exact Laws.EncodeLength.addAccImm w imm
  | subRmReg d w rm r => exact Laws.EncodeLength.subRmReg d w rm r
  | subRmImm rm g => exact Laws.EncodeLength.subRmImm rm g
  | subAccImm w imm => exact Laws.EncodeLength.subAccImm w imm
  | cmpRmReg d w rm r => exact Laws.EncodeLength.cmpRmReg d w rm r
  | cmpRmImm rm g => exact Laws.EncodeLength.cmpRmImm rm g
  | cmpAccImm w imm => exact Laws.EncodeLength.cmpAccImm w imm
  | _ => exact ⟨rfl, Nat.le_of_ble_eq_true rfl, Nat.le_of_ble_eq_true rfl⟩

/-- A decode consumes as many bytes as its instruction is long (R101). -/
theorem decode_length {b0 : Byte} {rest r : List Byte} {i : Instr} (h : decode b0 rest = .ok (i, r)) :
    i.len + r.length = rest.length + 1 := by
  obtain ⟨hl, -⟩ := encode_length_statement i
  have := congrArg List.length (decode_eq_ok h).2
  rwa [List.length_append, List.length_cons, hl] at this

namespace Machine

/-! ### The sweep -/

/-- What is fetched inside the program ends inside it (R68, R98). -/
theorem fetches_inside {s : State} {off : Word} {i : Instr} (h : s.fetches off i) :
    off.toNat + i.len ≤ s.progLen.toNat := by
  obtain ⟨hlt, r, hd⟩ := h
  have hlen := decode_length hd
  have hfetch := fetchFrom_length s (off.toNat + 1) (maxInsn - 1)
  have := BitVec.lt_def.1 hlt
  omega

/-- The cursor after an instruction that ends inside the program: it does not wrap (R103, R135). -/
theorem nextSeq_toNat_of_fetches {s : State} {off : Word} {i : Instr} (h : s.fetches off i) :
    (nextSeq off i.len).toNat = off.toNat + i.len := by
  have := fetches_inside h
  have := s.progLen.isLt
  simp only [nextSeq, BitVec.toNat_add, BitVec.toNat_ofNat]
  omega

/-- Appending the record of the instruction at the cursor keeps the stream in order. -/
theorem State.SweepInv.append {s : State} (h : s.SweepInv) {i : Instr} (hf : s.fetches s.dpos i) :
    (s.withSweep (s.out ++ [(s.dpos, i.record s.dpos)]) (nextSeq s.dpos i.len)).SweepInv := by
  have hnext := nextSeq_toNat_of_fetches hf
  refine ⟨?_, fun r hr => ?_, ?_⟩
  · refine List.pairwise_append.2 ⟨h.ordered, List.pairwise_singleton _ _, fun a ha b hb => ?_⟩
    rw [List.mem_singleton.1 hb]
    exact (h.offsets a ha).2
  · simp only [State.withSweep_dpos, hnext]
    rcases List.mem_append.1 hr with hr | hr
    · obtain ⟨hoff, hle⟩ := h.offsets r hr
      exact ⟨hoff, Nat.le_trans hle (Nat.le_add_right _ _)⟩
    · rw [List.mem_singleton.1 hr]
      exact ⟨rfl, Nat.le_refl _⟩
  · simp only [State.withSweep_dpos, State.withSweep_progLen, BitVec.le_def, hnext]
    exact fetches_inside hf

/-- Settles O42: a step of the sweep ends, raises an error, or appends the record at the cursor. -/
theorem sweepKeepsStreamOrdered : Obligations.SweepKeepsStreamOrdered := by
  unfold Obligations.SweepKeepsStreamOrdered
  intro s t hr h ht
  obtain rfl | ⟨k, o, b, rfl⟩ | ⟨i, hf, rfl⟩ := step_decodeOnly_cases hr ht
  · exact ⟨h.ordered, h.offsets, h.cursor⟩
  · exact ⟨h.ordered, h.offsets, h.cursor⟩
  · exact h.append hf

end Machine

end Sys2Proof
end

section
/-! PROOFS. Instruction fetch (20_memory.md R67, R68): the encoding of a well-formed instruction decodes back to it
(30_encoding.md R96, R97), so that the step runs the instruction whose bytes fetch reads. -/

namespace Sys2Proof

/-! ### The first byte read back -/

/-- The kind of row an instruction's first byte selects (R91, R94). -/
def Instr.kind : Instr → OpKind
  | .movRmReg _ _ _ _ => .movRmReg
  | .movRmImm _ _ _ => .movRmImm
  | .movRegImm _ _ _ => .movRegImm
  | .movAccMem _ _ => .movAccMem
  | .movMemAcc _ _ => .movMemAcc
  | .addRmReg _ _ _ _ => .addRmReg
  | .addAccImm _ _ => .addAccImm
  | .subRmReg _ _ _ _ => .subRmReg
  | .subAccImm _ _ => .subAccImm
  | .cmpRmReg _ _ _ _ => .cmpRmReg
  | .cmpAccImm _ _ => .cmpAccImm
  | .addRmImm _ _ | .subRmImm _ _ | .cmpRmImm _ _ => .group
  | .jo _ => .jcc 0
  | .jno _ => .jcc 1
  | .jb _ => .jcc 2
  | .jnb _ => .jcc 3
  | .je _ => .jcc 4
  | .jne _ => .jcc 5
  | .jbe _ => .jcc 6
  | .ja _ => .jcc 7
  | .js _ => .jcc 8
  | .jns _ => .jcc 9
  | .jp _ => .jcc 10
  | .jnp _ => .jcc 11
  | .jl _ => .jcc 12
  | .jnl _ => .jcc 13
  | .jle _ => .jcc 14
  | .jg _ => .jcc 15
  | .loopnz _ => .loopnz
  | .loopz _ => .loopz
  | .loop _ => .loop
  | .jcxz _ => .jcxz

/-- Every instruction's first byte is admitted and selects the instruction's own kind of row (R94). -/
theorem opKind_op0 (i : Instr) : opKind i.op0 = some i.kind := by
  cases i with
  | movRmReg d w | addRmReg d w | subRmReg d w | cmpRmReg d w => cases d <;> cases w <;> rfl
  | movRmImm w | movAccMem w | movMemAcc w | addAccImm w | subAccImm w | cmpAccImm w => cases w <;> rfl
  | addRmImm _ g | subRmImm _ g | cmpRmImm _ g => cases g <;> rfl
  | movRegImm w r => cases w <;> fin_cases r <;> rfl
  | _ =>
    -- a jump: its first byte is a constant
    simp only [Instr.op0, Instr.kind]
    decide

/-- The direction and width bits of a reg/mem-with-reg form (R81). -/
theorem fields_rmRegOpcode {base : Byte} (h : base.extractLsb' 0 2 = 0) (d : Bool) (w : Width) :
    dirField (rmRegOpcode base d w) = d ∧ widthField (rmRegOpcode base d w) = w := by
  revert base
  cases d <;> cases w <;> decide

/-- The width bit of a row without a direction bit (R81). -/
theorem widthField_or_bit {base : Byte} (h : base.getLsbD 0 = false) (w : Width) : widthField (base ||| w.bit) = w := by
  revert base
  cases w <;> decide

/-- The width and register fields of opcodes B0 to BF (R81). -/
theorem fields_movRegImm (w : Width) (r : RegIdx) :
    widthOfBit (((0xB0 : Byte) ||| (w.bit <<< 3) ||| BitVec.ofNat 8 r.val).getLsbD 3) = w ∧
      (((0xB0 : Byte) ||| (w.bit <<< 3) ||| BitVec.ofNat 8 r.val).extractLsb' 0 3).toFin = r := by
  revert r
  cases w <;> decide

/-! ### Each format read back -/

section Formats

variable {b0 : Byte} (rest : List Byte)

theorem decodeRmReg_encode {mk : Bool → Width → RmOperand → RegIdx → Instr} {d : Bool} {w : Width}
    (hb : dirField b0 = d ∧ widthField b0 = w) {rm : RmOperand} (h : rm.wf = true) (r : RegIdx) :
    decodeRmReg mk b0 (rm.encode r ++ rest) = .ok (mk d w rm r, rest) := by
  obtain ⟨rfl, rfl⟩ := hb
  simp [decodeRmReg, RmOperand.encode, readByte, orTruncated, readRm_encode h]

theorem decodeMovRmImm_encode {w : Width} (hb : widthField b0 = w) {rm : RmOperand} (h : rm.wf = true)
    (imm : BitVec w.bits) :
    decodeMovRmImm b0 (rm.encode 0 ++ immBytes w imm ++ rest) = .ok (.movRmImm w rm imm, rest) := by
  subst hb
  simp [decodeMovRmImm, RmOperand.encode, readByte, orTruncated, readRm_encode h, readImm_encode]

theorem decodeGroup_encode {reg : Fin 8} {mk : RmOperand → GroupImm → Instr} (hmk : groupInstr reg = some mk)
    {rm : RmOperand} (h : rm.wf = true) (g : GroupImm) :
    decodeGroup g.opcode (rm.encode reg ++ g.bytes ++ rest) = .ok (mk rm g, rest) := by
  simp [decodeGroup, RmOperand.encode, readByte, orTruncated, hmk, readRm_encode h, readGroupImm_encode]

theorem decodeMovRegImm_encode {w : Width} {r : RegIdx}
    (hb : widthOfBit (b0.getLsbD 3) = w ∧ (b0.extractLsb' 0 3).toFin = r) (imm : BitVec w.bits) :
    decodeMovRegImm b0 (immBytes w imm ++ rest) = .ok (.movRegImm w r imm, rest) := by
  obtain ⟨rfl, rfl⟩ := hb
  rw [decodeMovRegImm, readImm_encode, orTruncated]

theorem decodeAccMem_encode {mk : Width → Word → Instr} {w : Width} (hb : widthField b0 = w) (addr : Word) :
    decodeAccMem mk b0 (wordBytes addr ++ rest) = .ok (mk w addr, rest) := by
  subst hb
  rw [decodeAccMem, show wordBytes addr = immBytes .word addr from rfl, readImm_encode, orTruncated]

theorem decodeAccImm_encode {mk : (w : Width) → BitVec w.bits → Instr} {w : Width} (hb : widthField b0 = w)
    (imm : BitVec w.bits) : decodeAccImm mk b0 (immBytes w imm ++ rest) = .ok (mk w imm, rest) := by
  subst hb
  rw [decodeAccImm, readImm_encode, orTruncated]

end Formats

/-- The encoding of a well-formed instruction decodes to it, whatever bytes follow (R96, R97): the first byte selects
the row, and each part is read back as it was written. -/
theorem decode_encode {i : Instr} (h : i.wf = true) (rest : List Byte) :
    decode i.op0 (i.tailBytes ++ rest) = .ok (i, rest) := by
  rw [decode, opKind_op0]
  cases i with
  | movRmReg d w rm r | addRmReg d w rm r | subRmReg d w rm r | cmpRmReg d w rm r =>
    exact decodeRmReg_encode rest (fields_rmRegOpcode rfl d w) h r
  | movRmImm w rm imm => exact decodeMovRmImm_encode rest (widthField_or_bit rfl w) h imm
  | addRmImm rm g | subRmImm rm g | cmpRmImm rm g => exact decodeGroup_encode rest rfl h g
  | movRegImm w r imm => exact decodeMovRegImm_encode rest (fields_movRegImm w r) imm
  | movAccMem w addr | movMemAcc w addr => exact decodeAccMem_encode rest (widthField_or_bit rfl w) addr
  | addAccImm w imm | subAccImm w imm | cmpAccImm w imm =>
    exact decodeAccImm_encode rest (widthField_or_bit rfl w) imm
  | _ => rfl

namespace Machine

open Sys2Proof.Statements

/-! ### The step at an encoded instruction -/

/-- Bytes that fetch reads inside the program and that encode an instruction decode to it (R67, R68, R97): none of the
six bytes a decode may need is missing. -/
theorem fetches_of_encoding {s : State} {off : Word} {i : Instr} (hwf : i.wf = true)
    (hin : off.toNat + i.len ≤ s.progLen.toNat) (hr : FetchReads s off.toNat (encode i)) : s.fetches off i := by
  obtain ⟨hlen, hge, hle⟩ := encode_length_statement i
  have htail : i.tailBytes.length + 1 = i.len := hlen
  have hmax : maxInsn = 6 := rfl
  have hfirst : s.fetchByte off.toNat = i.op0 := hr 0 (by omega)
  obtain ⟨r, hrest⟩ : ∃ r, s.fetchFrom (off.toNat + 1) (maxInsn - 1) = i.tailBytes ++ r := by
    refine fetchFrom_of_inside (by omega) (by omega) fun j hj => ?_
    rw [Nat.add_assoc, Nat.add_comm 1 j]
    exact hr (j + 1) (by omega)
  refine ⟨BitVec.lt_def.2 (by omega), r, ?_⟩
  rw [State.decodeAt, hfirst, hrest, decode_encode hwf]

/-- A SCALAR step inside the program executes what decodes at ip (R130). -/
theorem step_scalar_of_fetches {s : State} {i : Instr} (hr : s.runningIn .scalar) (hf : s.fetches s.ip i) :
    step s = exec i s := by
  obtain ⟨hlt, r, hd⟩ := hf
  rw [step_scalar hr.1 hr.2, scalarStep, if_neg (BitVec.not_le.2 hlt), hd]

/-- A VECTOR step inside the program executes what decodes at vip (R234). -/
theorem step_vector_of_fetches {s : State} {i : Instr} (hr : s.runningIn .vector) (hf : s.fetches s.vip i) :
    step s = exec i s := by
  obtain ⟨hlt, r, hd⟩ := hf
  rw [step_vector hr.1 hr.2, vectorStep, if_neg (BitVec.not_le.2 hlt), hd]

theorem pointer_scalar {s : State} (h : s.mode = .scalar) : pointer s = s.ip := by simp [pointer, h]

theorem pointer_vector {s : State} (h : s.mode = .vector) : pointer s = s.vip := by simp [pointer, h]

/-- Settles O9: the encoding decodes to the instruction, in both engines and from both fetch sources. -/
theorem stepExecutesEncodedInstruction : Obligations.StepExecutesEncodedInstruction := by
  unfold Obligations.StepExecutesEncodedInstruction
  intro s i hrun hmode hwf hin hr
  have hf : s.fetches (pointer s) i := fetches_of_encoding hwf hin hr
  rcases hmode with hm | hm
  · exact step_scalar_of_fetches ⟨hrun, hm⟩ (pointer_scalar hm ▸ hf)
  · exact step_vector_of_fetches ⟨hrun, hm⟩ (pointer_vector hm ▸ hf)

/-! ### The fetch source -/

/-- With PROGRAM_BUFFER, fetch reads the program copy (R67). -/
theorem fetchByte_programBuffer {s : State} (h : s.cfg.codeFetchSource = .programBuffer) (a : Nat) :
    s.fetchByte a = s.prog.getD a 0 := by
  simp [State.fetchByte, h]

/-- With MEMORY, fetch reads the data memory (R67, R74). -/
theorem fetchByte_memory {s : State} (h : s.cfg.codeFetchSource = .memory) (a : Nat) :
    s.fetchByte a = s.mem.readKey a := by
  simp [State.fetchByte, h]

/-- Settles O14: a decode depends on the program's length and on what fetch reads, and fetch reads one source. -/
theorem fetchSourceDecidesWhetherStoresAreSeen : Obligations.FetchSourceDecidesWhetherStoresAreSeen := by
  unfold Obligations.FetchSourceDecidesWhetherStoresAreSeen
  refine fun s off => ⟨fun h m => ?_, fun h => ⟨fun p => ?_, fun hm a v => ?_⟩⟩
  · refine decodeAt_congr (s := { s with mem := m }) (t := s) rfl (fun a => ?_) off
    rw [fetchByte_programBuffer h, fetchByte_programBuffer (s := { s with mem := m }) h]
  · refine decodeAt_congr (s := { s with prog := p }) (t := s) rfl (fun a => ?_) off
    rw [fetchByte_memory h, fetchByte_memory (s := { s with prog := p }) h]
  · rw [fetchByte_memory (s := { s with mem := s.mem.write a v }) h]
    exact (Memory.read_write hm a a v).trans (if_pos rfl)

end Machine

end Sys2Proof
end

section
/-! PROOFS. Data memory and the operands that address it (20_memory.md R61 to R63, R65): what a byte or word access
touches, the bytes that stand for an r/m operand (30_encoding.md R84 to R87), and its effective address. -/

namespace Sys2Proof.Machine

open Sys2Proof.Statements

/-! ### Byte and word accesses -/

/-- The address after `a`, which is 0x0000 after 0xFFFF (R63). -/
theorem eq_word_add_one_iff (a b : Word) : b = a + 1 ↔ b.toNat = (a.toNat + 1) % 65536 := by
  rw [← BitVec.toNat_inj, BitVec.toNat_add]
  rfl

/-- `hi : lo` as a number (R9, R61). -/
theorem joinBytes_toNat (lo hi : Byte) : (joinBytes lo hi).toNat = lo.toNat + 256 * hi.toNat := by
  have hlo := loByte_toNat (joinBytes lo hi)
  have hhi := hiByte_toNat (joinBytes lo hi)
  rw [loByte_joinBytes] at hlo
  rw [hiByte_joinBytes] at hhi
  omega

/-- A word store puts the low byte at `a` and the high byte at the next address, and touches no other (R62, R63). -/
theorem read_memWrite_word {m : Memory} (h : m.wf) (a b : Word) (v : Word) :
    (memWrite m a .word v).read b = if b = a then loByte v else if b = a + 1 then hiByte v else m.read b := by
  rw [memWrite_word, Memory.read_write (Memory.wf_write h _ _), Memory.read_write h]
  by_cases hb : b = a
  · rw [if_neg (by rw [hb]; exact (word_add_one_ne a).symm), if_pos hb, if_pos hb]
  · rw [if_neg hb, if_neg hb]

/-- Settles O23, from the laws of one-byte writes. -/
theorem memoryAccessIsLittleEndian : Obligations.MemoryAccessIsLittleEndian := by
  unfold Obligations.MemoryAccessIsLittleEndian
  refine fun m hm a b => ⟨fun v => Memory.read_write hm a b v, fun v => ?_, rfl, fun hb => ?_⟩
  · simp only [read_memWrite_word hm, eq_word_add_one_iff, apply_ite BitVec.toNat, loByte_toNat, hiByte_toNat]
  · rw [memRead_word, joinBytes_toNat, (eq_word_add_one_iff a b).2 hb]

/-! ### The bytes of an r/m operand -/

/-- The rm field of address terms stands for their base and index registers (R85). -/
theorem termsOf_code (t : EaTerms) : termsOf t.code = (t.base, t.index) := by cases t <;> rfl

/-- Only `[bp]`, which has no encoding without a displacement, has the rm field of a direct address (R86). -/
theorem code_ne_six {t : EaTerms} (h : (RmOperand.noDisp t).wf = true) : t.code ≠ 6 := by
  cases t with
  | bp => cases h
  | _ => decide

/-- The mod and rm fields and the displacement bytes of a well-formed r/m operand stand for it (R84 to R87). -/
theorem operandOf_encode {rm : RmOperand} (h : rm.wf = true) (w : Width) :
    OperandOf rm.modCode rm.rmCode rm.dispBytes (rm.operand w) := by
  cases rm with
  | reg r => exact rfl
  | direct a => exact ⟨rfl, congrArg (fun v => Operand.mem (directMem v)) (joinBytes_parts a).symm⟩
  | noDisp t =>
    refine ⟨code_ne_six h, ?_⟩
    rw [RmOperand.rmCode, termsOf_code]
    rfl
  | disp8 t d =>
    show RmOperand.operand w (.disp8 t d) = _
    rw [RmOperand.rmCode, termsOf_code]
    rfl
  | disp16 t d =>
    show RmOperand.operand w (.disp16 t d) = .mem ⟨_, _, joinBytes (loByte d) (hiByte d), _⟩
    rw [RmOperand.rmCode, termsOf_code, joinBytes_parts]
    rfl

/-- An instruction whose bytes after the opcode begin with those of an r/m operand (R80, R82). -/
theorem rmBytes_of_tailBytes {i : Instr} {rm : RmOperand} {reg : Fin 8} (imm : List Byte) (h : rm.wf = true)
    (hi : i.tailBytes = rm.encode reg ++ imm) (w : Width) : RmBytes i reg (rm.operand w) := by
  refine ⟨rm.modCode, rm.rmCode, rm.dispBytes, imm, operandOf_encode h w, ?_⟩
  rw [encode, hi, RmOperand.encode, modRmByte, Nat.mul_comm _ 64, Nat.mul_comm _ 8, List.cons_append]

/-- A reg/mem-with-reg form ends with its displacement. -/
theorem rmBytes_of_rmReg {i : Instr} {rm : RmOperand} {reg : Fin 8} (h : rm.wf = true)
    (hi : i.tailBytes = rm.encode reg) (w : Width) : RmBytes i reg (rm.operand w) :=
  rmBytes_of_tailBytes [] h (hi.trans (List.append_nil _).symm) w

/-! ### The effective address -/

/-- The base term of an effective address (R65). -/
def baseTerm (x : Regs) : Option BaseReg → Word
  | some b => readWord x (baseIdx b)
  | none => 0

/-- The index term of an effective address (R65). -/
def indexTerm (x : Regs) : Option IndexReg → Word
  | some i => readWord x (indexIdx i)
  | none => 0

theorem effectiveAddress_eq (x : Regs) (m : MemOperand) :
    effectiveAddress x m = baseTerm x m.base + indexTerm x m.index + m.disp := by
  obtain ⟨base, index, disp, direct⟩ := m
  cases base <;> cases index <;> rfl

/-- A sum of three words as a number, with the last word read unsigned. -/
theorem toNat_add_add_toNat (a b d : Word) :
    ((a + b + d).toNat : Int) = ((a.toNat : Int) + b.toNat + d.toNat) % 65536 := by
  simp only [BitVec.toNat_add]
  omega

/-- The signed and the unsigned reading of a displacement are congruent modulo 2^16 (R65). -/
theorem toNat_add_add_toInt (a b d : Word) :
    ((a + b + d).toNat : Int) = ((a.toNat : Int) + b.toNat + d.toInt) % 65536 := by
  rw [toNat_add_add_toNat, BitVec.toInt_eq_toNat_cond]
  split <;> omega

/-- ReadOp of the statements is the model's (R132). -/
theorem readOp_eq_valueOf (s : State) {w : Width} (op : Operand w) : readOp s.datapath op = valueOf s op := by
  cases op with
  | reg i => cases w <;> rfl
  | imm v => rfl
  | mem m => rfl

/-- Settles O24: the bytes of the r/m operand, ReadOp, and the address as a sum of three words. -/
theorem effectiveAddressIsSumModulo64K : Obligations.EffectiveAddressIsSumModulo64K := by
  unfold Obligations.EffectiveAddressIsSumModulo64K
  refine ⟨fun d w rm r imm g h => ?_, fun s w op => readOp_eq_valueOf s op, fun x m => ?_⟩
  · exact ⟨rmBytes_of_rmReg h rfl w, rmBytes_of_tailBytes (immBytes w imm) h rfl w,
      rmBytes_of_rmReg h rfl w, rmBytes_of_tailBytes g.bytes h rfl g.width,
      rmBytes_of_rmReg h rfl w, rmBytes_of_tailBytes g.bytes h rfl g.width,
      rmBytes_of_rmReg h rfl w, rmBytes_of_tailBytes g.bytes h rfl g.width⟩
  · intro base index
    have hb : base = ((baseTerm x m.base).toNat : Int) := by
      rcases hm : m.base with _ | b
      · simp [base, hm, baseTerm]
      · cases b <;> simp [base, hm, baseTerm, baseIdx]
    have hi : index = ((indexTerm x m.index).toNat : Int) := by
      rcases hm : m.index with _ | i
      · simp [index, hm, indexTerm]
      · cases i <;> simp [index, hm, indexTerm, indexIdx]
    rw [effectiveAddress_eq, hb, hi]
    exact ⟨toNat_add_add_toInt _ _ _, toNat_add_add_toNat _ _ _⟩

end Sys2Proof.Machine
end

section
/-! PROOFS. The decoder against the encoder (30_encoding.md R92 to R101): the round trip in both directions, the length
table, and why a decode fails. -/

namespace Sys2Proof

open Sys2Proof.Statements

/-! ### The round trip -/

/-- Settles O1: the first byte selects the row, and each part is read back as it was written. -/
theorem decodeInvertsEncode : Obligations.DecodeInvertsEncode := by
  unfold Obligations.DecodeInvertsEncode
  exact fun i h rest => decode_encode h rest

/-- Settles O2, from what each format's decode consumed. -/
theorem decodedBytesAreItsEncoding : Obligations.DecodedBytesAreItsEncoding := by
  unfold Obligations.DecodedBytesAreItsEncoding
  intro bytes rest i h
  cases bytes with
  | nil => cases h
  | cons b0 bytes => exact decode_eq_ok h

/-- Bytes that are the encoding of a well-formed instruction decode to it. -/
theorem decodeList_of_encode_eq {i : Instr} (hwf : i.wf = true) {bytes : List Byte} (h : encode i = bytes) :
    decodeList bytes = .ok (i, []) := by
  rw [← h, ← List.append_nil (encode i)]
  exact decodeInvertsEncode i hwf []

/-- Settles O7: each word is the encoding of its instruction. -/
theorem specVectorsDecode : Obligations.SpecVectorsDecode := by
  unfold Obligations.SpecVectorsDecode
  refine ⟨?_, ?_, ?_, ?_, ?_, ?_, ?_, ?_, ?_, ?_⟩ <;> exact decodeList_of_encode_eq rfl rfl

/-- The first byte and the bytes after it of an encoding that stands before other bytes. -/
theorem encode_append_eq_cons {i : Instr} {r bytes : List Byte} {b0 : Byte} (h : encode i ++ r = b0 :: bytes) :
    i.op0 = b0 ∧ i.tailBytes ++ r = bytes := List.cons_eq_cons.1 h

/-! ### The length table -/

/-- The ModRM byte of a well-formed r/m operand, which is the first of the operand's bytes, tells the number of its
displacement bytes (R84, R86). -/
theorem dispOf_encode {rm : RmOperand} (h : rm.wf = true) (reg : Fin 8) (imm : List Byte) :
    dispOf ((rm.encode reg ++ imm).headD 0) = rm.dispLen := by
  have key : ∀ (m : Fin 4) (g k : Fin 8), dispOf (modRmByte m g k) =
      if m = 0 then (if k = 6 then 2 else 0) else if m = 1 then 1 else if m = 2 then 2 else 0 := by decide
  refine (key rm.modCode reg rm.rmCode).trans ?_
  cases rm with
  | noDisp t => exact if_neg (Machine.code_ne_six h)
  | _ => rfl

/-- The row of the length table that a reg/mem-with-reg form lies in (R101). -/
theorem tableLength_rmReg {base : Byte} (h : base ∈ [(0x88 : Byte), 0x00, 0x28, 0x38]) (d : Bool) (w : Width)
    (b1 : Byte) : tableLength (rmRegOpcode base d w) b1 = 2 + dispOf b1 := by
  revert base
  simp only [List.forall_mem_cons]
  cases d <;> cases w <;> exact ⟨rfl, rfl, rfl, rfl, fun _ h => nomatch h⟩

/-- The rows of the length table that opcodes C6 and C7 lie in (R101). -/
theorem tableLength_movRmImm (w : Width) (b1 : Byte) : tableLength (0xC6 ||| w.bit) b1 = 2 + dispOf b1 + w.bytes := by
  rw [Nat.add_right_comm]
  cases w <;> rfl

/-- The rows of the length table that the immediate group lies in (R101). -/
theorem tableLength_group (g : GroupImm) (b1 : Byte) : tableLength g.opcode b1 = 2 + dispOf b1 + g.len := by
  rw [Nat.add_right_comm]
  cases g <;> rfl

/-- The table gives the length of every well-formed instruction from its first two bytes (R101). -/
theorem len_eq_tableLength {i : Instr} (h : i.wf = true) : i.len = tableLength i.op0 (i.tailBytes.headD 0) := by
  cases i with
  | movRmReg d w rm r | addRmReg d w rm r | subRmReg d w rm r | cmpRmReg d w rm r =>
    have hd := dispOf_encode (rm := rm) h r []
    rw [List.append_nil] at hd
    rw [Instr.op0, tableLength_rmReg (by simp), Instr.tailBytes, hd, Instr.len]
  | movRmImm w rm imm => rw [Instr.op0, tableLength_movRmImm, Instr.tailBytes, dispOf_encode h, Instr.len]
  | addRmImm rm g | subRmImm rm g | cmpRmImm rm g =>
    rw [Instr.op0, tableLength_group, Instr.tailBytes, dispOf_encode h, Instr.len]
  | movRegImm w r imm => cases w <;> fin_cases r <;> rfl
  | movAccMem w | movMemAcc w | addAccImm w | subAccImm w | cmpAccImm w => cases w <;> rfl
  | _ => rfl

/-- Settles O6: the bytes decoded begin with those of the instruction delivered. -/
theorem decodedLengthFollowsTable : Obligations.DecodedLengthFollowsTable := by
  unfold Obligations.DecodedLengthFollowsTable
  intro b0 bytes rest i h
  obtain ⟨hlen, hge, hle⟩ := encode_length_statement i
  obtain ⟨hwf, hb⟩ := decode_eq_ok h
  obtain ⟨rfl, rfl⟩ := encode_append_eq_cons hb
  have htail : i.tailBytes.length + 1 = i.len := hlen
  obtain ⟨b1, t, ht⟩ := List.exists_cons_of_length_pos (l := i.tailBytes) (by omega)
  refine ⟨?_, (decode_length h).symm, by omega, hle⟩
  rw [len_eq_tableLength hwf, ht, List.cons_append, List.headD_cons, List.headD_cons]

/-! ### Why a decode fails -/

/-- The reg field as a number (R82). -/
theorem regField_val (b1 : Byte) : (regField b1).val = b1.toNat / 8 % 8 := by
  simp [regField, Nat.shiftRight_eq_div_pow]

/-- The two first bytes select no row: the reg field of a group, or of C6 and C7, is one that R92 and R93 refuse. -/
def IllegalSubOpcode (b0 b1 : Byte) : Prop :=
  (opKind b0 = some .group ∧ groupInstr (regField b1) = none) ∨ (opKind b0 = some .movRmImm ∧ regField b1 ≠ 0)

/-- Such bytes are refused whatever follows them (R92, R93). -/
theorem decode_of_illegalSubOpcode {b0 b1 : Byte} (h : IllegalSubOpcode b0 b1) (rest : List Byte) :
    decode b0 (b1 :: rest) = .error (.illegalSubOpcode b1) := by
  obtain ⟨hk, hr⟩ | ⟨hk, hr⟩ := h
  · simp [decode, hk, decodeGroup, readByte, orTruncated, hr]
  · simp [decode, hk, decodeMovRmImm, readByte, orTruncated, hr]

section Formats

variable {b0 : Byte} {rest : List Byte} {e : DecodeFail}

/-- The last part of an instruction can only be missing (R98). -/
theorem orTruncated_ok_eq_error {α : Type} {part : Option (α × List Byte)} {f : α → List Byte → Instr × List Byte}
    (h : orTruncated b0 part (fun a r => .ok (f a r)) = .error e) : e = .truncated b0 := by
  obtain rfl | ⟨a, r, -, h⟩ := orTruncated_eq_error h
  · rfl
  · cases h

theorem decodeRmReg_eq_error {mk : Bool → Width → RmOperand → RegIdx → Instr}
    (h : decodeRmReg mk b0 rest = .error e) : e = .truncated b0 := by
  obtain rfl | ⟨b1, r1, -, h⟩ := orTruncated_eq_error h
  · rfl
  · exact orTruncated_ok_eq_error h

theorem decodeMovRmImm_eq_error (h : decodeMovRmImm b0 rest = .error e) :
    e = .truncated b0 ∨ ∃ b1 r, rest = b1 :: r ∧ regField b1 ≠ 0 ∧ e = .illegalSubOpcode b1 := by
  obtain rfl | ⟨b1, r1, h1, h⟩ := orTruncated_eq_error h
  · exact .inl rfl
  split at h
  · obtain rfl | ⟨rm, r2, -, h⟩ := orTruncated_eq_error h
    · exact .inl rfl
    · exact .inl (orTruncated_ok_eq_error h)
  · next hreg =>
    cases h
    exact .inr ⟨b1, r1, readByte_eq_some h1, hreg, rfl⟩

theorem decodeGroup_eq_error (h : decodeGroup b0 rest = .error e) :
    e = .truncated b0 ∨ ∃ b1 r, rest = b1 :: r ∧ groupInstr (regField b1) = none ∧ e = .illegalSubOpcode b1 := by
  obtain rfl | ⟨b1, r1, h1, h⟩ := orTruncated_eq_error h
  · exact .inl rfl
  split at h
  · next hreg =>
    cases h
    exact .inr ⟨b1, r1, readByte_eq_some h1, hreg, rfl⟩
  · obtain rfl | ⟨rm, r2, -, h⟩ := orTruncated_eq_error h
    · exact .inl rfl
    · exact .inl (orTruncated_ok_eq_error h)

/-- Everything a failed decode can be: the first byte or the first two select no row, or bytes are missing (R92 to
R94, R98). -/
theorem decode_eq_error (h : decode b0 rest = .error e) :
    (opKind b0 = none ∧ e = .illegalOpcode b0) ∨ e = .truncated b0 ∨
      ∃ b1 r, rest = b1 :: r ∧ IllegalSubOpcode b0 b1 ∧ e = .illegalSubOpcode b1 := by
  cases hk : opKind b0 with
  | none =>
    rw [decode, hk] at h
    cases h
    exact .inl ⟨rfl, rfl⟩
  | some k =>
    rw [decode, hk] at h
    refine .inr ?_
    cases k with
    | movRmReg | addRmReg | subRmReg | cmpRmReg => exact .inl (decodeRmReg_eq_error h)
    | movRmImm =>
      refine (decodeMovRmImm_eq_error h).imp_right ?_
      rintro ⟨b1, r, hr, hreg, he⟩
      exact ⟨b1, r, hr, .inr ⟨hk, hreg⟩, he⟩
    | group =>
      refine (decodeGroup_eq_error h).imp_right ?_
      rintro ⟨b1, r, hr, hreg, he⟩
      exact ⟨b1, r, hr, .inl ⟨hk, hreg⟩, he⟩
    | _ => exact .inl (orTruncated_ok_eq_error h)

end Formats

/-- A well-formed instruction that is cut short after its first byte is refused as truncated (R97, R98): an instruction
read from the part would be read from the whole, and so would a failure of another kind. -/
theorem decode_take_tailBytes {i : Instr} (h : i.wf = true) {k : Nat} (hk : k < i.tailBytes.length) :
    decode i.op0 (i.tailBytes.take k) = .error (.truncated i.op0) := by
  have hwhole : decode i.op0 (i.tailBytes.take k ++ i.tailBytes.drop k) = .ok (i, []) := by
    rw [List.take_append_drop, ← List.append_nil i.tailBytes]
    exact decode_encode h []
  cases hd : decode i.op0 (i.tailBytes.take k) with
  | ok x =>
    obtain ⟨j, r⟩ := x
    obtain ⟨hj, hb⟩ := decode_eq_ok hd
    obtain ⟨hop, htail⟩ := encode_append_eq_cons hb
    rw [← hop, ← htail, List.append_assoc, decode_encode hj] at hwhole
    simp only [Except.ok.injEq, Prod.mk.injEq, List.append_eq_nil_iff, List.drop_eq_nil_iff] at hwhole
    omega
  | error e =>
    obtain ⟨hnone, -⟩ | rfl | ⟨b1, r, hr, hsub, -⟩ := decode_eq_error hd
    · rw [opKind_op0] at hnone
      cases hnone
    · rfl
    · rw [hr, List.cons_append, decode_of_illegalSubOpcode hsub] at hwhole
      cases hwhole

end Sys2Proof
end

section
/-! PROOFS. A fetch that decodes to no instruction, in every mode (30_encoding.md R92 to R94, R98): which bytes the
step refuses, and what it reports. -/

namespace Sys2Proof.Machine

open Sys2Proof.Statements

/-! ### The step at a failed decode -/

theorem pointer_decodeOnly {s : State} (h : s.mode = .decodeOnly) : pointer s = s.dpos := by simp [pointer, h]

/-- In every mode, a step whose bytes do not decode reports the failure at the mode's pointer (R270, R306). -/
theorem step_of_decode_error {s : State} (h : Fetching s) {e : DecodeFail} (he : s.decodeAt (pointer s) = .error e) :
    step s = .next (s.raiseDecode (pointer s) e) := by
  obtain ⟨hrun, hres, hlt⟩ := h
  cases hm : s.mode with
  | scalar =>
    rw [pointer_scalar hm] at *
    rw [step_scalar hrun hm, scalarStep, if_neg (BitVec.not_le.2 hlt), he]
  | vector =>
    rw [pointer_vector hm] at *
    rw [step_vector hrun hm, vectorStep, if_neg (BitVec.not_le.2 hlt), he]
  | decodeOnly =>
    rw [pointer_decodeOnly hm] at *
    rw [step_decodeOnly hrun hm, decodeOnlyStep, if_neg (BitVec.not_le.2 hlt), he]
  | reserved => exact absurd hm hres

/-- NextSeq of the statements is the model's (R135). -/
theorem nextSeq_eq_after (off : Word) (len : Nat) : nextSeq off len = after off len := by
  apply BitVec.eq_of_toNat_eq
  simp [nextSeq, after, BitVec.toNat_add]

/-! ### The first byte -/

/-- The admitted first bytes are those that select a row (R91, R94). -/
theorem admitted_iff (b : Byte) : Admitted b ↔ (opKind b).isSome = true := by
  unfold Admitted
  revert b
  decide

/-- The admitted first bytes, rising. -/
def admittedBytes : List Byte := ((List.finRange 256).map BitVec.ofFin).filter fun b => (opKind b).isSome

theorem admittedBytes_nodup : admittedBytes.Nodup :=
  ((List.nodup_finRange 256).map fun _ _ h => BitVec.ofFin.inj h).filter _

theorem mem_admittedBytes (b : Byte) : b ∈ admittedBytes ↔ Admitted b := by
  have hb : b ∈ (List.finRange 256).map BitVec.ofFin := List.mem_map.2 ⟨b.toFin, List.mem_finRange _, rfl⟩
  simp only [admittedBytes, List.mem_filter, hb, true_and, admitted_iff]

/-- Settles O3: a first byte that selects no row fails the decode, and no other failure is DecodeError at it. -/
theorem illegalFirstByteRaisesDecodeError : Obligations.IllegalFirstByteRaisesDecodeError := by
  unfold Obligations.IllegalFirstByteRaisesDecodeError
  refine ⟨fun s hs hna => ?_, fun b0 rest ha b hd => ?_,
    admittedBytes, admittedBytes_nodup, by decide, mem_admittedBytes⟩
  · rw [admitted_iff, Option.not_isSome_iff_eq_none] at hna
    refine step_of_decode_error (e := .illegalOpcode _) hs ?_
    rw [State.decodeAt, decode, hna]
  · obtain ⟨hnone, -⟩ | he | ⟨b1, r, -, -, he⟩ := decode_eq_error hd
    · rw [admitted_iff, hnone] at ha
      cases ha
    · cases he
    · cases he

/-! ### The sub-opcode -/

/-- The first bytes of the immediate group (R92). -/
theorem opKind_eq_group_iff (b : Byte) : opKind b = some .group ↔ 0x80 ≤ b.toNat ∧ b.toNat ≤ 0x83 := by
  revert b
  decide

/-- Opcodes C6 and C7 (R93). -/
theorem opKind_eq_movRmImm_iff (b : Byte) : opKind b = some .movRmImm ↔ 0xC6 ≤ b.toNat ∧ b.toNat ≤ 0xC7 := by
  revert b
  decide

/-- The reg fields that the group refuses (R92). -/
theorem groupInstr_eq_none_iff (reg : Fin 8) : groupInstr reg = none ↔ reg.val ≠ 0 ∧ reg.val ≠ 5 ∧ reg.val ≠ 7 := by
  fin_cases reg <;> simp [groupInstr]

/-- Which first two bytes select no row, as numbers (R92, R93). -/
theorem illegalSubOpcode_iff (b0 b1 : Byte) : IllegalSubOpcode b0 b1 ↔
    (0x80 ≤ b0.toNat ∧ b0.toNat ≤ 0x83 ∧
      b1.toNat / 8 % 8 ≠ 0 ∧ b1.toNat / 8 % 8 ≠ 5 ∧ b1.toNat / 8 % 8 ≠ 7) ∨
    (0xC6 ≤ b0.toNat ∧ b0.toNat ≤ 0xC7 ∧ b1.toNat / 8 % 8 ≠ 0) := by
  rw [IllegalSubOpcode, opKind_eq_group_iff, opKind_eq_movRmImm_iff, groupInstr_eq_none_iff, ← Fin.val_ne_zero_iff,
    regField_val, and_assoc, and_assoc]

/-- The reg field of a ModRM byte that a decode has consumed. -/
theorem regField_of_encode {rm : RmOperand} {reg : Fin 8} {b1 : Byte} {imm r rest : List Byte}
    (h : rm.encode reg ++ imm ++ r = b1 :: rest) : b1.toNat / 8 % 8 = reg.val := by
  obtain ⟨rfl, -⟩ := List.cons_eq_cons.1 h
  rw [← regField_val, regField_modRmByte]

/-- What decodes from the group's opcodes is the operation its reg field selects (R92). -/
theorem group_selects {b0 b1 : Byte} {rest r : List Byte} {i : Instr} (hk : opKind b0 = some .group)
    (h : decode b0 (b1 :: rest) = .ok (i, r)) :
    (i.cls = .add ∧ b1.toNat / 8 % 8 = 0) ∨ (i.cls = .sub ∧ b1.toNat / 8 % 8 = 5) ∨
      (i.cls = .cmp ∧ b1.toNat / 8 % 8 = 7) := by
  rw [decode, hk] at h
  obtain ⟨reg, mk, rm, g, hmk, -, rfl, -, hb⟩ := decodeGroup_eq_ok hk h
  rw [regField_of_encode hb]
  obtain ⟨rfl, rfl⟩ | ⟨rfl, rfl⟩ | ⟨rfl, rfl⟩ := groupInstr_eq_some hmk
  · exact .inl ⟨rfl, rfl⟩
  · exact .inr (.inl ⟨rfl, rfl⟩)
  · exact .inr (.inr ⟨rfl, rfl⟩)

/-- What decodes from C6 and C7 is a MOV, and its reg field is 0 (R93). -/
theorem movRmImm_reg_eq_zero {b0 b1 : Byte} {rest r : List Byte} {i : Instr} (hk : opKind b0 = some .movRmImm)
    (h : decode b0 (b1 :: rest) = .ok (i, r)) : i.cls = .mov ∧ b1.toNat / 8 % 8 = 0 := by
  rw [decode, hk] at h
  obtain ⟨rm, imm, -, rfl, hb⟩ := decodeMovRmImm_eq_ok h
  exact ⟨rfl, regField_of_encode hb⟩

/-- Settles O4: fetch delivers the second byte, and the first two decide. -/
theorem illegalSubOpcodeRaisesDecodeError : Obligations.IllegalSubOpcodeRaisesDecodeError := by
  unfold Obligations.IllegalSubOpcodeRaisesDecodeError
  refine ⟨?_, fun b0 b1 rest r i hge hle => group_selects ?_, fun b0 b1 rest r i hge hle => movRmImm_reg_eq_zero ?_⟩
  · intro s hs hlt b0 b1 reg hbad
    have hsub : IllegalSubOpcode (s.fetchByte (pointer s).toNat) b1 := (illegalSubOpcode_iff _ _).2 hbad
    rw [← nextSeq_eq_after]
    refine step_of_decode_error (e := .illegalSubOpcode b1) hs ?_
    rw [State.decodeAt, show maxInsn - 1 = 4 + 1 from rfl, fetchFrom_cons 4 hlt, decode_of_illegalSubOpcode hsub]
  · exact (opKind_eq_group_iff b0).2 ⟨hge, hle⟩
  · exact (opKind_eq_movRmImm_iff b0).2 ⟨hge, hle⟩

/-! ### Truncation -/

/-- Settles O5: fetch delivers the bytes up to the program's end, where the encoding is cut short. -/
theorem truncatedInstructionRaisesInputTruncated : Obligations.TruncatedInstructionRaisesInputTruncated := by
  unfold Obligations.TruncatedInstructionRaisesInputTruncated
  intro s i k hs hwf hpos hk hend hr
  obtain ⟨hlen, -, hle⟩ := encode_length_statement i
  have htail : i.tailBytes.length + 1 = i.len := hlen
  have hmax : maxInsn = 6 := rfl
  obtain ⟨k, rfl⟩ := Nat.exists_eq_succ_of_ne_zero (Nat.ne_of_gt hpos)
  have hr' : FetchReads s (pointer s).toNat (i.op0 :: i.tailBytes.take k) := hr
  have hcut : (i.tailBytes.take k).length = k := List.length_take_of_le (by omega)
  have hfirst : s.fetchByte (pointer s).toNat = i.op0 := hr' 0 (Nat.succ_pos _)
  have hrest : s.fetchFrom ((pointer s).toNat + 1) (maxInsn - 1) = i.tailBytes.take k := by
    refine fetchFrom_to_end (by omega) (by omega) fun j hj => ?_
    rw [Nat.add_assoc, Nat.add_comm 1 j]
    exact hr' (j + 1) (Nat.succ_lt_succ hj)
  refine step_of_decode_error (e := .truncated i.op0) hs ?_
  rw [State.decodeAt, hfirst, hrest, decode_take_tailBytes hwf (by omega)]

end Sys2Proof.Machine
end

section
/-! PROOFS. The decode-only sweep (30_encoding.md R103): one step, and a whole program. -/

namespace Sys2Proof.Machine

open Sys2Proof.Statements

/-! ### One step -/

/-- A step of the sweep at an instruction appends its record and moves the cursor past it (R103). -/
theorem step_decodeOnly_of_fetches {s : State} {i : Instr} (hr : s.runningIn .decodeOnly) (hf : s.fetches s.dpos i) :
    step s = .next (s.withSweep (s.out ++ [(s.dpos, i.record s.dpos)]) (nextSeq s.dpos i.len)) := by
  obtain ⟨hlt, r, hd⟩ := hf
  rw [step_decodeOnly hr.1 hr.2, decodeOnlyStep, if_neg (BitVec.not_le.2 hlt), hd]

/-- A step of the sweep at the program's end ends the run (R103). -/
theorem step_decodeOnly_of_end {s : State} (hr : s.runningIn .decodeOnly) (hend : s.progLen ≤ s.dpos) :
    step s = .next s.finish := by
  rw [step_decodeOnly hr.1 hr.2, decodeOnlyStep, if_pos hend]

/-- Settles O12: the two branches of the sweep's step. -/
theorem sweepStepAppendsRecord : Obligations.SweepStepAppendsRecord := by
  unfold Obligations.SweepStepAppendsRecord
  refine fun s hr => ⟨fun i hf => ?_, step_decodeOnly_of_end hr⟩
  rw [step_decodeOnly_of_fetches hr hf, nextSeq_eq_after]
  rfl

/-! ### A whole program -/

/-- Bytes that stand one after another are read one after another. -/
theorem fetchReads_append {s : State} {a : Nat} {l m : List Byte} (h : FetchReads s a (l ++ m)) :
    FetchReads s a l ∧ FetchReads s (a + l.length) m := by
  refine ⟨fun k hk => ?_, fun k hk => ?_⟩
  · rw [h k (by rw [List.length_append]; omega), List.getD_append _ _ _ _ hk]
  · rw [Nat.add_assoc, h _ (by rw [List.length_append]; omega), List.getD_append_right _ _ _ _ (by omega),
      Nat.add_sub_cancel_left]

/-- From any cursor at which the encodings of well-formed instructions stand up to the program's end, the sweep appends
their records and ends the run at L (R103). -/
theorem sweep_run (program : List Instr) {s : State} (hr : s.runningIn .decodeOnly) (hwf : ∀ i ∈ program, i.wf = true)
    (hl : s.progLen.toNat = s.dpos.toNat + (programBytes program).length)
    (hf : FetchReads s s.dpos.toNat (programBytes program)) :
    Sys2Proof.core.run (program.length + 1) s =
      .next (s.withSweep (s.out ++ recordsFrom s.dpos.toNat program) s.progLen).finish := by
  induction program generalizing s with
  | nil =>
    have hend : s.progLen = s.dpos := BitVec.eq_of_toNat_eq hl
    rw [List.length_nil, core_run_succ 0 (step_decodeOnly_of_end hr (BitVec.le_of_eq hend)), core_run_zero, recordsFrom,
      List.append_nil, hend]
    rfl
  | cons i rest ih =>
    obtain ⟨hi, hrest⟩ := List.forall_mem_cons.1 hwf
    obtain ⟨hlen, -⟩ := encode_length_statement i
    obtain ⟨hfi, hfrest⟩ := fetchReads_append hf
    rw [programBytes, List.length_append, hlen] at hl
    have hfetch : s.fetches s.dpos i := fetches_of_encoding hi (by omega) hfi
    have hnext := nextSeq_toNat_of_fetches hfetch
    rw [hlen, ← hnext] at hfrest
    have hl' : s.progLen.toNat = (nextSeq s.dpos i.len).toNat + (programBytes rest).length := by omega
    rw [List.length_cons, core_run_succ _ (step_decodeOnly_of_fetches hr hfetch),
      ih (s := s.withSweep (s.out ++ [(s.dpos, i.record s.dpos)]) (nextSeq s.dpos i.len)) hr hrest hl' hfrest]
    simp only [State.withSweep_out, State.withSweep_dpos, State.withSweep_progLen, hnext, recordsFrom,
      List.append_assoc, List.singleton_append, BitVec.ofNat_toNat, BitVec.setWidth_eq]
    rfl

/-- Settles O13: the run from cursor 0 and an empty stream. -/
theorem sweepListsWholeProgram : Obligations.SweepListsWholeProgram := by
  unfold Obligations.SweepListsWholeProgram
  intro s program hr hpos hout hwf hl hf
  have hpos' : s.dpos.toNat = 0 := by rw [hpos]; rfl
  have h := sweep_run program hr hwf (by omega) (hpos' ▸ hf)
  rw [hout, hpos', List.nil_append] at h
  exact h

end Sys2Proof.Machine
end

section
/-! PROOFS. The scalar and the vector step inside the program, and the end of a scalar run (40_execution.md R130, R131;
45_vector_engine.md R234). -/

namespace Sys2Proof.Machine

/-- Settles O8: ip or vip lies inside the program, and the decode there succeeds. -/
theorem stepExecutesDecodedInstruction : Obligations.StepExecutesDecodedInstruction := by
  unfold Obligations.StepExecutesDecodedInstruction
  exact fun s i => ⟨step_scalar_of_fetches, step_vector_of_fetches⟩

/-- A SCALAR step at the program's end ends the run (R131). -/
theorem step_scalar_of_end {s : State} (hr : s.runningIn .scalar) (hend : s.progLen ≤ s.ip) :
    step s = .next s.finish := by
  rw [step_scalar hr.1 hr.2, scalarStep, if_pos hend]

/-- Settles O10: `State.finish` writes STATUS.STATE alone. -/
theorem scalarRunEndsPastProgram : Obligations.ScalarRunEndsPastProgram := by
  unfold Obligations.ScalarRunEndsPastProgram
  exact fun s hr hend => step_scalar_of_end hr hend

end Sys2Proof.Machine
end

section
/-! PROOFS. MOV in the scalar engine (41_mov.md R160 to R165): what a write of an operand changes, the row of each form,
and the copy. -/

namespace Sys2Proof.Machine

open Sys2Proof.Statements

/-! ### What a write of an operand changes -/

/-- What a register index names in the statements is what it names in the model (R83). -/
theorem regValue_eq_readReg (x : Regs) (i : RegIdx) (w : Width) : regValue x i w = readReg x i w := by
  cases w <;> rfl

/-- A register write changes that register alone, byte or word (R22, R23). -/
theorem onlyRegister_writeReg (x : Regs) (i : RegIdx) {w : Width} (v : BitVec w.bits) :
    OnlyRegister x (writeReg x i w v) i v := by
  simp only [OnlyRegister, regValue_eq_readReg]
  refine ⟨readReg_writeReg x i w v, fun j hj => readReg_writeReg_of_ne x w hj v, ?_⟩
  rintro rfl j hj
  have howner := byteOwner_lt i
  exact readWord_writeReg8 x i j v (by rintro rfl; omega)

/-- A store changes the bytes of its width alone (R62, R63). -/
theorem onlyStored_memWrite {m : Memory} (h : m.wf) (a : Word) {w : Width} (v : BitVec w.bits) :
    OnlyStored m (memWrite m a w v) a v :=
  ⟨memRead_memWrite h a w v, fun _ hb => read_memWrite_of_outside h w v hb⟩

/-- WriteOp changes its operand alone, at the address of the starting registers (R66, R133). -/
theorem writesOperand_of_writeOp {s t : State} {w : Width} {dst : Operand w} {v : BitVec w.bits} {q : Datapath}
    (hs : s.mem.wf) (hq : writeOp s.datapath dst v = some q) (hx : t.x = q.x) (hm : t.mem = q.mem) :
    WritesOperand s t dst v := by
  obtain ⟨i, rfl, rfl⟩ | ⟨m, rfl, rfl⟩ := writeOp_eq_some _ hq
  · exact ⟨hx ▸ onlyRegister_writeReg s.x i v, hm⟩
  · exact ⟨hx, hm ▸ onlyStored_memWrite hs (effectiveAddress s.x m) v⟩

/-! ### The row of an instruction -/

/-- The first byte of a row whose pattern leaves the w bit free (R81). -/
theorem toNat_or_bit {base : Byte} (h : base.getLsbD 0 = false) (w : Width) :
    (base ||| w.bit).toNat = base.toNat + widthBit w := by
  revert base
  cases w <;> decide

/-- The first byte of a row whose pattern leaves the d and w bits free (R81). -/
theorem rmRegOpcode_toNat {base : Byte} (h : base.extractLsb' 0 2 = 0) (d : Bool) (w : Width) :
    (rmRegOpcode base d w).toNat = base.toNat + 2 * bitNat d + widthBit w := by
  revert base
  cases d <;> cases w <;> decide

/-- The first byte of MOV reg, imm holds the width and the register (R162). -/
theorem movRegImm_op0_toNat (w : Width) (r : RegIdx) (imm : BitVec w.bits) :
    (Instr.movRegImm w r imm).op0.toNat = 0xB0 + 8 * widthBit w + r.val := by
  show (0xB0 ||| (w.bit <<< 3) ||| BitVec.ofNat 8 r.val : Byte).toNat = _
  revert r
  cases w <;> decide

/-- The row of a reg/mem-with-reg form: the ModRM byte and at most two displacement bytes follow (R101). -/
theorem encodedAs_rmReg {i : Instr} {base : Byte} (hb : base.extractLsb' 0 2 = 0) {d : Bool} {w : Width} {rm : RmOperand}
    (ho : i.op0 = rmRegOpcode base d w) (hl : i.len = 2 + rm.dispLen) :
    EncodedAs i (base.toNat + 2 * bitNat d + widthBit w) 2 4 := by
  have hdisp := Laws.EncodeLength.dispLen_le rm
  exact ⟨ho ▸ rmRegOpcode_toNat hb d w, by omega, by omega⟩

/-- An instruction whose second byte is the ModRM byte has its reg field as sub-opcode (R92, R93). -/
theorem subOpcode_of_tailBytes {i : Instr} {rm : RmOperand} {reg : Fin 8} {imm : List Byte}
    (hi : i.tailBytes = rm.encode reg ++ imm) : SubOpcode i reg := by
  simp [SubOpcode, encode, hi, RmOperand.encode]

/-- The row of MOV r/m, imm (R161). -/
theorem encodedAs_movRmImm (w : Width) (rm : RmOperand) (imm : BitVec w.bits) :
    EncodedAs (.movRmImm w rm imm) (0xC6 + widthBit w) 3 6 := by
  have hdisp := Laws.EncodeLength.dispLen_le rm
  have himm := Laws.EncodeLength.bytes_bounds w
  refine ⟨toNat_or_bit (base := 0xC6) rfl w, ?_, ?_⟩ <;> simp only [Instr.len] <;> omega

/-- The row of MOV reg, imm (R162). -/
theorem encodedAs_movRegImm (w : Width) (r : RegIdx) (imm : BitVec w.bits) :
    EncodedAs (.movRegImm w r imm) (0xB0 + 8 * widthBit w + r.val) 2 3 := by
  have himm := Laws.EncodeLength.bytes_bounds w
  refine ⟨movRegImm_op0_toNat w r imm, ?_, ?_⟩ <;> simp only [Instr.len] <;> omega

/-! ### The copy -/

/-- An instruction whose action is MOV's effect copies its source to its destination in every SCALAR state (R165). -/
theorem moves_of_action {i : Instr} {w : Width} {dst src : Operand w}
    (ha : ∀ sc, action sc i = .data (movEffect dst src)) : Moves i dst src := by
  intro s hmode hwf
  obtain ⟨eff, q, hact, hq, hexec⟩ | ⟨rel, j, hact, -⟩ := exec_scalar (i := i) (s := s) (by simp [hmode]) <;>
    rw [ha] at hact <;> cases hact
  have hwrite : writeOp s.datapath dst (valueOf s src) = some q := readOp_eq_valueOf s src ▸ hq
  exact ⟨_, hexec, writesOperand_of_writeOp hwf hwrite rfl rfl, movEffect_flags hq, nextSeq_eq_after _ _, rfl⟩

/-- Settles O26: the row of each form, and its action, which is MOV's effect on its two operands. -/
theorem movCopiesSourceToDestination : Obligations.MovCopiesSourceToDestination := by
  unfold Obligations.MovCopiesSourceToDestination
  refine ⟨fun d w rm r => ?rmReg, fun w rm imm => ?rmImm, fun w r imm => ?regImm, fun w addr => ?accMem,
    fun w addr => ?memAcc⟩
  case rmReg => exact ⟨encodedAs_rmReg (base := 0x88) (rm := rm) rfl rfl rfl, moves_of_action fun _ => rfl⟩
  case rmImm =>
    exact ⟨encodedAs_movRmImm w rm imm, subOpcode_of_tailBytes (imm := immBytes w imm) rfl,
      moves_of_action fun _ => rfl⟩
  case regImm => exact ⟨encodedAs_movRegImm w r imm, moves_of_action fun _ => rfl⟩
  case accMem => exact ⟨⟨toNat_or_bit (base := 0xA0) rfl w, le_rfl, le_rfl⟩, moves_of_action fun _ => rfl⟩
  case memAcc => exact ⟨⟨toNat_or_bit (base := 0xA2) rfl w, le_rfl, le_rfl⟩, moves_of_action fun _ => rfl⟩

end Sys2Proof.Machine
end

section
/-! PROOFS. ADD, SUB and CMP (42_add_sub_cmp.md R170 to R182): the two ALU functions against exact integers, what the
flags before an instruction can reach, and the three classes in the scalar engine. -/

namespace Sys2Proof.Machine

open Sys2Proof.Statements

/-! ### Parity -/

/-- The model's count of 1 bits is the statements' (R12). -/
theorem onesBelow_eq_popCount {n : Nat} (v : BitVec n) (k : Nat) : onesBelow v k = popCount v k := by
  induction k with
  | zero => rfl
  | succ k ih =>
    rw [onesBelow, ih, popCount, popCount, List.range_succ, List.filter_append, List.length_append]
    cases hk : v.getLsbD k <;> simp [hk]

theorem evenParity_iff {n : Nat} (v : BitVec n) (k : Nat) : evenParity v k = true ↔ onesBelow v k % 2 = 0 :=
  beq_iff_eq

/-- The parity flag counts the bits that PF_SCOPE says, at every width (R172). -/
theorem parityFlag_parity {n : Nat} (sc : PfScope) (r : BitVec n) : ParityFlag sc r (parity sc r) := by
  unfold ParityFlag
  simp only [← onesBelow_eq_popCount]
  cases sc with
  | lowByte => exact ⟨fun _ => evenParity_iff r 8, nofun⟩
  | fullWidth => exact ⟨nofun, fun _ => evenParity_iff r n⟩

/-- Inside its low part, a concatenation has the 1 bits of that part. -/
theorem onesBelow_append_of_le {m n : Nat} (hi : BitVec m) (lo : BitVec n) {k : Nat} (h : k ≤ n) :
    onesBelow (hi ++ lo) k = onesBelow lo k := by
  induction k with
  | zero => rfl
  | succ k ih =>
    have hk : k < n := h
    simp [onesBelow, ih hk.le, BitVec.getLsbD_append, hk]

/-- Past its low part, a concatenation has the 1 bits of both parts. -/
theorem onesBelow_append_add {m n : Nat} (hi : BitVec m) (lo : BitVec n) (k : Nat) :
    onesBelow (hi ++ lo) (n + k) = onesBelow lo n + onesBelow hi k := by
  induction k with
  | zero => exact onesBelow_append_of_le hi lo le_rfl
  | succ k ih =>
    rw [← Nat.add_assoc, onesBelow, ih]
    simp [onesBelow, BitVec.getLsbD_append, Nat.add_assoc]

/-- Settles O19: a word's 1 bits are those of its two bytes, so the high byte alone makes the difference. -/
theorem parityFollowsScope : Obligations.ParityFollowsScope := by
  unfold Obligations.ParityFollowsScope
  refine ⟨fun sc w r => parityFlag_parity sc r, fun r => rfl, fun lo hi => ?_⟩
  have hlow : onesBelow (joinBytes lo hi) 8 = onesBelow lo 8 := onesBelow_append_of_le hi lo le_rfl
  have hfull : onesBelow (joinBytes lo hi) 16 = onesBelow lo 8 + onesBelow hi 8 := onesBelow_append_add hi lo 8
  rw [Ne, Bool.eq_iff_iff, parity, parity, evenParity_iff, evenParity_iff, hlow, hfull, ← onesBelow_eq_popCount]
  omega

/-! ### The ALU functions -/

/-- The sum that overflows is the one outside the signed numbers (R170). -/
theorem saddOverflow_iff {n : Nat} (a b : BitVec n) :
    a.saddOverflow b = true ↔ OutsideSigned n (a.toInt + b.toInt) := by
  simp [BitVec.saddOverflow, OutsideSigned, or_comm]

/-- The difference that overflows is the one outside the signed numbers (R171). -/
theorem ssubOverflow_iff {n : Nat} (a b : BitVec n) :
    a.ssubOverflow b = true ↔ OutsideSigned n (a.toInt - b.toInt) := by
  simp [BitVec.ssubOverflow, OutsideSigned, or_comm]

/-- The zero flag tests the number that the result holds. -/
theorem beq_zero_iff_toNat {n : Nat} (r : BitVec n) : (r == 0) = true ↔ r.toNat = 0 := by
  rw [beq_iff_eq, ← BitVec.toNat_inj]
  simp

/-- The sign flag compares the number that the result holds. -/
theorem msb_iff_toNat {n : Nat} (r : BitVec n) : r.msb = true ↔ 2 ^ (n - 1) ≤ r.toNat := by
  simp [BitVec.msb_eq_decide]

@[simp] theorem addAlu_result {n : Nat} (sc : PfScope) (a b : BitVec n) : (addAlu sc a b).1 = a + b :=
  (BitVec.add_def a b).symm

@[simp] theorem subAlu_result {n : Nat} (sc : PfScope) (a b : BitVec n) : (subAlu sc a b).1 = a - b := by
  simp [subAlu, Int.sub_eq_add_neg, BitVec.ofInt_add, BitVec.ofInt_neg, BitVec.sub_eq_add_neg]

/-- The overflow flag of AddALU is the signed overflow of the sum, by the operands' and the result's signs. -/
theorem addAlu_overflow {n : Nat} (sc : PfScope) (a b : BitVec n) : (addAlu sc a b).2.of = a.saddOverflow b := by
  rw [BitVec.saddOverflow_eq, ← addAlu_result sc]
  rfl

/-- The overflow flag of SubALU is the signed overflow of the difference, by the operands' and the result's signs. -/
theorem subAlu_overflow {n : Nat} (sc : PfScope) (a b : BitVec n) : (subAlu sc a b).2.of = a.ssubOverflow b := by
  rw [BitVec.ssubOverflow_eq, ← subAlu_result sc]
  show (a.msb != b.msb && (subAlu sc a b).1.msb != a.msb) = _
  cases a.msb <;> cases b.msb <;> simp

/-- AddALU at every width (R170). -/
theorem addAlu_outcome {n : Nat} (sc : PfScope) (a b : BitVec n) :
    AddOutcome sc a b (addAlu sc a b).1 (addAlu sc a b).2 where
  result := BitVec.toNat_ofNat _ _
  carry := decide_eq_true_iff
  auxCarry := decide_eq_true_iff
  overflow := addAlu_overflow sc a b ▸ saddOverflow_iff a b
  zero := beq_zero_iff_toNat _
  sign := msb_iff_toNat _
  parity := parityFlag_parity sc _

/-- SubALU at every width (R171). -/
theorem subAlu_outcome {n : Nat} (sc : PfScope) (a b : BitVec n) :
    SubOutcome sc a b (subAlu sc a b).1 (subAlu sc a b).2 where
  result := by
    have hpos : (2 ^ n : Int) ≠ 0 := by positivity
    simp [subAlu, BitVec.toNat_ofInt, Int.emod_nonneg _ hpos]
  carry := decide_eq_true_iff
  auxCarry := decide_eq_true_iff
  overflow := subAlu_overflow sc a b ▸ ssubOverflow_iff a b
  zero := beq_zero_iff_toNat _
  sign := msb_iff_toNat _
  parity := parityFlag_parity sc _

/-- Settles O17: AddALU's outcome holds at every width. -/
theorem addAluMatchesExactSum : Obligations.AddAluMatchesExactSum := by
  unfold Obligations.AddAluMatchesExactSum
  exact fun sc w a b => addAlu_outcome sc a b

/-- Settles O18: SubALU's outcome holds at every width. -/
theorem subAluMatchesExactDifference : Obligations.SubAluMatchesExactDifference := by
  unfold Obligations.SubAluMatchesExactDifference
  exact fun sc w a b => subAlu_outcome sc a b

/-! ### The action of an instruction in the scalar engine -/

/-- A data instruction outside VECTOR mode applies its effect to the datapath and goes on to NextSeq (R134, R135). -/
theorem exec_of_data {i : Instr} {eff : DataEffect} {s : State} (hm : s.mode ≠ .vector)
    (ha : action s.cfg.pfScope i = .data eff) :
    ∃ q, eff s.datapath = some q ∧ exec i s = .next (s.withScalar q (nextSeq s.ip i.len)) := by
  obtain ⟨_, q, hact, hq, ht⟩ | ⟨_, _, hact, -⟩ := exec_scalar (i := i) hm <;> rw [ha] at hact <;> cases hact
  exact ⟨q, hq, ht⟩

/-- A jump outside VECTOR mode (R200). -/
theorem exec_of_jump {i : Instr} {rel : Byte} {j : JumpRule} {s : State} (hm : s.mode ≠ .vector)
    (ha : action s.cfg.pfScope i = .jump rel j) : exec i s = .next (scalarJump i rel j s) := by
  obtain ⟨_, _, hact, -⟩ | ⟨_, _, hact, ht⟩ := exec_scalar (i := i) hm <;> rw [ha] at hact <;> cases hact
  exact ht

/-! ### Flags before an instruction -/

/-- The datapath with other flags. -/
def Datapath.withFlags (p : Datapath) (f : Flags) : Datapath := { p with flags := f }

@[simp] theorem Datapath.withFlags_x (p : Datapath) (f : Flags) : (p.withFlags f).x = p.x := rfl
@[simp] theorem Datapath.withFlags_flags (p : Datapath) (f : Flags) : (p.withFlags f).flags = f := rfl
@[simp] theorem Datapath.withFlags_mem (p : Datapath) (f : Flags) : (p.withFlags f).mem = p.mem := rfl

/-- No operand reads a flag (R132). -/
@[simp] theorem readOp_withFlags {w : Width} (p : Datapath) (f : Flags) (op : Operand w) :
    readOp (p.withFlags f) op = readOp p op := by
  cases op <;> rfl

/-- Writing an operand neither reads nor writes a flag (R133). -/
@[simp] theorem writeOp_withFlags {w : Width} (p : Datapath) (f : Flags) (dst : Operand w) (v : BitVec w.bits) :
    writeOp (p.withFlags f) dst v = (writeOp p dst v).map (·.withFlags f) := by
  cases dst <;> rfl

/-- MOV carries the flags it meets through (R165). -/
theorem movEffect_withFlags {w : Width} (dst src : Operand w) (p : Datapath) (f : Flags) :
    movEffect dst src (p.withFlags f) = (movEffect dst src p).map (·.withFlags f) := by
  simp [movEffect]

/-- ADD overwrites the flags it meets (R173). -/
theorem addEffect_withFlags {w : Width} (sc : PfScope) (dst src : Operand w) (p : Datapath) (f : Flags) :
    addEffect sc dst src (p.withFlags f) = addEffect sc dst src p := by
  simp [addEffect, Function.comp_def]

/-- SUB overwrites the flags it meets (R173). -/
theorem subEffect_withFlags {w : Width} (sc : PfScope) (dst src : Operand w) (p : Datapath) (f : Flags) :
    subEffect sc dst src (p.withFlags f) = subEffect sc dst src p := by
  simp [subEffect, Function.comp_def]

/-- CMP overwrites the flags it meets (R173). -/
theorem cmpEffect_withFlags {w : Width} (sc : PfScope) (dst src : Operand w) (p : Datapath) (f : Flags) :
    cmpEffect sc dst src (p.withFlags f) = cmpEffect sc dst src p := by
  simp [cmpEffect]

/-- The flags before a data instruction reach at most the flags after it, and not even those after ADD, SUB or CMP. -/
theorem effect_withFlags {sc : PfScope} {i : Instr} {eff : DataEffect} (h : action sc i = .data eff) {p q : Datapath}
    (hq : eff p = some q) (f : Flags) :
    ∃ g, eff (p.withFlags f) = some (q.withFlags g) ∧ (WritesFlags i.cls → g = q.flags) := by
  cases i with
  | movRmReg | movRmImm | movRegImm | movAccMem | movMemAcc =>
    cases h
    exact ⟨f, by rw [movEffect_withFlags, hq, Option.map_some], by simp [WritesFlags, Instr.cls]⟩
  | addRmReg | addRmImm | addAccImm =>
    cases h
    exact ⟨q.flags, (addEffect_withFlags ..).trans hq, fun _ => rfl⟩
  | subRmReg | subRmImm | subAccImm =>
    cases h
    exact ⟨q.flags, (subEffect_withFlags ..).trans hq, fun _ => rfl⟩
  | cmpRmReg | cmpRmImm | cmpAccImm =>
    cases h
    exact ⟨q.flags, (cmpEffect_withFlags ..).trans hq, fun _ => rfl⟩
  | _ => cases h

/-- A jump is of no data class (R91). -/
theorem cls_of_jump {sc : PfScope} {i : Instr} {rel : Byte} {j : JumpRule} (h : action sc i = .jump rel j) :
    ¬ (i.cls = .mov ∨ WritesFlags i.cls) := by
  cases i with
  | movRmReg | movRmImm | movRegImm | movAccMem | movMemAcc | addRmReg | addRmImm | addAccImm | subRmReg | subRmImm
  | subAccImm | cmpRmReg | cmpRmImm | cmpAccImm => cases h
  | _ => simp [WritesFlags, Instr.cls]

/-- Settles O20: an effect carries the flags it meets through or overwrites them; a jump reads them for ip alone. -/
theorem aluFlagsIgnorePriorFlags : Obligations.AluFlagsIgnorePriorFlags := by
  unfold Obligations.AluFlagsIgnorePriorFlags
  intro i s f hmode
  have hm : s.mode ≠ .vector := by simp [hmode]
  have hm' : State.mode { s with flags := f } ≠ .vector := hm
  cases ha : action s.cfg.pfScope i with
  | data eff =>
    obtain ⟨q, hq, ht⟩ := exec_of_data hm ha
    obtain ⟨q', hq', hu⟩ := exec_of_data hm' ha
    obtain ⟨g, hg, hflags⟩ := effect_withFlags ha hq f
    obtain rfl : q.withFlags g = q' := Option.some.inj (hg.symm.trans hq')
    exact ⟨_, _, ht, hu, rfl, rfl, fun _ => rfl, hflags, fun hc => ⟨exec_keeps_flags hc ht, exec_keeps_flags hc hu⟩⟩
  | jump rel j =>
    have hc := cls_of_jump ha
    exact ⟨_, _, exec_of_jump hm ha, exec_of_jump hm' ha, rfl, rfl, fun h => absurd h hc,
      fun h => absurd (.inr h) hc, fun _ => ⟨rfl, rfl⟩⟩

/-! ### The rows -/

/-- The row of a group form: the ModRM byte, at most two displacement bytes and the immediate follow (R92, R101). -/
theorem encodedAs_group {i : Instr} {rm : RmOperand} {g : GroupImm} (ho : i.op0 = g.opcode)
    (hl : i.len = 2 + rm.dispLen + g.len) : EncodedAs i g.opcode.toNat (2 + g.len) (4 + g.len) := by
  have hdisp := Laws.EncodeLength.dispLen_le rm
  exact ⟨by rw [ho], by omega, by omega⟩

/-- What holds of a class's r/m, imm form at every group immediate, `P`, holds at each of the four opcodes with the row
and the sub-opcode; opcode 83 sign-extends its byte (R92, R107). -/
theorem groupForms {mk : RmOperand → GroupImm → Instr} {reg : Fin 8}
    {P : Instr → (w : Width) → Operand w → Operand w → Prop} (ho : ∀ rm g, (mk rm g).op0 = g.opcode)
    (hl : ∀ rm g, (mk rm g).len = 2 + rm.dispLen + g.len) (ht : ∀ rm g, (mk rm g).tailBytes = rm.encode reg ++ g.bytes)
    (hP : ∀ rm g, P (mk rm g) g.width (rm.operand g.width) (.imm g.value)) (rm : RmOperand) :
    (∀ g, SubOpcode (mk rm g) reg) ∧
    (∀ v, EncodedAs (mk rm (.op80 v)) 0x80 3 5 ∧ P (mk rm (.op80 v)) .byte (rm.operand .byte) (.imm v)) ∧
    (∀ v, EncodedAs (mk rm (.op81 v)) 0x81 4 6 ∧ P (mk rm (.op81 v)) .word (rm.operand .word) (.imm v)) ∧
    (∀ v, EncodedAs (mk rm (.op82 v)) 0x82 3 5 ∧ P (mk rm (.op82 v)) .byte (rm.operand .byte) (.imm v)) ∧
    (∀ v, EncodedAs (mk rm (.op83 v)) 0x83 3 5 ∧
      P (mk rm (.op83 v)) .word (rm.operand .word) (.imm (BitVec.ofInt 16 v.toInt))) := by
  have hrow (g : GroupImm) : EncodedAs (mk rm g) g.opcode.toNat (2 + g.len) (4 + g.len) ∧
      P (mk rm g) g.width (rm.operand g.width) (.imm g.value) := ⟨encodedAs_group (ho rm g) (hl rm g), hP rm g⟩
  exact ⟨fun g => subOpcode_of_tailBytes (ht rm g), fun v => hrow (.op80 v), fun v => hrow (.op81 v),
    fun v => hrow (.op82 v), fun v => hrow (.op83 v)⟩

/-- The row of an accumulator form: the immediate follows (R97, R101). -/
theorem encodedAs_accImm {i : Instr} {base : Byte} (hb : base.getLsbD 0 = false) {w : Width}
    (ho : i.op0 = base ||| w.bit) (hl : i.len = 1 + w.bytes) : EncodedAs i (base.toNat + widthBit w) 2 3 := by
  have himm := Laws.EncodeLength.bytes_bounds w
  exact ⟨ho ▸ toNat_or_bit hb w, by omega, by omega⟩

/-! ### The three classes in the scalar engine -/

section Classes

variable {i : Instr} {w : Width} {dst src : Operand w}

/-- An instruction whose action is ADD's effect adds in every SCALAR state (R174 to R176). -/
theorem adds_of_action (ha : ∀ sc, action sc i = .data (addEffect sc dst src)) : Adds i dst src := by
  intro s hmode hwf
  obtain ⟨q, hq, hexec⟩ := exec_of_data (s := s) (by simp [hmode]) (ha _)
  obtain ⟨p, hwrite, rfl⟩ := addEffect_eq_some hq
  simp only [readOp_eq_valueOf] at hwrite hexec
  exact ⟨_, _, hexec, addAlu_outcome _ _ _, writesOperand_of_writeOp hwf hwrite rfl rfl, nextSeq_eq_after _ _, rfl⟩

/-- An instruction whose action is SUB's effect subtracts in every SCALAR state (R177 to R179). -/
theorem subtracts_of_action (ha : ∀ sc, action sc i = .data (subEffect sc dst src)) : Subtracts i dst src := by
  intro s hmode hwf
  obtain ⟨q, hq, hexec⟩ := exec_of_data (s := s) (by simp [hmode]) (ha _)
  obtain ⟨p, hwrite, rfl⟩ := subEffect_eq_some hq
  simp only [readOp_eq_valueOf] at hwrite hexec
  exact ⟨_, _, hexec, subAlu_outcome _ _ _, writesOperand_of_writeOp hwf hwrite rfl rfl, nextSeq_eq_after _ _, rfl⟩

/-- An instruction whose action is CMP's effect compares in every SCALAR state (R180 to R182). -/
theorem compares_of_action (ha : ∀ sc, action sc i = .data (cmpEffect sc dst src)) : Compares i dst src := by
  intro s hmode
  obtain ⟨q, hq, hexec⟩ := exec_of_data (s := s) (by simp [hmode]) (ha _)
  obtain rfl := Option.some.inj hq
  simp only [readOp_eq_valueOf] at hexec
  exact ⟨_, _, hexec, subAlu_outcome _ _ _, rfl, rfl, nextSeq_eq_after _ _, rfl⟩

end Classes

/-- Settles O27: the row of each form, and its action, which is ADD's effect on its two operands. -/
theorem addWritesSumAndFlags : Obligations.AddWritesSumAndFlags := by
  unfold Obligations.AddWritesSumAndFlags
  refine ⟨fun d w rm r => ⟨?rmRegRow, adds_of_action fun _ => rfl⟩, ?rmImm,
    fun w imm => ⟨encodedAs_accImm (base := 0x04) rfl rfl rfl, adds_of_action fun _ => rfl⟩⟩
  case rmRegRow =>
    rw [← Nat.zero_add (2 * bitNat d)]
    exact encodedAs_rmReg (base := 0x00) (rm := rm) rfl rfl rfl
  case rmImm =>
    exact groupForms (mk := .addRmImm) (P := fun i _ dst src => Adds i dst src) (fun _ _ => rfl) (fun _ _ => rfl)
      (fun _ _ => rfl) fun _ _ => adds_of_action fun _ => rfl

/-- Settles O28: the row of each form, and its action, which is SUB's effect on its two operands. -/
theorem subWritesDifferenceAndFlags : Obligations.SubWritesDifferenceAndFlags := by
  unfold Obligations.SubWritesDifferenceAndFlags
  refine ⟨fun d w rm r => ⟨encodedAs_rmReg (base := 0x28) (rm := rm) rfl rfl rfl, subtracts_of_action fun _ => rfl⟩,
    ?rmImm, fun w imm => ⟨encodedAs_accImm (base := 0x2C) rfl rfl rfl, subtracts_of_action fun _ => rfl⟩⟩
  case rmImm =>
    exact groupForms (mk := .subRmImm) (P := fun i _ dst src => Subtracts i dst src) (fun _ _ => rfl) (fun _ _ => rfl)
      (fun _ _ => rfl) fun _ _ => subtracts_of_action fun _ => rfl

/-- Settles O29: the row of each form, and its action, which is CMP's effect on its two operands. -/
theorem cmpSetsFlagsAndWritesNothing : Obligations.CmpSetsFlagsAndWritesNothing := by
  unfold Obligations.CmpSetsFlagsAndWritesNothing
  refine ⟨fun d w rm r => ⟨encodedAs_rmReg (base := 0x38) (rm := rm) rfl rfl rfl, compares_of_action fun _ => rfl⟩,
    ?rmImm, fun w imm => ⟨encodedAs_accImm (base := 0x3C) rfl rfl rfl, compares_of_action fun _ => rfl⟩⟩
  case rmImm =>
    exact groupForms (mk := .cmpRmImm) (P := fun i _ dst src => Compares i dst src) (fun _ _ => rfl) (fun _ _ => rfl)
      (fun _ _ => rfl) fun _ _ => compares_of_action fun _ => rfl

end Sys2Proof.Machine
end

section
/-! PROOFS. The jumps in the scalar engine (43_jumps.md R200 to R223): the state after a jump, what it reads and
changes, the twenty conditions, and the loop that counts CX down. -/

namespace Sys2Proof.Machine

open Sys2Proof.Statements

/-! ### The state after a jump -/

/-- The model's jump target at a jump's length is the exact integer sum modulo 2^16 (R135, R200). -/
theorem jumpTarget_eq_target (off : Word) (rel : Byte) : jumpTarget off 2 rel = target off rel := by
  simp [jumpTarget, nextSeq, target, BitVec.signExtend, BitVec.ofInt_add]

/-- The registers after a jump: CX one less after LOOP, LOOPZ and LOOPNZ (R200). -/
def regsAfterJump (i : Instr) (x : Regs) : Regs := if countsCx i then decCx x else x

/-- The state after a jump: the condition is read after the decrement of CX (R200, R201, R218 to R221). -/
def afterJump (i : Instr) (rel : Byte) (s : State) : State :=
  s.withScalar ⟨regsAfterJump i s.x, s.flags, s.mem⟩
    (if takenIf i (regsAfterJump i s.x) s.flags then target s.ip rel else after s.ip 2)

theorem afterJump_ip (i : Instr) (rel : Byte) (s : State) :
    (afterJump i rel s).ip = if takenIf i (regsAfterJump i s.x) s.flags then target s.ip rel else after s.ip 2 := rfl

@[simp] theorem afterJump_x (i : Instr) (rel : Byte) (s : State) : (afterJump i rel s).x = regsAfterJump i s.x := rfl

section Jump

variable {i : Instr} {rel : Byte} (h : i.operands = .jump (.imm rel))
include h

/-- An instruction with a jump's operand acts by a jump rule: that of the statements' registers and condition. -/
theorem action_of_jump_operands (sc : PfScope) :
    ∃ j, action sc i = .jump rel j ∧ j.regs = regsAfterJump i ∧ j.taken = takenIf i := by
  cases i with
  | movRmReg | movRmImm | movRegImm | movAccMem | movMemAcc | addRmReg | addRmImm | addAccImm | subRmReg | subRmImm
  | subAccImm | cmpRmReg | cmpRmImm | cmpAccImm => cases h
  | ja =>
    cases h
    exact ⟨_, rfl, rfl, funext₂ fun _ f => (Bool.not_or f.cf f.zf).symm⟩
  | _ =>
    cases h
    exact ⟨_, rfl, rfl, rfl⟩

/-- A jump is its opcode and its displacement (R90, R200). -/
theorem encode_of_jump_operands : encode i = [i.op0, rel] ∧ i.len = 2 := by
  cases i <;> cases h <;> exact ⟨rfl, rfl⟩

/-- Executing a jump in the scalar engine (R200). -/
theorem exec_eq_afterJump {s : State} (hm : s.mode = .scalar) : exec i s = .next (afterJump i rel s) := by
  obtain ⟨j, ha, hregs, htaken⟩ := action_of_jump_operands h s.cfg.pfScope
  obtain ⟨-, hlen⟩ := encode_of_jump_operands h
  rw [exec_of_jump (by simp [hm]) ha, scalarJump, hregs, htaken, hlen, jumpTarget_eq_target, nextSeq_eq_after,
    afterJump]

end Jump

/-! ### CX -/

/-- The decrement of the model is that of the statements (R218). -/
theorem cxDecremented_decCx (x : Regs) : CxDecremented x (decCx x) := by
  refine ⟨?_, fun j hj => decCx_of_ne x hj⟩
  have hcx : readWord (decCx x) 1 = readWord x 1 - 1 := decCx_cx x
  have hone : (1 : Word).toNat = 1 := rfl
  rw [hcx, BitVec.toNat_sub, hone]
  omega

theorem jumpRegs_regsAfterJump (i : Instr) (x : Regs) : JumpRegs i x (regsAfterJump i x) := by
  refine ⟨fun h => ?_, fun h => ?_⟩
  · rw [regsAfterJump, if_pos h]
    exact cxDecremented_decCx x
  · simp [regsAfterJump, h]

/-- CX after a jump depends on CX alone. -/
theorem regsAfterJump_cx (i : Instr) (x : Regs) :
    readWord (regsAfterJump i x) 1 = if countsCx i then readWord x 1 - 1 else readWord x 1 := by
  unfold regsAfterJump
  split
  · exact decCx_cx x
  · rfl

/-- The condition of a jump reads no register but CX (R223). -/
theorem takenIf_congr (i : Instr) {x y : Regs} (h : readWord x 1 = readWord y 1) (f : Flags) :
    takenIf i x f = takenIf i y f := by
  cases i with
  | loopnz | loopz | loop | jcxz => simp only [takenIf, h]
  | _ => rfl

/-! ### The conditions -/

/-- A jump that keeps CX, whose condition is `taken` (R202 to R217, R221). -/
theorem jumps_of_operands {i : Instr} {rel : Byte} {taken : Regs → Flags → Prop}
    (h : i.operands = .jump (.imm rel)) (hc : countsCx i = false) (ht : ∀ x f, takenIf i x f = true ↔ taken x f) :
    Jumps i i.op0 rel taken := by
  refine ⟨(encode_of_jump_operands h).1, fun s hm => ⟨_, exec_eq_afterJump h hm, ?_⟩⟩
  have hx : regsAfterJump i s.x = s.x := (jumpRegs_regsAfterJump i s.x).2 hc
  rw [afterJump_ip, ← ht, hx]
  refine ⟨fun htaken => if_pos htaken, fun hnot => if_neg hnot, ?_⟩
  rw [afterJump, hx]
  rfl

/-- A jump that counts CX down, whose condition on the new CX is `taken` (R218 to R220). -/
theorem loopJumps_of_operands {i : Instr} {rel : Byte} {taken : Word → Flags → Prop}
    (h : i.operands = .jump (.imm rel)) (hc : countsCx i = true)
    (ht : ∀ x f, takenIf i x f = true ↔ taken (readWord x 1) f) : LoopJumps i i.op0 rel taken := by
  refine ⟨(encode_of_jump_operands h).1, fun s hm => ⟨_, exec_eq_afterJump h hm, ?_⟩⟩
  rw [afterJump_ip, afterJump_x, ← ht]
  exact ⟨(jumpRegs_regsAfterJump i s.x).1 hc, fun htaken => if_pos htaken, fun hnot => if_neg hnot, rfl⟩

/-- Settles O30: each is a jump that keeps CX, on its condition. -/
theorem jumpsOnOverflowCarryAndZero : Obligations.JumpsOnOverflowCarryAndZero := by
  unfold Obligations.JumpsOnOverflowCarryAndZero
  intro rel
  refine ⟨?_, ?_, ?_, ?_, ?_, ?_, ?_, ?_⟩ <;> exact jumps_of_operands rfl rfl (by simp [takenIf])

/-- Settles O31: each is a jump that keeps CX, on its condition. -/
theorem jumpsOnSignAndParity : Obligations.JumpsOnSignAndParity := by
  unfold Obligations.JumpsOnSignAndParity
  intro rel
  refine ⟨?_, ?_, ?_, ?_, ?_, ?_, ?_, ?_⟩ <;> exact jumps_of_operands rfl rfl (by simp [takenIf])

/-- Settles O32: each is a jump that counts CX down, on its condition. -/
theorem loopJumpsDecrementCx : Obligations.LoopJumpsDecrementCx := by
  unfold Obligations.LoopJumpsDecrementCx
  intro rel
  refine ⟨?_, ?_, ?_⟩ <;> exact loopJumps_of_operands rfl rfl (by simp [takenIf])

/-- Settles O33: a jump that keeps CX, on the whole CX. -/
theorem jcxzTestsCx : Obligations.JcxzTestsCx := by
  unfold Obligations.JcxzTestsCx
  exact fun rel => jumps_of_operands rfl rfl fun x _ => beq_zero_iff_toNat (readWord x 1)

/-! ### The pairs of conditions -/

/-- The condition of opcode 71 + cc negates that of 70 + cc, cc even (R201). -/
theorem jumpCond_of_odd {even odd : Fin 16} (he : even.val % 2 = 0) (ho : odd.val = even.val + 1) (f : Flags) :
    jumpCond odd f = !jumpCond even f := by
  have hbeq (a b : Bool) : (a == b) = !(a != b) := by rw [bne, Bool.not_not]
  obtain ⟨k, hk⟩ : ∃ k, even.val = 2 * k := ⟨even.val / 2, by omega⟩
  have hlt : k < 8 := by omega
  interval_cases k <;> simp [jumpCond, ho, hk, hbeq]

/-- No condition reads AF (R201). -/
theorem jumpCond_af (cc : Fin 16) (f : Flags) (b : Bool) : jumpCond cc { f with af := b } = jumpCond cc f := rfl

/-- What a conditional jump of R201 is, by its condition number: its operand, and its condition. -/
theorem jccInstr_spec (cc : Fin 16) (rel : Byte) :
    (jccInstr cc rel).operands = .jump (.imm rel) ∧ ∀ x f, takenIf (jccInstr cc rel) x f = jumpCond cc f := by
  fin_cases cc <;> exact ⟨rfl, fun _ _ => by simp [takenIf, jccInstr, jumpCond]⟩

/-- The bytes of a conditional jump decode to it (R97, R201). -/
theorem decodeList_jcc (cc : Fin 16) (rel : Byte) :
    decodeList [BitVec.ofNat 8 (0x70 + cc.val), rel] = .ok (jccInstr cc rel, []) := by
  obtain ⟨hwf, henc⟩ := encode_jccInstr cc rel
  have hop : (0x70 ||| BitVec.ofNat 8 cc.val : Byte) = BitVec.ofNat 8 (0x70 + cc.val) := by
    clear hwf henc
    revert cc
    decide
  exact decodeList_of_encode_eq hwf (hop ▸ henc)

/-- A conditional jump in the scalar engine goes where its condition says (R200, R201). -/
theorem exec_jcc {s : State} (cc : Fin 16) (rel : Byte) (hm : s.mode = .scalar) :
    ∃ t, exec (jccInstr cc rel) s = .next t ∧ t.ip = if jumpCond cc s.flags then target s.ip rel else after s.ip 2 := by
  obtain ⟨hop, htaken⟩ := jccInstr_spec cc rel
  exact ⟨_, exec_eq_afterJump hop hm, by rw [afterJump_ip, htaken]⟩

/-- Settles O34: the two conditions are each other's negation, and neither reads AF. -/
theorem conditionsComeInNegatedPairs : Obligations.ConditionsComeInNegatedPairs := by
  unfold Obligations.ConditionsComeInNegatedPairs
  intro even odd rel s b he ho hm
  have hm' : State.mode { s with flags := { s.flags with af := b } } = .scalar := hm
  obtain ⟨t, ht, htip⟩ := exec_jcc even rel hm
  obtain ⟨u, hu, huip⟩ := exec_jcc odd rel hm
  obtain ⟨v, hv, hvip⟩ := exec_jcc even rel hm'
  obtain ⟨w, hw, hwip⟩ := exec_jcc odd rel hm'
  simp only [jumpCond_af] at hvip hwip
  refine ⟨_, _, t, u, v, w, decodeList_jcc even rel, decodeList_jcc odd rel, ht, hu, ?_, hv, hvip.trans htip.symm, hw,
    hwip.trans huip.symm⟩
  rw [htip, huip, jumpCond_of_odd he ho]
  cases jumpCond even s.flags
  · exact .inr ⟨rfl, rfl⟩
  · exact .inl ⟨rfl, rfl⟩

/-! ### What a jump reads -/

/-- Settles O35: the state after a jump is written out of CX, the flags and ip. -/
theorem jumpsReadOnlyFlagsAndCx : Obligations.JumpsReadOnlyFlagsAndCx := by
  unfold Obligations.JumpsReadOnlyFlagsAndCx
  intro i rel s t hop hs ht hf hcx hip
  have hnew : readWord (regsAfterJump i s.x) 1 = readWord (regsAfterJump i t.x) 1 := by
    rw [regsAfterJump_cx, regsAfterJump_cx, hcx]
  refine ⟨(encode_of_jump_operands hop).1, _, _, exec_eq_afterJump hop hs, exec_eq_afterJump hop ht, ?_, hnew,
    fun htaken => if_pos htaken, fun hnot => if_neg (by simpa using hnot), jumpRegs_regsAfterJump i s.x, rfl⟩
  rw [afterJump_ip, afterJump_ip, takenIf_congr i hnew, hf, hip]

/-! ### The loop that jumps to itself -/

/-- The displacement FE leads back to the jump itself (R200). -/
theorem target_self (off : Word) : target off 0xFE = off := by
  have h : ((off.toNat : Int) + 2 + (0xFE : Byte).toInt) = (off.toNat : Nat) := by
    have : (0xFE : Byte).toInt = -2 := by decide
    omega
  rw [target, h, BitVec.ofInt_natCast, BitVec.ofNat_toNat, BitVec.setWidth_eq]

/-- At most CX and ip differ between the states. -/
def OnlyCxAndIp (s t : State) : Prop :=
  (∀ j, j ≠ 1 → readWord t.x j = readWord s.x j) ∧ t = { s with x := t.x, ip := t.ip }

theorem OnlyCxAndIp.trans {s t u : State} (h : OnlyCxAndIp s t) (h' : OnlyCxAndIp t u) : OnlyCxAndIp s u := by
  obtain ⟨hregs, ht⟩ := h
  obtain ⟨hregs', hu⟩ := h'
  exact ⟨fun j hj => (hregs' j hj).trans (hregs j hj), hu.trans (by rw [ht])⟩

theorem OnlyCxAndIp.mode {s t : State} (h : OnlyCxAndIp s t) : t.mode = s.mode := by
  rw [h.2]
  rfl

/-- One execution of `loop $+0`: it counts CX down and stays, unless CX becomes 0 (R220). -/
theorem exec_loopSelf {s : State} (hm : s.mode = .scalar) {m : Nat} (hcx : readWord s.x 1 = BitVec.ofNat 16 (m + 1)) :
    ∃ t, exec (.loop 0xFE) s = .next t ∧ readWord t.x 1 = BitVec.ofNat 16 m ∧
      t.ip = (if BitVec.ofNat 16 m = 0 then after s.ip 2 else s.ip) ∧ OnlyCxAndIp s t := by
  have hnew : readWord (regsAfterJump (.loop 0xFE) s.x) 1 = BitVec.ofNat 16 m := by
    rw [regsAfterJump_cx, hcx]
    show BitVec.ofNat 16 (m + 1) - 1 = _
    bv_omega
  refine ⟨_, exec_eq_afterJump rfl hm, hnew, ?_, fun j hj => decCx_of_ne s.x hj, rfl⟩
  rw [afterJump_ip, target_self, takenIf, hnew]
  by_cases h : BitVec.ofNat 16 m = 0 <;> simp [h]

/-- Repeating `loop $+0` with CX = m + 1, which is 0 for m = 65535: it stays for m executions, and the next one goes on
with CX = 0; by induction on m. -/
theorem repeats_loopSelf {m : Nat} (hlt : m < 65536) {s : State} (hm : s.mode = .scalar)
    (hcx : readWord s.x 1 = BitVec.ofNat 16 (m + 1)) :
    (∀ k < m + 1, ∃ t, Repeats (.loop 0xFE) k s t ∧ t.ip = s.ip) ∧
    ∃ t, Repeats (.loop 0xFE) (m + 1) s t ∧ readWord t.x 1 = 0 ∧ t.ip = after s.ip 2 ∧ OnlyCxAndIp s t := by
  induction m generalizing s with
  | zero =>
    obtain ⟨t, ht, htcx, htip, hframe⟩ := exec_loopSelf hm hcx
    refine ⟨fun k hk => ?_, t, .more ht .none, htcx, htip, hframe⟩
    obtain rfl : k = 0 := by omega
    exact ⟨s, .none, rfl⟩
  | succ m ih =>
    obtain ⟨t, ht, htcx, htip, hframe⟩ := exec_loopSelf hm hcx
    have hne : BitVec.ofNat 16 (m + 1) ≠ 0 := by bv_omega
    rw [if_neg hne] at htip
    obtain ⟨hstay, u, hu, hucx, huip, huframe⟩ := ih (by omega) (hframe.mode.trans hm) htcx
    rw [htip] at hstay huip
    refine ⟨fun k hk => ?_, u, .more ht hu, hucx, huip, hframe.trans huframe⟩
    cases k with
    | zero => exact ⟨s, .none, rfl⟩
    | succ k =>
      obtain ⟨v, hv, hvip⟩ := hstay k (by omega)
      exact ⟨v, .more ht hv, hvip⟩

/-- Settles O36: with CX = 0 the first execution makes CX = FFFF, so that 65536 are needed. -/
theorem loopToItselfCountsCxDown : Obligations.LoopToItselfCountsCxDown := by
  unfold Obligations.LoopToItselfCountsCxDown
  intro s hm n
  have hlt := (readWord s.x 1).isLt
  obtain ⟨m, hn, hm', hcx⟩ : ∃ m, n = m + 1 ∧ m < 65536 ∧ readWord s.x 1 = BitVec.ofNat 16 (m + 1) := by
    by_cases h : (readWord s.x 1).toNat = 0
    · exact ⟨65535, if_pos h, by omega, BitVec.eq_of_toNat_eq h⟩
    · refine ⟨(readWord s.x 1).toNat - 1, (if_neg h).trans (by omega), by omega, ?_⟩
      rw [Nat.sub_add_cancel (by omega), BitVec.ofNat_toNat, BitVec.setWidth_eq]
  rw [hn]
  exact repeats_loopSelf hm' hm hcx

end Sys2Proof.Machine
end

section
/-! PROOFS. The predicate stack and the vector invariant (45_vector_engine.md R240 to R244): which lanes an entry parks,
what the merge, an instruction and the end of a group do to them, and that every step keeps the invariant. -/

namespace Sys2Proof.Machine

open Sys2Proof.Statements

/-! ### Lanes on a stack -/

/-- The number of entries of a stack that park lane `l`. -/
def parkedIn (st : List PredEntry) (l : Lane) : Nat := st.countP fun e => !e.pred[l]

/-- Where a lane that is not done goes on, under a stack and a shared instruction pointer (R244 item 4). -/
def resumeIn (st : List PredEntry) (v : Word) (l : Lane) : Word :=
  ((st.find? fun e => !e.pred[l]).map (·.resume)).getD v

section Stack

variable {st : List PredEntry} {e f : PredEntry} {l : Lane} {v : Word}

theorem parkedIn_eq_zero_iff : parkedIn st l = 0 ↔ ∀ e ∈ st, e.pred[l] = true := by
  simp [parkedIn, List.countP_eq_zero]

theorem parkedIn_cons_of_parked (h : e.pred[l] = false) : parkedIn (e :: st) l = parkedIn st l + 1 :=
  List.countP_cons_of_pos (by simp [h])

theorem parkedIn_cons_of_not_parked (h : e.pred[l] = true) : parkedIn (e :: st) l = parkedIn st l :=
  List.countP_cons_of_neg (by simp [h])

theorem parkedIn_pos (he : e ∈ st) (hp : e.pred[l] = false) : 0 < parkedIn st l :=
  List.countP_pos_iff.2 ⟨e, he, by simp [hp]⟩

theorem parkedIn_filter_le (p : PredEntry → Bool) (st : List PredEntry) (l : Lane) :
    parkedIn (st.filter p) l ≤ parkedIn st l :=
  List.filter_sublist.countP_le

/-- Where one entry at most parks a lane, the entries that park it are one. -/
theorem eq_of_parkedIn_le_one (h : parkedIn st l ≤ 1) (he : e ∈ st) (hf : f ∈ st) (hep : e.pred[l] = false)
    (hfp : f.pred[l] = false) : e = f := by
  induction st with
  | nil => exact absurd he List.not_mem_nil
  | cons a st ih =>
    cases ha : a.pred[l] with
    | true =>
      have hne : ∀ b : PredEntry, b.pred[l] = false → b ≠ a := by rintro b hb rfl; simp [ha] at hb
      rw [parkedIn_cons_of_not_parked ha] at h
      exact ih h ((List.mem_cons.1 he).resolve_left (hne e hep)) ((List.mem_cons.1 hf).resolve_left (hne f hfp)) hep hfp
    | false =>
      rw [parkedIn_cons_of_parked ha] at h
      have hnone : ∀ b ∈ st, b.pred[l] = true := parkedIn_eq_zero_iff.1 (by omega)
      have heq : ∀ b ∈ a :: st, b.pred[l] = false → b = a := fun b hb hp =>
        (List.mem_cons.1 hb).resolve_right fun hb => by simp [hnone b hb] at hp
      rw [heq e he hep, heq f hf hfp]

theorem resumeIn_of_not_parked (h : parkedIn st l = 0) : resumeIn st v l = v := by
  have hnone : (st.find? fun e => !e.pred[l]) = none := by simpa using parkedIn_eq_zero_iff.1 h
  rw [resumeIn, hnone]
  rfl

theorem resumeIn_of_parked (h : parkedIn st l ≤ 1) (he : e ∈ st) (hp : e.pred[l] = false) :
    resumeIn st v l = e.resume := by
  cases hf : st.find? fun e => !e.pred[l] with
  | none => exact absurd (List.find?_eq_none.1 hf e he) (by simp [hp])
  | some f =>
    have hfp : f.pred[l] = false := by simpa using List.find?_some hf
    rw [resumeIn, hf, eq_of_parkedIn_le_one h he (List.mem_of_find?_eq_some hf) hp hfp]
    rfl

theorem resumeIn_cons_of_parked (h : e.pred[l] = false) : resumeIn (e :: st) v l = e.resume := by
  rw [resumeIn, List.find?_cons_of_pos (by simp [h])]
  rfl

theorem resumeIn_cons_of_not_parked (h : e.pred[l] = true) : resumeIn (e :: st) v l = resumeIn st v l := by
  rw [resumeIn, List.find?_cons_of_neg (by simp [h]), resumeIn]

end Stack

/-! ### Lanes of a state -/

section Lanes

variable {s : State} {l : Lane}

/-- Active, by the number of entries that park the lane (R243). -/
theorem active_iff_parkedIn (st : List PredEntry) :
    s.active st l = true ↔ s.takesPart l ∧ s.lanes[l].done = false ∧ parkedIn st l = 0 := by
  rw [active_iff, parkedIn_eq_zero_iff]

theorem activeHere_iff :
    ActiveHere s l ↔ s.takesPart l ∧ s.lanes[l].done = false ∧ parkedIn s.mergedStack l = 0 :=
  active_iff_parkedIn _

theorem takesPart_of_activeHere (h : ActiveHere s l) : s.takesPart l := (activeHere_iff.1 h).1

theorem done_of_activeHere (h : ActiveHere s l) : s.lanes[l].done = false := (activeHere_iff.1 h).2.1

theorem parkedIn_of_activeHere (h : ActiveHere s l) : parkedIn s.mergedStack l = 0 := (activeHere_iff.1 h).2.2

/-- The merge keeps the entries whose resume is not vip (R240). -/
theorem mem_mergedStack_iff {e : PredEntry} : e ∈ s.mergedStack ↔ e ∈ s.pstack ∧ e.resume ≠ s.vip := by
  simp [State.mergedStack]

theorem parkedIn_mergedStack_le (s : State) (l : Lane) : parkedIn s.mergedStack l ≤ parkedIn s.pstack l :=
  parkedIn_filter_le _ _ _

theorem parkedIn_mergedStack_eq_zero (h : parkedIn s.pstack l = 0) : parkedIn s.mergedStack l = 0 :=
  Nat.le_zero.1 (h ▸ parkedIn_mergedStack_le s l)

theorem laneIp_of_done (h : s.lanes[l].done = true) : s.laneIp l = s.lanes[l].ipFinal := by
  rw [State.laneIp, if_pos h]

theorem laneIp_of_not_done (h : s.lanes[l].done = false) : s.laneIp l = resumeIn s.pstack s.vip l := by
  rw [State.laneIp, if_neg (Bool.not_eq_true _ ▸ h), resumeIn]
  cases s.pstack.find? fun e => !e.pred[l] <;> rfl

/-- A lane that is active after the merge is at vip: it waited nowhere else (R243). -/
theorem laneIp_of_activeHere (h : ActiveHere s l) : s.laneIp l = s.vip := by
  rw [laneIp_of_not_done (done_of_activeHere h), resumeIn]
  cases hf : s.pstack.find? fun e => !e.pred[l] with
  | none => rfl
  | some e =>
    by_contra hne
    have hm : e ∈ s.mergedStack := mem_mergedStack_iff.2 ⟨List.mem_of_find?_eq_some hf, hne⟩
    have hp : e.pred[l] = false := by simpa using List.find?_some hf
    exact (parkedIn_pos hm hp).ne' (parkedIn_of_activeHere h)

/-- A lane that is neither active after the merge nor done waits in an entry that the merge keeps. -/
theorem exists_entry_of_not_activeHere (hl : s.takesPart l) (ha : ¬ ActiveHere s l) (hd : s.lanes[l].done = false) :
    ∃ e ∈ s.mergedStack, e.pred[l] = false := by
  by_contra hn
  exact ha (activeHere_iff.2 ⟨hl, hd, parkedIn_eq_zero_iff.2 (by simpa using hn)⟩)

/-- R244 item 1, by counting: at most one entry parks a lane, and none parks a lane that is done. -/
theorem oneState_iff (hl : s.takesPart l) : (s.laneActive l ∨ s.laneParked l ∨ s.laneDone l) ↔
    s.parkedCount l ≤ 1 ∧ (s.lanes[l].done = true → s.parkedCount l = 0) := by
  have hc : s.parkedCount l = parkedIn s.pstack l := rfl
  rw [State.laneActive, active_iff_parkedIn, State.laneParked, State.laneDone, hc]
  cases s.lanes[l].done
  · simp [hl]
    omega
  · simp
    omega

end Lanes

/-! ### What the invariant says of one lane -/

section Inv

variable {s : State} (h : s.VectorInv)
include h

theorem State.VectorInv.parkedIn_le_one {l : Lane} (hl : s.takesPart l) : parkedIn s.pstack l ≤ 1 :=
  ((oneState_iff hl).1 (h.oneState l hl)).1

theorem State.VectorInv.merged_le_one {l : Lane} (hl : s.takesPart l) : parkedIn s.mergedStack l ≤ 1 :=
  (parkedIn_mergedStack_le s l).trans (h.parkedIn_le_one hl)

theorem State.VectorInv.merged_of_done {l : Lane} (hl : s.takesPart l) (hd : s.lanes[l].done = true) :
    parkedIn s.mergedStack l = 0 :=
  parkedIn_mergedStack_eq_zero (((oneState_iff hl).1 (h.oneState l hl)).2 hd)

/-- The merge moves no lane that keeps waiting, wherever vip goes. -/
theorem State.VectorInv.resumeIn_merged {l : Lane} (hl : s.takesPart l) (ha : ¬ ActiveHere s l)
    (hd : s.lanes[l].done = false) (v : Word) : resumeIn s.mergedStack v l = s.laneIp l := by
  obtain ⟨e, he, hp⟩ := exists_entry_of_not_activeHere hl ha hd
  rw [laneIp_of_not_done hd, resumeIn_of_parked (h.merged_le_one hl) he hp,
    resumeIn_of_parked (h.parkedIn_le_one hl) (mem_mergedStack_iff.1 he).1 hp]

/-- The stack has fewer entries than lanes take part: every entry parks a lane, no lane is parked twice, and some lane
is parked nowhere (R244 item 2). -/
theorem State.VectorInv.length_lt_card : s.pstack.length < (Finset.univ.filter s.takesPart).card := by
  have hle : ∀ st : List PredEntry, (∀ e ∈ st, ∃ l, s.takesPart l ∧ e.pred[l] = false) →
      st.length ≤ ∑ l ∈ Finset.univ.filter s.takesPart, parkedIn st l := by
    intro st
    induction st with
    | nil => simp
    | cons e st ih =>
      intro hst
      obtain ⟨⟨l, hl, hp⟩, hrest⟩ := List.forall_mem_cons.1 hst
      have hlt : ∑ l ∈ Finset.univ.filter s.takesPart, parkedIn st l <
          ∑ l ∈ Finset.univ.filter s.takesPart, parkedIn (e :: st) l :=
        Finset.sum_lt_sum (fun l _ => (List.sublist_cons_self e st).countP_le)
          ⟨l, by simpa using hl, by rw [parkedIn_cons_of_parked hp]; omega⟩
      exact Nat.lt_of_le_of_lt (ih hrest) hlt
  obtain ⟨l, hl, hzero⟩ := h.someoneWaitsNot
  calc s.pstack.length ≤ ∑ l ∈ Finset.univ.filter s.takesPart, parkedIn s.pstack l := hle _ h.parksSomeone
    _ < ∑ l ∈ Finset.univ.filter s.takesPart, 1 :=
      Finset.sum_lt_sum (fun l hl => h.parkedIn_le_one (by simpa using hl))
        ⟨l, by simpa using hl, by rw [show parkedIn s.pstack l = 0 from hzero]; exact Nat.one_pos⟩
    _ = _ := by simp

end Inv

/-! ### The stack after an instruction -/

/-- What executing an instruction may leave on the stack: lanes that are not active wait where they waited, an active
lane is parked once at most, every entry parks a lane, and some active lane goes on. -/
structure StackAfter (s : State) (st : List PredEntry) : Prop where
  waiting : ∀ l, ¬ ActiveHere s l →
    parkedIn st l = parkedIn s.mergedStack l ∧ ∀ v, resumeIn st v l = resumeIn s.mergedStack v l
  atMostOne : ∀ l, ActiveHere s l → parkedIn st l ≤ 1
  parksSomeone : ∀ e ∈ st, ∃ l, s.takesPart l ∧ e.pred[l] = false
  goesOn : ∃ l, ActiveHere s l ∧ parkedIn st l = 0

/-- With no divergence the stack is the merged one. -/
theorem stackAfter_merged {s : State} (h : s.VectorInv) : StackAfter s s.mergedStack where
  waiting _ _ := ⟨rfl, fun _ => rfl⟩
  atMostOne l ha := (parkedIn_of_activeHere ha).trans_le (Nat.zero_le 1)
  parksSomeone e he := h.parksSomeone e (mem_mergedStack_iff.1 he).1
  goesOn := by
    obtain ⟨l, hl⟩ := h.activeAfterMerge
    exact ⟨l, hl, parkedIn_of_activeHere hl⟩

/-- At a divergence one group of active lanes is parked and another one goes on (R239). -/
theorem stackAfter_diverged {s : State} (h : s.VectorInv) {e : PredEntry}
    (hactive : ∀ l : Lane, e.pred[l] = false → ActiveHere s l) (hparks : ∃ l : Lane, e.pred[l] = false)
    (hgoes : ∃ l : Lane, ActiveHere s l ∧ e.pred[l] = true) : StackAfter s (e :: s.mergedStack) where
  waiting l ha := by
    have hp : e.pred[l] = true := by simpa using mt (hactive l) ha
    exact ⟨parkedIn_cons_of_not_parked hp, fun _ => resumeIn_cons_of_not_parked hp⟩
  atMostOne l ha := by
    have hz := parkedIn_of_activeHere ha
    cases hp : e.pred[l] with
    | true => rw [parkedIn_cons_of_not_parked hp]; omega
    | false => rw [parkedIn_cons_of_parked hp]; omega
  parksSomeone := by
    obtain ⟨l, hp⟩ := hparks
    exact List.forall_mem_cons.2 ⟨⟨l, takesPart_of_activeHere (hactive l hp), hp⟩, (stackAfter_merged h).parksSomeone⟩
  goesOn := by
    obtain ⟨l, ha, hp⟩ := hgoes
    exact ⟨l, ha, (parkedIn_cons_of_not_parked hp).trans (parkedIn_of_activeHere ha)⟩

/-- The four ends of a jump in the vector engine (R238, R239). -/
theorem jumpFlow_cases (J S : Lane → Bool) (T F : Word) (st : List PredEntry) :
    (((∀ l, J l = false) ∨ T = F) ∧ jumpFlow J S T F st = (st, F)) ∨
    ((∀ l, S l = false) ∧ jumpFlow J S T F st = (st, T)) ∨
    ((∃ l, J l = true) ∧ (∃ l, S l = true) ∧ jumpFlow J S T F st = (⟨F, Vector.ofFn fun l => !S l⟩ :: st, T)) ∨
    ((∃ l, J l = true) ∧ (∃ l, S l = true) ∧ jumpFlow J S T F st = (⟨T, Vector.ofFn fun l => !J l⟩ :: st, F)) := by
  obtain ⟨hnone, hall, hlow, hhigh⟩ := jumpFlow_spec J S T F st
  by_cases hJ : ∃ l, J l = true
  · by_cases hTF : T = F
    · exact .inl ⟨.inr hTF, hnone (.inr hTF)⟩
    · by_cases hS : ∃ l, S l = true
      · rcases BitVec.lt_trichotomy T F with hlt | heq | hgt
        · exact .inr (.inr (.inl ⟨hJ, hS, hlow hJ hS hlt⟩))
        · exact absurd heq hTF
        · exact .inr (.inr (.inr ⟨hJ, hS, hhigh hJ hS hgt⟩))
      · have hS' : ∀ l, S l = false := by simpa using hS
        exact .inr (.inl ⟨hS', hall hJ hTF hS'⟩)
  · have hJ' : ∀ l, J l = false := by simpa using hJ
    exact .inl ⟨.inl hJ', hnone (.inl hJ')⟩

end Sys2Proof.Machine
end

section
/-! PROOFS. One instruction in the vector engine (45_vector_engine.md R233 to R239, R246): what it does to an active
lane, said by the scalar engine; to every other lane; and to the predicate stack. -/

namespace Sys2Proof.Machine

open Sys2Proof.Statements

/-! ### Memory operands -/

/-- A write of an operand that is no memory operand keeps memory (R133). -/
theorem writeOp_keeps_mem {w : Width} {p q : Datapath} {dst : Operand w} {v : BitVec w.bits} (hd : dst.isMem = false)
    (h : writeOp p dst v = some q) : q.mem = p.mem := by
  obtain ⟨i, -, rfl⟩ | ⟨m, rfl, -⟩ := writeOp_eq_some p h
  · rfl
  · cases hd

/-- A data instruction writes no operand but its destination, so that one without a memory operand keeps memory. -/
theorem effect_keeps_mem {sc : PfScope} {i : Instr} {eff : DataEffect} (ha : action sc i = .data eff)
    (hi : i.hasMem = false) {p q : Datapath} (hq : eff p = some q) : q.mem = p.mem := by
  have hdst {w : Width} {dst src : Operand w} (h : i.operands = .data w dst src) : dst.isMem = false := by
    rw [Instr.hasMem, h, Operands.hasMem, Bool.or_eq_false_iff] at hi
    exact hi.1
  cases i with
  | movRmReg | movRmImm | movRegImm | movAccMem | movMemAcc =>
    cases ha
    exact writeOp_keeps_mem (hdst rfl) hq
  | addRmReg | addRmImm | addAccImm =>
    cases ha
    obtain ⟨r, hr, rfl⟩ := addEffect_eq_some hq
    exact (writeOp_keeps_mem (hdst rfl) hr :)
  | subRmReg | subRmImm | subAccImm =>
    cases ha
    obtain ⟨r, hr, rfl⟩ := subEffect_eq_some hq
    exact (writeOp_keeps_mem (hdst rfl) hr :)
  | cmpRmReg | cmpRmImm | cmpAccImm =>
    cases ha
    obtain rfl := Option.some.inj hq
    rfl
  | _ => cases ha

/-- The forms of a reg/mem-with-reg row without a memory operand are the register forms (R233). -/
theorem rmReg_isMem (d : Bool) (w : Width) (rm : RmOperand) (r : RegIdx) :
    ((rmRegDst d w rm r).isMem || (rmRegSrc d w rm r).isMem) = false ↔ ∃ k, rm = .reg k := by
  rw [← rmOperand_isMem (w := w)]
  cases d <;> simp [rmRegDst, rmRegSrc]

/-- The forms of an r/m, imm row without a memory operand are the register forms (R233). -/
theorem rmImm_isMem {w : Width} (rm : RmOperand) (v : BitVec w.bits) :
    ((rm.operand w).isMem || (Operand.imm v : Operand w).isMem) = false ↔ ∃ k, rm = .reg k := by
  rw [isMem_imm, Bool.or_false, rmOperand_isMem]

/-! ### Data instructions -/

/-- The scalar machine with a lane's registers and flags at vip is in SCALAR mode. -/
theorem laneAtVip_mode (s : State) (l : Lane) : (laneAtVip s l).mode = .scalar := modeOf_setScalar s.ctrl

section Exec

variable {i : Instr} {s : State} (hv : s.mode = .vector)
include hv

/-- A data instruction without a memory operand in the vector engine (R234 step 4, R236). -/
theorem exec_vector_of_data (hi : i.hasMem = false) {eff : DataEffect} (ha : action s.cfg.pfScope i = .data eff) :
    exec i s = .next (s.withVector
      (Vector.ofFn fun l => blend (s.active s.mergedStack l) (laneCandidate eff s l) s.lanes[l])
      s.mergedStack (nextSeq s.vip i.len)) := by
  obtain ⟨hm, -⟩ | ⟨_, -, hact, ht⟩ | ⟨_, _, -, hact, -⟩ := exec_vector (i := i) hv
  · simp [hi] at hm
  · rw [ha] at hact
    cases hact
    exact ht
  · rw [ha] at hact
    cases hact

/-- A jump in the vector engine (R238). -/
theorem exec_vector_of_jump {rel : Byte} {j : JumpRule} (ha : action s.cfg.pfScope i = .jump rel j) :
    exec i s = .next (vectorJump i rel j s) := by
  obtain ⟨hm, -⟩ | ⟨_, -, hact, -⟩ | ⟨_, _, -, hact, ht⟩ := exec_vector (i := i) hv
  · simp [hasMem_of_jump ha] at hm
  · rw [ha] at hact
    cases hact
  · rw [ha] at hact
    cases hact
    exact ht

/-- Without a memory operand an instruction changes the lanes, the predicate stack and vip, and nothing else. -/
theorem exec_vector_frame {t : State} (hi : i.hasMem = false) (he : exec i s = .next t) :
    ∃ ls st v, t = s.withVector ls st v := by
  obtain ⟨hm, -⟩ | ⟨-, hframe⟩ := exec_vector_eq hv he
  · simp [hi] at hm
  · exact hframe

/-- A memory operand is refused (R233, R272). -/
theorem exec_vector_of_hasMem (hm : i.hasMem = true) :
    exec i s = .next (s.raise .unsupportedInstruction s.vip i.op0) := by
  obtain ⟨-, ht⟩ | ⟨_, hm', -⟩ | ⟨_, _, hm', -⟩ := exec_vector (i := i) hv
  · exact ht
  · simp [hm] at hm'
  · simp [hm] at hm'

end Exec

/-- A data instruction gives an active lane what the scalar engine computes from the lane's state (R236). -/
theorem data_lane_of_active {i : Instr} {s : State} {l : Lane} {eff : DataEffect}
    (ha : action s.cfg.pfScope i = .data eff) :
    ∃ q, exec i (laneAtVip s l) = .next ((laneAtVip s l).withScalar q (nextSeq s.vip i.len)) ∧
      eff (s.laneDatapath l) = some q ∧ laneCandidate eff s l = { s.lanes[l] with x := q.x, flags := q.flags } := by
  obtain ⟨q, hq, hexec⟩ := exec_of_data (s := laneAtVip s l) (by simp [laneAtVip_mode]) ha
  obtain ⟨p, hp, hcand⟩ := laneCandidate_eq ha l
  obtain rfl : q = p := Option.some.inj (hq.symm.trans hp)
  exact ⟨q, hexec, hp, hcand⟩

/-- Settles O43: Blend gives an active lane its candidate, and the candidate is the scalar result. -/
theorem vectorDataAppliesScalarRulePerLane : Obligations.VectorDataAppliesScalarRulePerLane := by
  unfold Obligations.VectorDataAppliesScalarRulePerLane
  intro i s hv hi hc
  cases ha : action s.cfg.pfScope i with
  | jump rel j => exact absurd hc (cls_of_jump ha)
  | data eff =>
    refine ⟨_, exec_vector_of_data hv hi ha, fun l hl => ?_, fun l hl => ?_, ?_⟩
    · obtain ⟨q, hexec, -, hcand⟩ := data_lane_of_active (l := l) ha
      refine ⟨_, hexec, ?_⟩
      rw [State.withVector_lanes, ofFn_lane, show s.active s.mergedStack l = true from hl, hcand]
      rfl
    · rw [State.withVector_lanes, ofFn_lane, Bool.eq_false_iff.2 hl, blend_false]
    · rw [← nextSeq_eq_after]
      rfl

/-- Settles O44: what `exec` does with and without a memory operand, and the operands of each form. -/
theorem vectorRefusesMemoryOperands : Obligations.VectorRefusesMemoryOperands := by
  unfold Obligations.VectorRefusesMemoryOperands
  refine ⟨fun i s hr hf => ?_, fun d w rm r g imm a => ?_, fun i rel hop => ?_⟩
  · rw [step_vector_of_fetches hr hf]
    refine ⟨exec_vector_of_hasMem hr.2, fun hi => ?_⟩
    obtain ⟨t, ht⟩ := exec_next i s
    obtain ⟨ls, st, v, rfl⟩ := exec_vector_frame hr.2 hi ht
    exact ⟨_, ht, hr.1⟩
  · exact ⟨rmReg_isMem d w rm r, rmImm_isMem rm imm, rmReg_isMem d w rm r, rmImm_isMem rm g.value,
      rmReg_isMem d w rm r, rmImm_isMem rm g.value, rmReg_isMem d w rm r, rmImm_isMem rm g.value,
      rfl, rfl, rfl, rfl, rfl, rfl⟩
  · rw [Instr.hasMem, hop]
    rfl

/-! ### Jumps -/

/-- An active lane after a jump: the decrement of CX and the latched condition (R238). -/
theorem vectorJump_lane_of_active {s : State} {l : Lane} (ha : ActiveHere s l) (i : Instr) (rel : Byte) (j : JumpRule) :
    (vectorJump i rel j s).lanes[l] = jumpCandidate j s.lanes[l] := by
  rw [vectorJump_lane, show s.active s.mergedStack l = true from ha]
  rfl

theorem vectorJump_lane_of_not_active {s : State} {l : Lane} (ha : ¬ ActiveHere s l) (i : Instr) (rel : Byte)
    (j : JumpRule) : (vectorJump i rel j s).lanes[l] = s.lanes[l] := by
  rw [vectorJump_lane, Bool.eq_false_iff.2 ha, blend_false]

/-- The active lanes that jump, if `b`, or that do not (R238). -/
def jumpGroup (s : State) (j : JumpRule) (b : Bool) (l : Lane) : Bool :=
  s.active s.mergedStack l && (jumpCandidate j s.lanes[l]).took == b

theorem jumpGroup_iff {i : Instr} {rel : Byte} {s : State} {j : JumpRule} {b : Bool} {l : Lane} :
    jumpGroup s j b l = true ↔ ActiveHere s l ∧ (vectorJump i rel j s).lanes[l].took = b := by
  rw [jumpGroup, Bool.and_eq_true, beq_iff_eq]
  refine and_congr_right fun ha => ?_
  rw [vectorJump_lane_of_active ha]

/-- Where the sequencer goes after a jump, by its two groups (R238, R239). -/
def sequencerAfter (s : State) (j : JumpRule) (T F : Word) : List PredEntry × Word :=
  jumpFlow (jumpGroup s j true) (jumpGroup s j false) T F s.mergedStack

theorem vectorJump_sequencer (i : Instr) (rel : Byte) (j : JumpRule) (s : State) :
    (vectorJump i rel j s).pstack = (sequencerAfter s j (jumpTarget s.vip i.len rel) (nextSeq s.vip i.len)).1 ∧
    (vectorJump i rel j s).vip = (sequencerAfter s j (jumpTarget s.vip i.len rel) (nextSeq s.vip i.len)).2 := by
  have htrue : (fun l => s.active s.mergedStack l && (jumpCandidate j s.lanes[l]).took) = jumpGroup s j true :=
    funext fun l => by simp [jumpGroup]
  have hfalse : (fun l => s.active s.mergedStack l && !(jumpCandidate j s.lanes[l]).took) = jumpGroup s j false :=
    funext fun l => by simp [jumpGroup]
  rw [sequencerAfter, ← htrue, ← hfalse]
  exact ⟨rfl, rfl⟩

/-- Settles O45: Blend and the two groups of active lanes, and where the sequencer goes in each case. -/
theorem vectorJumpDiverges : Obligations.VectorJumpDiverges := by
  unfold Obligations.VectorJumpDiverges
  intro i rel s hv hop
  obtain ⟨j, ha, hregs, htaken⟩ := action_of_jump_operands hop s.cfg.pfScope
  obtain ⟨-, hlen⟩ := encode_of_jump_operands hop
  refine ⟨_, exec_vector_of_jump hv ha, fun l hl => ?_, fun l hl => vectorJump_lane_of_not_active hl i rel j, ?_, ?_⟩
  · rw [vectorJump_lane_of_active hl, jumpCandidate, hregs, htaken]
    exact ⟨jumpRegs_regsAfterJump i _, rfl, rfl⟩
  · obtain ⟨ls, st, v, ht⟩ := vectorJump_eq_withVector i rel j s
    rw [ht]
    rfl
  · intro T F J S
    have hJ (l : Lane) : J l ↔ jumpGroup s j true l = true := jumpGroup_iff.symm
    have hS (l : Lane) : S l ↔ jumpGroup s j false l = true := jumpGroup_iff.symm
    obtain ⟨hst, hvip⟩ := vectorJump_sequencer i rel j s
    rw [hlen, jumpTarget_eq_target, nextSeq_eq_after, sequencerAfter] at hst hvip
    obtain ⟨hon, hall, hlow, hhigh⟩ := jumpFlow_spec (jumpGroup s j true) (jumpGroup s j false) T F s.mergedStack
    simp only [hJ, hS, Bool.not_eq_true]
    refine ⟨fun h => ?_, fun h1 h2 h3 => ?_, fun h1 h2 h3 => ?_, fun h1 h2 h3 => ?_⟩
    · rw [hst, hvip, hon h]
      exact ⟨rfl, rfl⟩
    · rw [hst, hvip, hall h1 h2 h3]
      exact ⟨rfl, rfl⟩
    · rw [hst, hvip, hlow h1 h2 h3]
      exact ⟨rfl, _, rfl, rfl, fun l _ => by rw [ofFn_lane, Bool.not_eq_false']⟩
    · rw [hst, hvip, hhigh h1 h2 h3]
      exact ⟨rfl, _, rfl, rfl, fun l _ => by rw [ofFn_lane, Bool.not_eq_false']⟩

/-- Parking a group of active lanes beside another one is a divergence (R239). -/
theorem stackAfter_park {s : State} (h : s.VectorInv) (j : JumpRule) (b : Bool) (v : Word)
    (hparks : ∃ l, jumpGroup s j b l = true) (hgoes : ∃ l, jumpGroup s j (!b) l = true) :
    StackAfter s (⟨v, Vector.ofFn fun l => !jumpGroup s j b l⟩ :: s.mergedStack) := by
  have hgroup {c : Bool} {l : Lane} (hl : jumpGroup s j c l = true) : ActiveHere s l := (Bool.and_eq_true_iff.1 hl).1
  refine stackAfter_diverged h (fun l hl => ?_) ?_ ?_
  · rw [ofFn_lane, Bool.not_eq_false'] at hl
    exact hgroup hl
  · simpa using hparks
  · obtain ⟨l, hl⟩ := hgoes
    refine ⟨l, hgroup hl, ?_⟩
    have hc := (Bool.and_eq_true_iff.1 hl).2
    rw [ofFn_lane, jumpGroup, beq_iff_eq.1 hc]
    cases b <;> simp

/-- Executing an instruction without a memory operand leaves a stack of R244 behind. -/
theorem stackAfter_exec {i : Instr} {s t : State} (h : s.VectorInv) (hv : s.mode = .vector) (hi : i.hasMem = false)
    (he : exec i s = .next t) : StackAfter s t.pstack := by
  cases ha : action s.cfg.pfScope i with
  | data eff =>
    rw [exec_vector_of_data hv hi ha] at he
    cases he
    exact stackAfter_merged h
  | jump rel j =>
    rw [exec_vector_of_jump hv ha] at he
    cases he
    rw [(vectorJump_sequencer i rel j s).1, sequencerAfter]
    obtain ⟨-, hf⟩ | ⟨-, hf⟩ | ⟨hJ, hS, hf⟩ | ⟨hJ, hS, hf⟩ := jumpFlow_cases (jumpGroup s j true)
      (jumpGroup s j false) (jumpTarget s.vip i.len rel) (nextSeq s.vip i.len) s.mergedStack <;> rw [hf]
    · exact stackAfter_merged h
    · exact stackAfter_merged h
    · exact stackAfter_park h j false _ hS hJ
    · exact stackAfter_park h j true _ hJ hS

/-- After a jump an active lane is where its own condition sends it, whether it goes on or is parked (R238, R239). -/
theorem jump_resumeIn {s : State} {l : Lane} (ha : ActiveHere s l) (j : JumpRule) (T F : Word) :
    resumeIn (sequencerAfter s j T F).1 (sequencerAfter s j T F).2 l =
      if (jumpCandidate j s.lanes[l]).took then T else F := by
  have hz := parkedIn_of_activeHere ha
  have hgroup (b : Bool) : jumpGroup s j b l = ((jumpCandidate j s.lanes[l]).took == b) := by
    rw [jumpGroup, show s.active s.mergedStack l = true from ha, Bool.true_and]
  generalize hc : (jumpCandidate j s.lanes[l]).took = c at hgroup
  obtain ⟨h, hf⟩ | ⟨h, hf⟩ | ⟨-, -, hf⟩ | ⟨-, -, hf⟩ := jumpFlow_cases (jumpGroup s j true) (jumpGroup s j false) T F
    s.mergedStack <;> rw [sequencerAfter, hf]
  · rw [resumeIn_of_not_parked hz]
    rcases h with h | rfl
    · obtain rfl : c = false := by simpa [hgroup] using h l
      rfl
    · exact (ite_self T).symm
  · obtain rfl : c = true := by simpa [hgroup] using h l
    rw [resumeIn_of_not_parked hz, if_pos rfl]
  · cases c
    · exact resumeIn_cons_of_parked (by simp only [ofFn_lane, hgroup]; rfl)
    · rw [resumeIn_cons_of_not_parked (by simp only [ofFn_lane, hgroup]; rfl), resumeIn_of_not_parked hz, if_pos rfl]
  · cases c
    · rw [resumeIn_cons_of_not_parked (by simp only [ofFn_lane, hgroup]; rfl), resumeIn_of_not_parked hz]
      rfl
    · exact resumeIn_cons_of_parked (by simp only [ofFn_lane, hgroup]; rfl)

/-! ### One lane at an instruction -/

section Lane

variable {i : Instr} {s t : State} {l : Lane} (hv : s.mode = .vector) (he : exec i s = .next t)
include hv he

/-- No instruction makes a lane done (R241). -/
theorem exec_lane_done : t.lanes[l].done = s.lanes[l].done := by
  obtain ⟨-, hs⟩ | ⟨eff, -, ha, hs⟩ | ⟨rel, j, -, -, hs⟩ := exec_vector (i := i) hv <;> rw [hs] at he <;> cases he
  · rfl
  · rw [State.withVector_lanes, ofFn_lane, blend_done]
  · rw [vectorJump_lane, blend_done]

/-- A lane outside the active set keeps every bit (R235). -/
theorem exec_lane_of_not_active (hl : ¬ ActiveHere s l) : t.lanes[l] = s.lanes[l] := by
  obtain ⟨-, hs⟩ | ⟨eff, -, ha, hs⟩ | ⟨rel, j, -, -, hs⟩ := exec_vector (i := i) hv <;> rw [hs] at he <;> cases he
  · rfl
  · rw [State.withVector_lanes, ofFn_lane, Bool.eq_false_iff.2 hl, blend_false]
  · exact vectorJump_lane_of_not_active hl i rel j

/-- An active lane gets the registers, flags and place that the scalar engine gives it (R236, R238). -/
theorem exec_lane_of_active (hi : i.hasMem = false) (hl : ActiveHere s l) :
    exec i (laneAtVip s l) =
      .next ((laneAtVip s l).withScalar ⟨t.lanes[l].x, t.lanes[l].flags, s.mem⟩ (t.laneIp l)) := by
  have hz := parkedIn_of_activeHere hl
  rw [laneIp_of_not_done ((exec_lane_done hv he).trans (done_of_activeHere hl))]
  cases ha : action s.cfg.pfScope i with
  | data eff =>
    rw [exec_vector_of_data hv hi ha] at he
    cases he
    obtain ⟨q, hexec, hq, hcand⟩ := data_lane_of_active (l := l) ha
    have hmem : q.mem = s.mem := effect_keeps_mem ha hi hq
    rw [hexec, State.withVector_lanes, ofFn_lane, show s.active s.mergedStack l = true from hl, hcand, ← hmem,
      State.withVector_pstack, State.withVector_vip, resumeIn_of_not_parked hz]
    rfl
  | jump rel j =>
    rw [exec_vector_of_jump hv ha] at he
    cases he
    obtain ⟨hst, hvip⟩ := vectorJump_sequencer i rel j s
    rw [exec_of_jump (s := laneAtVip s l) (by simp [laneAtVip_mode]) ha, vectorJump_lane_of_active hl, hst, hvip,
      jump_resumeIn hl]
    rfl

end Lane

/-! ### One lane beside other lanes -/

section Congr

variable {s : State} {l : Lane} {ls : Vector LaneState maxLanes} (hl : ls[l] = s.lanes[l])
include hl

/-- Whether a lane is active depends on no other lane (R243). -/
theorem active_withLanes (st : List PredEntry) : (s.withVector ls s.pstack s.vip).active st l = s.active st l := by
  simp only [State.active, State.withVector_laneCount, State.withVector_lanes, hl]
  rfl

/-- A lane's candidate depends on no other lane (R236). -/
theorem laneCandidate_withLanes (eff : DataEffect) :
    laneCandidate eff (s.withVector ls s.pstack s.vip) l = laneCandidate eff s l := by
  simp only [laneCandidate, State.laneDatapath, State.withVector_lanes, State.withVector_mem, hl]

/-- What an instruction does to a lane depends on no other lane (R246). -/
theorem exec_lane_withLanes {i : Instr} {t u : State} (hv : s.mode = .vector) (ht : exec i s = .next t)
    (hu : exec i (s.withVector ls s.pstack s.vip) = .next u) : u.lanes[l] = t.lanes[l] := by
  have hv' : (s.withVector ls s.pstack s.vip).mode = .vector := hv
  cases hi : i.hasMem with
  | true =>
    rw [exec_vector_of_hasMem hv hi] at ht
    rw [exec_vector_of_hasMem hv' hi] at hu
    cases ht
    cases hu
    exact hl
  | false =>
    cases ha : action s.cfg.pfScope i with
    | data eff =>
      rw [exec_vector_of_data hv hi ha] at ht
      rw [exec_vector_of_data hv' hi ha] at hu
      cases ht
      cases hu
      simp only [State.withVector_lanes, ofFn_lane, active_withLanes hl, laneCandidate_withLanes hl, hl]
      rfl
    | jump rel j =>
      rw [exec_vector_of_jump hv ha] at ht
      rw [exec_vector_of_jump hv' ha] at hu
      cases ht
      cases hu
      rw [vectorJump_lane, vectorJump_lane, active_withLanes hl, State.withVector_lanes, hl]
      rfl

end Congr

/-- Settles O53: what an instruction does to a lane depends on no other lane. -/
theorem lanesDoNotInterfere : Obligations.LanesDoNotInterfere := by
  unfold Obligations.LanesDoNotInterfere
  intro i s m x f hv
  obtain ⟨t, ht⟩ := exec_next i s
  obtain ⟨u, hu⟩ := exec_next i { s with lanes := s.lanes.set m { s.lanes[m] with x := x, flags := f } }
  refine ⟨t, u, ht, hu, fun l hl => exec_lane_withLanes ?_ hv ht hu⟩
  exact Vector.getElem_set_ne _ _ fun heq => hl (Fin.ext heq.symm)

end Sys2Proof.Machine
end

section
/-! PROOFS. The steps of a VECTOR run (45_vector_engine.md R232, R240 to R244): the merge, the end of a group, START,
and the invariant that every step keeps. -/

namespace Sys2Proof.Machine

open Sys2Proof.Statements

/-- Settles O46: under the invariant a lane parked at vip waits in no other entry. -/
theorem mergeReactivatesLanesParkedAtVip : Obligations.MergeReactivatesLanesParkedAtVip := by
  unfold Obligations.MergeReactivatesLanesParkedAtVip
  intro s h
  refine ⟨fun l => ⟨fun ha => ?_, fun hor => ?_⟩, fun e he => (mem_mergedStack_iff.1 he).2,
    fun e he hne => mem_mergedStack_iff.2 ⟨he, hne⟩⟩
  · obtain ⟨hl, hd, hz⟩ := activeHere_iff.1 ha
    by_cases hn : parkedIn s.pstack l = 0
    · exact .inl ((active_iff_parkedIn _).2 ⟨hl, hd, hn⟩)
    · obtain ⟨e, he, hp⟩ : ∃ e ∈ s.pstack, e.pred[l] = false := by
        simpa [parkedIn_eq_zero_iff] using hn
      refine .inr ⟨hl, hd, e, he, hp, ?_⟩
      by_contra hne
      exact (parkedIn_pos (mem_mergedStack_iff.2 ⟨he, hne⟩) hp).ne' hz
  · rw [activeHere_iff]
    rcases hor with ha | ⟨hl, hd, e, he, hp, hvip⟩
    · obtain ⟨hl, hd, hz⟩ := (active_iff_parkedIn _).1 ha
      exact ⟨hl, hd, parkedIn_mergedStack_eq_zero hz⟩
    · refine ⟨hl, hd, parkedIn_eq_zero_iff.2 fun f hf => ?_⟩
      obtain ⟨hfs, hne⟩ := mem_mergedStack_iff.1 hf
      by_contra hfp
      have heq := eq_of_parkedIn_le_one (h.parkedIn_le_one hl) he hfs hp (by simpa using hfp)
      exact hne (heq ▸ hvip)

/-! ### The end of a group -/

theorem groupEnd_lane_of_active {s : State} {l : Lane} (ha : ActiveHere s l) :
    (groupEnd s).lanes[l] = { s.lanes[l] with done := true, ipFinal := s.vip } := by
  exact (groupEnd_lane s l).trans (if_pos ha)

theorem groupEnd_lane_of_not_active {s : State} {l : Lane} (ha : ¬ ActiveHere s l) :
    (groupEnd s).lanes[l] = s.lanes[l] := by
  exact (groupEnd_lane s l).trans (if_neg ha)

/-- The end of a group leaves the merged stack. -/
theorem groupEnd_pstack (s : State) : (groupEnd s).pstack = s.mergedStack := by
  cases h : s.mergedStack with
  | nil => exact (groupEnd_of_nil h).2.1
  | cons e rest => exact (groupEnd_of_cons h).2.1

/-- The end of a group that is not the last one goes on at the least resume of the stack (R241). -/
theorem groupEnd_vip {s : State} (h : s.mergedStack ≠ []) :
    (groupEnd s).runState = s.runState ∧ (∃ e ∈ s.mergedStack, (groupEnd s).vip = e.resume) ∧
      ∀ e ∈ s.mergedStack, (groupEnd s).vip ≤ e.resume := by
  obtain ⟨e, rest, hst⟩ := List.exists_cons_of_ne_nil h
  obtain ⟨hrun, -, hvip⟩ := groupEnd_of_cons hst
  obtain ⟨hmem, hle, hall⟩ := leastResume_spec e.resume rest
  rw [hvip, hst]
  refine ⟨hrun, ?_, List.forall_mem_cons.2 ⟨hle, hall⟩⟩
  rcases hmem with heq | ⟨f, hf, heq⟩
  · exact ⟨e, List.mem_cons_self, heq⟩
  · exact ⟨f, List.mem_cons_of_mem _ hf, heq⟩

/-- A VECTOR step at the program's end ends the active group (R234 step 2). -/
theorem step_vector_of_end {s : State} (hr : s.runningIn .vector) (hend : s.progLen ≤ s.vip) :
    step s = .next (groupEnd s) := by
  rw [step_vector hr.1 hr.2, vectorStep, if_pos hend]

/-- The end of a group writes the lanes, the stack, vip and STATUS.STATE alone. -/
theorem groupEnd_frame (s : State) : groupEnd s = { s with
    lanes := (groupEnd s).lanes
    pstack := s.mergedStack
    vip := (groupEnd s).vip
    runState := (groupEnd s).runState } := by
  rw [← groupEnd_pstack]
  obtain ⟨ls, st, v, h | h⟩ := groupEnd_eq s <;> rw [h] <;> rfl

/-- Settles O47: the lanes, the stack and the pointer after the end of a group. -/
theorem groupEndFinishesActiveLanes : Obligations.GroupEndFinishesActiveLanes := by
  unfold Obligations.GroupEndFinishesActiveLanes
  intro s hr hend
  refine ⟨_, step_vector_of_end hr hend, fun l => groupEnd_lane_of_active, fun l => groupEnd_lane_of_not_active,
    groupEnd_frame s, fun hnil => ?_, fun hne => ?_⟩
  · obtain ⟨hdone, -, hvip⟩ := groupEnd_of_nil hnil
    exact ⟨hdone, hvip⟩
  · obtain ⟨hrun, hmem, hle⟩ := groupEnd_vip hne
    exact ⟨hrun.trans hr.1, hmem, hle⟩

/-! ### The invariant -/

/-- The invariant from the number of entries that park each lane (R244). -/
theorem vectorInv_of_parkedIn {s : State}
    (hone : ∀ l, s.takesPart l → parkedIn s.pstack l ≤ 1 ∧ (s.lanes[l].done = true → parkedIn s.pstack l = 0))
    (hparks : ∀ e ∈ s.pstack, ∃ l, s.takesPart l ∧ e.pred[l] = false)
    (hwaits : ∃ l, s.takesPart l ∧ parkedIn s.pstack l = 0) (hactive : ∃ l, ActiveHere s l) : s.VectorInv where
  oneState l hl := (oneState_iff hl).2 (hone l hl)
  parksSomeone := hparks
  someoneWaitsNot := hwaits
  activeAfterMerge := hactive

/-- A run that has just started is in the invariant: no lane is parked or done (R232). -/
theorem vectorInv_of_start {s : State} (hN : 1 ≤ s.laneCount) (hst : s.pstack = [])
    (hd : ∀ l : Lane, s.takesPart l → s.lanes[l].done = false) : s.VectorInv := by
  have hzero (l : Lane) : parkedIn s.pstack l = 0 := by rw [hst]; rfl
  have h0 : s.takesPart 0 := hN
  refine vectorInv_of_parkedIn (fun l _ => by simp [hzero]) (by simp [hst]) ⟨0, h0, hzero 0⟩
    ⟨0, activeHere_iff.2 ⟨h0, hd 0 h0, parkedIn_mergedStack_eq_zero (hzero 0)⟩⟩

/-- Executing an instruction keeps the invariant: only active lanes can be parked, and some active lane goes on. -/
theorem vectorInv_exec {i : Instr} {s t : State} (h : s.VectorInv) (hv : s.mode = .vector) (hi : i.hasMem = false)
    (he : exec i s = .next t) : t.VectorInv := by
  have hst := stackAfter_exec h hv hi he
  have hdone (l : Lane) : t.lanes[l].done = s.lanes[l].done := exec_lane_done hv he
  have hpart (l : Lane) : t.takesPart l ↔ s.takesPart l := by
    obtain ⟨ls, st, v, rfl⟩ := exec_vector_frame hv hi he
    exact Iff.rfl
  obtain ⟨l, ha, hz⟩ := hst.goesOn
  have hl : t.takesPart l := (hpart l).2 (takesPart_of_activeHere ha)
  have hd : t.lanes[l].done = false := (hdone l).trans (done_of_activeHere ha)
  refine vectorInv_of_parkedIn (fun m hm => ?_) (by simpa only [hpart] using hst.parksSomeone) ⟨l, hl, hz⟩
    ⟨l, activeHere_iff.2 ⟨hl, hd, parkedIn_mergedStack_eq_zero hz⟩⟩
  rw [hpart] at hm
  rw [hdone]
  by_cases ham : ActiveHere s m
  · exact ⟨hst.atMostOne m ham, fun hdm => absurd ((done_of_activeHere ham).symm.trans hdm) Bool.false_ne_true⟩
  · rw [(hst.waiting m ham).1]
    exact ⟨h.merged_le_one hm, h.merged_of_done hm⟩

/-- The end of a group that is not the last one keeps the invariant: the group at the least resume goes on (R241). -/
theorem vectorInv_groupEnd {s : State} (h : s.VectorInv) (hne : s.mergedStack ≠ []) : (groupEnd s).VectorInv := by
  have hpart (l : Lane) : (groupEnd s).takesPart l ↔ s.takesPart l := by rw [groupEnd_frame]; rfl
  obtain ⟨-, ⟨e, he, hvip⟩, -⟩ := groupEnd_vip hne
  obtain ⟨l, hl, hp⟩ := h.parksSomeone e (mem_mergedStack_iff.1 he).1
  obtain ⟨m, hm⟩ := h.activeAfterMerge
  have hla : ¬ ActiveHere s l := fun ha => (parkedIn_pos he hp).ne' (parkedIn_of_activeHere ha)
  have hld : s.lanes[l].done = false := by
    by_contra hd
    exact (parkedIn_pos he hp).ne' (h.merged_of_done hl (by simpa using hd))
  refine vectorInv_of_parkedIn (fun k hk => ?_) ?_ ⟨m, (hpart m).2 (takesPart_of_activeHere hm), ?_⟩
    ⟨l, activeHere_iff.2 ⟨(hpart l).2 hl, ?_, ?_⟩⟩
  · rw [hpart] at hk
    rw [groupEnd_pstack]
    refine ⟨h.merged_le_one hk, fun hd => ?_⟩
    by_cases hka : ActiveHere s k
    · exact parkedIn_of_activeHere hka
    · exact h.merged_of_done hk (groupEnd_lane_of_not_active hka ▸ hd)
  · simp only [groupEnd_pstack, hpart]
    exact (stackAfter_merged h).parksSomeone
  · rw [groupEnd_pstack, parkedIn_of_activeHere hm]
  · rw [groupEnd_lane_of_not_active hla, hld]
  · refine parkedIn_eq_zero_iff.2 fun f hf => ?_
    obtain ⟨hfs, hfne⟩ := mem_mergedStack_iff.1 hf
    rw [groupEnd_pstack] at hfs
    by_contra hfp
    have heq := eq_of_parkedIn_le_one (h.merged_le_one hl) he hfs hp (by simpa using hfp)
    exact hfne (heq ▸ hvip.symm)

/-- The ends of a step of a VECTOR run that raises no error: the end of a group, or an instruction without a memory
operand (R234). -/
theorem step_vector_of_no_error {s t : State} (hr : s.runningIn .vector) (ht : step s = .next t)
    (hne : t.runState ≠ .error) :
    (s.progLen ≤ s.vip ∧ t = groupEnd s) ∨
    (s.vip < s.progLen ∧ t.runState = .running ∧ ∃ i, s.fetches s.vip i ∧ i.hasMem = false ∧ exec i s = .next t) := by
  by_cases hend : s.progLen ≤ s.vip
  · rw [step_vector_of_end hr hend] at ht
    cases ht
    exact .inl ⟨hend, rfl⟩
  · rw [step_vector hr.1 hr.2, vectorStep, if_neg hend] at ht
    cases hd : s.decodeAt s.vip with
    | error e =>
      obtain ⟨k, o, b, hraise, -⟩ := raiseDecode_eq_raise s s.vip e
      rw [hd] at ht
      cases ht
      exact absurd (by rw [hraise, State.raise_runState]) hne
    | ok p =>
      rw [hd] at ht
      obtain ⟨-, rfl⟩ | ⟨hi, ls, st, v, rfl⟩ := exec_vector_eq hr.2 ht
      · exact absurd rfl hne
      · exact .inr ⟨BitVec.not_le.1 hend, hr.1, p.1, ⟨BitVec.not_le.1 hend, p.2, hd⟩, hi, ht⟩

/-- Settles O49: by an instruction or by the end of a group that is not the last one. -/
theorem stepKeepsVectorInvariant : Obligations.StepKeepsVectorInvariant := by
  unfold Obligations.StepKeepsVectorInvariant
  intro s t hr h ht hrun
  obtain ⟨-, rfl⟩ | ⟨-, -, i, -, hi, he⟩ := step_vector_of_no_error hr ht (by simp [hrun])
  · refine vectorInv_groupEnd h fun hnil => ?_
    simp [(groupEnd_of_nil hnil).1] at hrun
  · exact vectorInv_exec h hr.2 hi he

/-- With no entry left, the end of a group leaves every lane done (R242). -/
theorem groupEnd_all_done {s : State} (h : s.mergedStack = []) {l : Lane} (hl : s.takesPart l) :
    (groupEnd s).lanes[l].done = true := by
  by_cases ha : ActiveHere s l
  · rw [groupEnd_lane_of_active ha]
  · rw [groupEnd_lane_of_not_active ha]
    by_contra hd
    obtain ⟨e, he, -⟩ := exists_entry_of_not_activeHere hl ha (by simpa using hd)
    simp [h] at he

/-- Settles O50: the counting of entries against lanes, and the end of the last group. -/
theorem predicateStackStaysBelowLaneCount : Obligations.PredicateStackStaysBelowLaneCount := by
  unfold Obligations.PredicateStackStaysBelowLaneCount
  refine ⟨fun s h => ?_, fun s t hr h ht hdone l hl => ?_⟩
  · have hlt := h.length_lt_card
    have hcard : (Finset.univ.filter s.takesPart).card = min maxLanes s.laneCount := Fin.card_filter_val_lt
    have hmax : maxLanes = 32 := rfl
    omega
  · obtain ⟨-, rfl⟩ | ⟨-, hrun, -⟩ := step_vector_of_no_error hr ht (by simp [hdone])
    · refine groupEnd_all_done ?_ hl
      by_contra hne
      simp [(groupEnd_vip hne).1, hr.1] at hdone
    · simp [hdone] at hrun

/-! ### START -/

/-- START in VECTOR mode with a legal lane count begins a run (R232, R301). -/
theorem start_vector {s : State} (hv : s.mode = .vector) (h1 : 1 ≤ s.laneCount) (h32 : s.laneCount ≤ 32) :
    s.start = { s.clearError.vectorStart with runState := .running } := by
  obtain ⟨-, -, hmode, -, hlanes⟩ := mode_iff s.ctrl
  have hlegal : configLegal s.ctrl = true := by
    by_contra hf
    have hm : s.ctrl.toNat % 4 = 2 := hmode.1 hv
    have hN : s.laneCount = s.ctrl.toNat / 4 := hlanes
    have := (configLegal_eq_false_iff s.ctrl).1 (by simpa using hf)
    omega
  rw [State.start, if_pos hlegal, hv]

/-- A lane after VectorStart (R232). -/
theorem vectorStart_lane (s : State) (l : Lane) : s.vectorStart.lanes[l] =
    if l.val < s.laneCount then { s.lanes[l] with done := false, took := false, ipFinal := 0 } else s.lanes[l] :=
  ofFn_lane _ l

/-- Settles O48: START clears the bookkeeping of the lanes that take part, and parks none. -/
theorem vectorStartActivatesEveryLane : Obligations.VectorStartActivatesEveryLane := by
  unfold Obligations.VectorStartActivatesEveryLane
  intro s t r hv h1 h32 ht
  obtain ⟨-, hp⟩ := hostMove_eq_moved ht
  cases hp
  rw [start_vector hv h1 h32]
  have hlane (l : Lane) (hl : s.takesPart l) : s.clearError.vectorStart.lanes[l] =
      { s.lanes[l] with done := false, took := false, ipFinal := 0 } :=
    (vectorStart_lane s.clearError l).trans (if_pos hl)
  have hdone (l : Lane) (hl : s.takesPart l) : s.clearError.vectorStart.lanes[l].done = false := by rw [hlane l hl]
  refine ⟨⟨rfl, hv⟩, vectorInv_of_start h1 rfl hdone, rfl, rfl, rfl, fun l hl => ⟨?_, ?_⟩, fun l hl => ?_⟩
  · exact (active_iff_parkedIn _).2 ⟨hl, hdone l hl, rfl⟩
  · show s.clearError.vectorStart.lanes[l].x = _ ∧ s.clearError.vectorStart.lanes[l].flags = _ ∧
      s.clearError.vectorStart.lanes[l].took = _ ∧ s.clearError.vectorStart.lanes[l].done = _ ∧
      s.clearError.vectorStart.lanes[l].ipFinal = _
    rw [hlane l hl]
    exact ⟨rfl, rfl, rfl, rfl, rfl⟩
  · exact (vectorStart_lane s.clearError l).trans (if_neg hl)

end Sys2Proof.Machine
end

section
/-! PROOFS. The vector/scalar equivalence (45_vector_engine.md R244 item 4, R245): one step of a VECTOR run as scalar
steps of its lanes, and the law for whole runs. -/

namespace Sys2Proof.Machine

open Sys2Proof.Statements

/-! ### A lane as a scalar machine -/

/-- A lane that is active after the merge stands for the scalar machine at vip. -/
theorem laneScalar_of_activeHere {s : State} {l : Lane} (ha : ActiveHere s l) : s.laneScalar l = laneAtVip s l := by
  rw [State.laneScalar, laneIp_of_activeHere ha]
  rfl

/-- The scalar machine that a lane stands for fetches what the VECTOR run fetches (R244 item 4). -/
theorem laneScalar_fetches_iff (s : State) (l : Lane) (off : Word) (i : Instr) :
    (s.laneScalar l).fetches off i ↔ s.fetches off i := by
  rw [State.fetches, State.fetches, decodeAt_congr (s := s.laneScalar l) (t := s) rfl fun _ => rfl]
  rfl

theorem laneScalar_runningIn {s : State} (hr : s.runState = .running) (l : Lane) :
    (s.laneScalar l).runningIn .scalar :=
  ⟨hr, modeOf_setScalar s.ctrl⟩

/-- Where a lane that waits or is done stands, under any later stack that leaves its place alone (R244 item 4). -/
theorem laneIp_of_waiting {s t : State} {l : Lane} (h : s.VectorInv) (hl : s.takesPart l) (ha : ¬ ActiveHere s l)
    (hlane : t.lanes[l] = s.lanes[l]) (hst : ∀ v, resumeIn t.pstack v l = resumeIn s.mergedStack v l) :
    t.laneIp l = s.laneIp l := by
  cases hd : s.lanes[l].done with
  | true => rw [laneIp_of_done hd, laneIp_of_done (hlane ▸ hd), hlane]
  | false => rw [laneIp_of_not_done (hlane ▸ hd), hst, h.resumeIn_merged hl ha hd]

/-- The scalar machine of a lane that a step of the vector engine left in place, but for what the vector engine alone
reads. -/
theorem laneScalar_withVector {s : State} {l : Lane} {ls : Vector LaneState maxLanes} {st : List PredEntry} {v : Word}
    (hlane : ls[l] = s.lanes[l]) (hip : (s.withVector ls st v).laneIp l = s.laneIp l) :
    (s.withVector ls st v).laneScalar l = (s.laneScalar l).withVector ls st v := by
  rw [State.laneScalar, hip, State.withVector_lanes, hlane]
  rfl

section Exec

variable {i : Instr} {s t : State} {l : Lane} (hr : s.runningIn .vector) (hi : i.hasMem = false)
  (he : exec i s = .next t)
include hr hi he

/-- For an active lane, executing an instruction is one step of the scalar machine that the lane stands for. -/
theorem step_laneScalar_of_active (hf : s.fetches s.vip i) (ha : ActiveHere s l) :
    step (s.laneScalar l) = .next ((t.laneScalar l).withVector s.lanes s.pstack s.vip) := by
  have hstep : step (laneAtVip s l) = exec i (laneAtVip s l) := by
    rw [← laneScalar_of_activeHere ha]
    refine step_scalar_of_fetches (laneScalar_runningIn hr.1 l) ?_
    rw [laneScalar_fetches_iff, show (s.laneScalar l).ip = s.vip from laneIp_of_activeHere ha]
    exact hf
  rw [laneScalar_of_activeHere ha, hstep, exec_lane_of_active hr.2 he hi ha]
  obtain ⟨ls, st, v, rfl⟩ := exec_vector_frame hr.2 hi he
  rfl

/-- For every other lane that takes part, executing an instruction is no step of the scalar machine. -/
theorem laneScalar_of_not_active (h : s.VectorInv) (hl : s.takesPart l) (ha : ¬ ActiveHere s l) :
    t.laneScalar l = (s.laneScalar l).withVector t.lanes t.pstack t.vip := by
  have hlane := exec_lane_of_not_active hr.2 he ha
  have hip := laneIp_of_waiting h hl ha hlane fun v => ((stackAfter_exec h hr.2 hi he).waiting l ha).2 v
  obtain ⟨ls, st, v, rfl⟩ := exec_vector_frame hr.2 hi he
  exact laneScalar_withVector hlane hip

end Exec

/-- The end of a group leaves every lane where it stands: an active one is done at vip (R241, R244 item 4). -/
theorem groupEnd_laneIp {s : State} {l : Lane} (h : s.VectorInv) (hl : s.takesPart l) :
    (groupEnd s).laneIp l = s.laneIp l := by
  by_cases ha : ActiveHere s l
  · have hlane := groupEnd_lane_of_active ha
    rw [laneIp_of_done (by rw [hlane]), hlane, laneIp_of_activeHere ha]
  · exact laneIp_of_waiting h hl ha (groupEnd_lane_of_not_active ha) fun v => by rw [groupEnd_pstack]

/-- The end of a group changes no register and no flag (R241). -/
theorem groupEnd_lane_regs (s : State) (l : Lane) :
    (groupEnd s).lanes[l].x = s.lanes[l].x ∧ (groupEnd s).lanes[l].flags = s.lanes[l].flags := by
  by_cases ha : ActiveHere s l
  · rw [groupEnd_lane_of_active ha]
    exact ⟨rfl, rfl⟩
  · rw [groupEnd_lane_of_not_active ha]
    exact ⟨rfl, rfl⟩

/-- Settles O51: an instruction steps the active lanes' scalar machines, and the end of a group steps none. -/
theorem vectorStepIsScalarStepOfEachActiveLane : Obligations.VectorStepIsScalarStepOfEachActiveLane := by
  unfold Obligations.VectorStepIsScalarStepOfEachActiveLane
  intro s t hr h ht hne l hl
  obtain ⟨hend, rfl⟩ | ⟨hlt, hrun, i, hf, hi, he⟩ := step_vector_of_no_error hr ht hne
  · refine ⟨fun hact => absurd hend (BitVec.not_le.2 hact.2), fun _ => ?_⟩
    obtain ⟨hx, hflags⟩ := groupEnd_lane_regs s l
    exact ⟨hx, hflags, groupEnd_laneIp h hl⟩
  · refine ⟨fun hact => ?_, fun hnot => ?_⟩
    · have hdone := exec_lane_done (l := l) hr.2 he
      exact ⟨_, step_laneScalar_of_active hr hi he hf hact.1, hrun, rfl, rfl, rfl, rfl,
        hdone.trans (done_of_activeHere hact.1)⟩
    · have ha : ¬ ActiveHere s l := fun ha => hnot ⟨ha, hlt⟩
      have hlane := exec_lane_of_not_active hr.2 he ha
      exact ⟨by rw [hlane], by rw [hlane],
        laneIp_of_waiting h hl ha hlane fun v => ((stackAfter_exec h hr.2 hi he).waiting l ha).2 v⟩

/-! ### Whole scalar runs -/

/-- A memory-free scalar run from `s` that takes `n` steps and ends with the datapath `p` at `a` (R245). -/
inductive MemoryFreeEnd : Nat → State → Datapath → Word → Prop where
  | last {s : State} : s.runningIn .scalar → s.progLen ≤ s.ip → MemoryFreeEnd 1 s s.datapath s.ip
  | more {n : Nat} {s t : State} {i : Instr} {p : Datapath} {a : Word} : s.runningIn .scalar → s.fetches s.ip i →
      i.hasMem = false → step s = .next t → MemoryFreeEnd n t p a → MemoryFreeEnd (n + 1) s p a

theorem MemoryFreeRun.exists_end {s u : State} (h : MemoryFreeRun s u) : ∃ n, MemoryFreeEnd n s u.datapath u.ip := by
  induction h with
  | done hr hend => exact ⟨1, .last hr hend⟩
  | step hr hf hi ht _ ih =>
    obtain ⟨n, hn⟩ := ih
    exact ⟨n + 1, .more hr hf hi ht hn⟩

/-- A scalar step neither reads nor writes what the vector engine holds (R36, R139). -/
theorem step_scalar_withVector {s t : State} {i : Instr} (hr : s.runningIn .scalar) (hf : s.fetches s.ip i)
    (ht : step s = .next t) (ls : Vector LaneState maxLanes) (st : List PredEntry) (v : Word) :
    (s.withVector ls st v).fetches s.ip i ∧ step (s.withVector ls st v) = .next (t.withVector ls st v) := by
  have hf' : (s.withVector ls st v).fetches s.ip i := by
    rw [State.fetches, decodeAt_congr (s := s.withVector ls st v) (t := s) rfl fun _ => rfl]
    exact hf
  have hm : s.mode ≠ .vector := by simp [hr.2]
  obtain ⟨q, a, -, hexec⟩ := exec_of_datapath i s.cfg.pfScope s.datapath s.ip
  rw [step_scalar_of_fetches hr hf, hexec s hm rfl rfl rfl] at ht
  cases ht
  exact ⟨hf', (step_scalar_of_fetches (s := s.withVector ls st v) hr hf').trans (hexec _ hm rfl rfl rfl)⟩

/-- A scalar run does not depend on what the vector engine holds. -/
theorem MemoryFreeEnd.withVector {n : Nat} {s : State} {p : Datapath} {a : Word} (h : MemoryFreeEnd n s p a)
    (ls : Vector LaneState maxLanes) (st : List PredEntry) (v : Word) : MemoryFreeEnd n (s.withVector ls st v) p a := by
  induction h with
  | last hr hend => exact .last (s := State.withVector _ ls st v) hr hend
  | more hr hf hi ht _ ih =>
    obtain ⟨hf', ht'⟩ := step_scalar_withVector hr hf ht ls st v
    exact .more (s := State.withVector _ ls st v) hr hf' hi ht' ih

theorem MemoryFreeEnd.pos {n : Nat} {s : State} {p : Datapath} {a : Word} (h : MemoryFreeEnd n s p a) : 0 < n := by
  cases h <;> exact Nat.succ_pos _

/-- At the program's end a scalar run is over. -/
theorem MemoryFreeEnd.of_end {n : Nat} {s : State} {p : Datapath} {a : Word} (h : MemoryFreeEnd n s p a)
    (hend : s.progLen ≤ s.ip) : n = 1 ∧ p = s.datapath ∧ a = s.ip := by
  cases h with
  | last => exact ⟨rfl, rfl, rfl⟩
  | more _ hf => exact absurd hend (BitVec.not_le.2 hf.1)

/-- Inside the program a scalar run goes on with the instruction at ip. -/
theorem MemoryFreeEnd.of_inside {n : Nat} {s : State} {p : Datapath} {a : Word} (h : MemoryFreeEnd n s p a)
    (hlt : s.ip < s.progLen) :
    ∃ i t, s.fetches s.ip i ∧ i.hasMem = false ∧ step s = .next t ∧ MemoryFreeEnd (n - 1) t p a := by
  cases h with
  | last _ hend => exact absurd hend (BitVec.not_le.2 hlt)
  | more _ hf hi ht hrest => exact ⟨_, _, hf, hi, ht, hrest⟩

/-- A scalar run has one end. -/
theorem MemoryFreeEnd.unique {m n : Nat} {s : State} {p q : Datapath} {a b : Word} (h : MemoryFreeEnd m s p a)
    (h' : MemoryFreeEnd n s q b) : p = q ∧ a = b := by
  induction h generalizing n with
  | last _ hend =>
    obtain ⟨-, rfl, rfl⟩ := h'.of_end hend
    exact ⟨rfl, rfl⟩
  | more _ hf _ ht _ ih =>
    obtain ⟨_, _, -, -, ht', hrest⟩ := h'.of_inside hf.1
    cases ht.symm.trans ht'
    exact ih hrest

/-! ### The equivalence law -/

/-- Lane `l` holds the datapath `p`, and `a` as its ip_final. -/
def LaneHolds (s : State) (l : Lane) (p : Datapath) (a : Word) : Prop :=
  s.laneDatapath l = p ∧ s.lanes[l].ipFinal = a

/-- The scalar run of lane `l` has `n` steps to go to end with `p` at `a`; a lane that is done has ended there. -/
def LaneOwes (s : State) (l : Lane) (n : Nat) (p : Datapath) (a : Word) : Prop :=
  (s.lanes[l].done = true ∧ n = 0 ∧ LaneHolds s l p a) ∨
  (s.lanes[l].done = false ∧ MemoryFreeEnd n (s.laneScalar l) p a)

/-- What is left of a lane's scalar run after a step of the VECTOR run. -/
def owedAfter (s : State) (f : Lane → Nat) (l : Lane) : Nat := if s.active s.mergedStack l then f l - 1 else f l

theorem owedAfter_of_active {s : State} {l : Lane} (ha : ActiveHere s l) (f : Lane → Nat) :
    owedAfter s f l = f l - 1 := if_pos ha

theorem owedAfter_of_not_active {s : State} {l : Lane} (ha : ¬ ActiveHere s l) (f : Lane → Nat) :
    owedAfter s f l = f l := if_neg ha

section Owes

variable {s : State} {l : Lane} {n : Nat} {p : Datapath} {a : Word} (ho : LaneOwes s l n p a)
include ho

theorem LaneOwes.of_activeHere (ha : ActiveHere s l) : MemoryFreeEnd n (s.laneScalar l) p a := by
  obtain ⟨hd, -⟩ | ⟨-, hrun⟩ := ho
  · exact absurd ((done_of_activeHere ha).symm.trans hd) Bool.false_ne_true
  · exact hrun

/-- What a lane that is left in place owes, it owes after the step. -/
theorem LaneOwes.of_waiting {t : State} (hlane : t.lanes[l] = s.lanes[l]) (hmem : t.mem = s.mem)
    (hsame : s.lanes[l].done = false → t.laneScalar l = (s.laneScalar l).withVector t.lanes t.pstack t.vip) :
    LaneOwes t l n p a := by
  obtain ⟨hd, hn, hp, ha⟩ | ⟨hd, hrun⟩ := ho
  · refine .inl ⟨hlane ▸ hd, hn, ?_, hlane ▸ ha⟩
    rw [State.laneDatapath, hlane, hmem]
    exact hp
  · refine .inr ⟨hlane ▸ hd, ?_⟩
    rw [hsame hd]
    exact hrun.withVector _ _ _

/-- A lane that is done owes nothing: it holds the end of its scalar run. -/
theorem LaneOwes.of_done (hd : s.lanes[l].done = true) : LaneHolds s l p a := by
  obtain ⟨-, -, hholds⟩ | ⟨hd', -⟩ := ho
  · exact hholds
  · exact absurd (hd'.symm.trans hd) Bool.false_ne_true

end Owes

section Step

variable {s t : State} {l : Lane} {f : Lane → Nat} {p : Datapath} {a : Word} (hr : s.runningIn .vector)
  (h : s.VectorInv) (hl : s.takesPart l) (ho : LaneOwes s l (f l) p a)
include hr h hl ho

/-- Executing an instruction pays one step for each active lane. -/
theorem LaneOwes.exec {i : Instr} (hf : s.fetches s.vip i) (hi : i.hasMem = false) (he : exec i s = .next t) :
    LaneOwes t l (owedAfter s f l) p a := by
  by_cases ha : ActiveHere s l
  · have hip : (s.laneScalar l).ip = s.vip := laneIp_of_activeHere ha
    obtain ⟨_, u, -, -, hu, hrest⟩ := (ho.of_activeHere ha).of_inside (hip ▸ hf.1 :)
    cases (step_laneScalar_of_active hr hi he hf ha).symm.trans hu
    rw [owedAfter_of_active ha]
    exact .inr ⟨(exec_lane_done hr.2 he).trans (done_of_activeHere ha), hrest.withVector t.lanes t.pstack t.vip⟩
  · have hmem : t.mem = s.mem := by
      obtain ⟨ls, st, v, rfl⟩ := exec_vector_frame hr.2 hi he
      rfl
    rw [owedAfter_of_not_active ha]
    exact ho.of_waiting (exec_lane_of_not_active hr.2 he ha) hmem fun _ => laneScalar_of_not_active hr hi he h hl ha

/-- The end of a group pays the last step of each active lane's scalar run. -/
theorem LaneOwes.groupEnd (hend : s.progLen ≤ s.vip) : LaneOwes (groupEnd s) l (owedAfter s f l) p a := by
  have hmem : (Machine.groupEnd s).mem = s.mem := by rw [groupEnd_frame]
  by_cases ha : ActiveHere s l
  · have hip : (s.laneScalar l).ip = s.vip := laneIp_of_activeHere ha
    obtain ⟨hn, rfl, rfl⟩ := (ho.of_activeHere ha).of_end (hip ▸ hend :)
    have hlane := groupEnd_lane_of_active ha
    rw [owedAfter_of_active ha, hn]
    refine .inl ⟨by rw [hlane], rfl, ?_, ?_⟩
    · rw [State.laneDatapath, hlane, hmem]
      rfl
    · rw [hlane, hip]
  · have hlane := groupEnd_lane_of_not_active ha
    rw [owedAfter_of_not_active ha]
    refine ho.of_waiting hlane hmem fun hd => ?_
    have hip := groupEnd_laneIp h hl
    have hrun : (Machine.groupEnd s).runState = s.runState := by
      obtain ⟨e, he, -⟩ := exists_entry_of_not_activeHere hl ha hd
      exact (groupEnd_vip (List.ne_nil_of_mem he)).1
    obtain ⟨ls, st, v, hg | hg⟩ := groupEnd_eq s <;> rw [hg] at hlane hip hrun ⊢
    · exact laneScalar_withVector hlane hip
    · simp [hr.1] at hrun

end Step

/-- A step of a VECTOR run keeps the mode and the lanes that take part. -/
theorem step_vector_keeps_config {s t : State} (hr : s.runningIn .vector) (ht : step s = .next t) :
    t.mode = .vector ∧ ∀ l, t.takesPart l ↔ s.takesPart l := by
  obtain ⟨ls, st, v, rfl | rfl⟩ | ⟨k, o, b, rfl⟩ := step_vector_eq hr ht <;> exact ⟨hr.2, fun _ => Iff.rfl⟩

/-- While every lane owes a memory-free run, the VECTOR run steps without an error, and each active lane pays. -/
theorem step_of_owes {s : State} {f : Lane → Nat} {p : Lane → Datapath} {a : Lane → Word} (hr : s.runningIn .vector)
    (h : s.VectorInv) (ho : ∀ l, s.takesPart l → LaneOwes s l (f l) (p l) (a l)) :
    ∃ t, step s = .next t ∧ t.runState ≠ .error ∧
      ∀ l, s.takesPart l → LaneOwes t l (owedAfter s f l) (p l) (a l) := by
  by_cases hend : s.progLen ≤ s.vip
  · refine ⟨_, step_vector_of_end hr hend, ?_, fun l hl => (ho l hl).groupEnd hr h hl hend⟩
    obtain ⟨ls, st, v, hg | hg⟩ := groupEnd_eq s <;> simp [hg, hr.1]
  · obtain ⟨m, hm⟩ := h.activeAfterMerge
    have hm : ActiveHere s m := hm
    have hip : (s.laneScalar m).ip = s.vip := laneIp_of_activeHere hm
    obtain ⟨i, _, hf, hi, -, -⟩ :=
      ((ho m (takesPart_of_activeHere hm)).of_activeHere hm).of_inside (hip ▸ BitVec.not_le.1 hend :)
    rw [hip, laneScalar_fetches_iff] at hf
    obtain ⟨t, he⟩ := exec_next i s
    refine ⟨t, (step_vector_of_fetches hr hf).trans he, ?_, fun l hl => (ho l hl).exec hr h hl hf hi he⟩
    obtain ⟨ls, st, v, rfl⟩ := exec_vector_frame hr.2 hi he
    simp [hr.1]

/-- Some lane is active, so that less is owed after each step. -/
theorem sum_owedAfter_lt {s : State} {f : Lane → Nat} {p : Lane → Datapath} {a : Lane → Word} (h : s.VectorInv)
    (ho : ∀ l, s.takesPart l → LaneOwes s l (f l) (p l) (a l)) : ∑ l, owedAfter s f l < ∑ l, f l := by
  obtain ⟨m, hm⟩ := h.activeAfterMerge
  have hpos := ((ho m (takesPart_of_activeHere hm)).of_activeHere hm).pos
  refine Finset.sum_lt_sum (fun l _ => ?_) ⟨m, Finset.mem_univ m, ?_⟩
  · unfold owedAfter
    split <;> omega
  · rw [owedAfter_of_active hm]
    omega

/-- The VECTOR run ends, and every lane holds the end of its scalar run; by induction on what is owed. -/
theorem run_of_owes (N : Nat) {s : State} {f : Lane → Nat} {p : Lane → Datapath} {a : Lane → Word}
    (hr : s.runningIn .vector) (h : s.VectorInv) (ho : ∀ l, s.takesPart l → LaneOwes s l (f l) (p l) (a l))
    (hN : ∑ l, f l < N) :
    ∃ k t, Sys2Proof.core.run k s = .next t ∧ t.runState = .done ∧
      ∀ l, s.takesPart l → LaneHolds t l (p l) (a l) := by
  induction N generalizing s f with
  | zero => exact absurd hN (Nat.not_lt_zero _)
  | succ N ih =>
    obtain ⟨t, ht, hne, ho'⟩ := step_of_owes hr h ho
    obtain ⟨hv, hpart⟩ := step_vector_keeps_config hr ht
    by_cases hrun : t.runState = .running
    · have hlt := sum_owedAfter_lt h ho
      obtain ⟨k, u, hk, hdone, hall⟩ := ih ⟨hrun, hv⟩ (stepKeepsVectorInvariant s t hr h ht hrun)
        (fun l hl => ho' l ((hpart l).1 hl)) (Nat.lt_of_lt_of_le hlt (Nat.le_of_lt_succ hN))
      exact ⟨k + 1, u, (core_run_succ k ht).trans hk, hdone, fun l hl => hall l ((hpart l).2 hl)⟩
    · have hdone : t.runState = .done := by
        obtain ⟨ls, st, v, rfl | rfl⟩ | ⟨k, o, b, rfl⟩ := step_vector_eq hr ht
        · exact absurd hr.1 hrun
        · rfl
        · exact absurd rfl hne
      exact ⟨1, t, core_run_succ 0 ht, hdone, fun l hl =>
        (ho' l hl).of_done (predicateStackStaysBelowLaneCount.2 s t hr h ht hdone l hl)⟩

/-- Settles O52: every lane owes its scalar run; and an active lane's scalar machine fetches at vip. -/
theorem vectorRunEqualsScalarRuns : Obligations.VectorRunEqualsScalarRuns := by
  unfold Obligations.VectorRunEqualsScalarRuns
  refine ⟨fun s hr h1 _ _ hst hd hruns => ?_, fun s l i hr h ha hf hi => ?_⟩
  · have howed (l : Lane) : ∃ n p a, s.takesPart l → MemoryFreeEnd n (s.laneScalar l) p a := by
      by_cases hl : s.takesPart l
      · obtain ⟨u, hu⟩ := hruns l hl
        obtain ⟨n, hn⟩ := hu.exists_end
        exact ⟨n, _, _, fun _ => hn⟩
      · exact ⟨0, s.datapath, 0, fun hl' => absurd hl' hl⟩
    choose n p a hend using howed
    obtain ⟨k, t, hk, hdone, hall⟩ := run_of_owes _ hr (vectorInv_of_start h1 hst hd)
      (fun l hl => .inr ⟨hd l hl, hend l hl⟩) (Nat.lt_succ_self (∑ l, n l))
    refine ⟨k, t, hk, hdone, fun l hl u hu => ?_⟩
    obtain ⟨_, hu'⟩ := hu.exists_end
    obtain ⟨hp, ha⟩ := (hend l hl).unique hu'
    obtain ⟨hlane, hfinal⟩ := hall l hl
    have hdatapath : t.laneDatapath l = u.datapath := hlane.trans hp
    exact ⟨congrArg Datapath.x hdatapath, congrArg Datapath.flags hdatapath, hfinal.trans ha⟩
  · have hip : (s.laneScalar l).ip = s.vip := laneIp_of_activeHere ha
    rw [hip, laneScalar_fetches_iff] at hf
    rw [laneIp_of_activeHere ha, step_vector_of_fetches hr hf]
    exact exec_vector_of_hasMem hr.2 hi

end Sys2Proof.Machine
end

section
/-! PROOFS. The errors of a step (60_exceptions.md R270 to R276): where one can come from, what it reports, and that
nothing else changes. -/

namespace Sys2Proof.Machine

open Sys2Proof.Statements

/-- The end of a group raises no error. -/
theorem groupEnd_runState_ne_error {s : State} (hr : s.runState = .running) : (groupEnd s).runState ≠ .error := by
  obtain ⟨ls, st, v, h | h⟩ := groupEnd_eq s <;> simp [h, hr]

/-- The only error a decoded instruction raises is the vector engine's refusal of its memory operand (R136, R233,
R272). -/
theorem exec_error {i : Instr} {s t : State} (hr : s.runState = .running) (hx : exec i s = .next t)
    (ht : t.runState = .error) :
    s.mode = .vector ∧ i.hasMem = true ∧ t = s.raise .unsupportedInstruction s.vip i.op0 := by
  by_cases hv : s.mode = .vector
  · obtain ⟨hi, hraise⟩ | ⟨-, ls, st, v, rfl⟩ := exec_vector_eq hv hx
    · exact ⟨hv, hi, hraise⟩
    · simp [hr] at ht
  · obtain ⟨q, a, -, hs⟩ := exec_of_datapath i s.cfg.pfScope s.datapath s.ip
    rw [hs s hv rfl rfl rfl] at hx
    cases hx
    simp [hr] at ht

/-- Everything an error of a step can be: in any mode a failed decode at the pointer, in VECTOR mode the refusal of a
memory operand at vip. The ends of the step that raise nothing leave STATUS.STATE RUNNING or DONE. -/
theorem step_error_cases {s t : State} (hr : s.runState = .running) (h : step s = .next t)
    (ht : t.runState = .error) :
    (∃ e, t = s.raiseDecode (pointer s) e) ∨
    (s.mode = .vector ∧ ∃ i, s.fetches s.vip i ∧ i.hasMem = true ∧
      t = s.raise .unsupportedInstruction s.vip i.op0) := by
  obtain ⟨hn, -⟩ | ⟨-, ⟨hm, hs⟩ | ⟨hm, hs⟩ | ⟨hm, hs⟩⟩ := step_cases h
  · exact absurd hr hn
  · rw [pointer_scalar hm]
    obtain ⟨-, rfl⟩ | ⟨-, ⟨e, -, he⟩ | ⟨i, r, -, hx⟩⟩ := hs
    · simp at ht
    · exact .inl ⟨e, he⟩
    · obtain ⟨hv, -, -⟩ := exec_error hr hx ht
      simp [hm] at hv
  · rw [pointer_vector hm]
    obtain ⟨-, rfl⟩ | ⟨hlt, ⟨e, -, he⟩ | ⟨i, r, hd, hx⟩⟩ := hs
    · exact absurd ht (groupEnd_runState_ne_error hr)
    · exact .inl ⟨e, he⟩
    · obtain ⟨-, hi, hraise⟩ := exec_error hr hx ht
      exact .inr ⟨hm, i, ⟨BitVec.not_le.1 hlt, r, hd⟩, hi, hraise⟩
  · rw [pointer_decodeOnly hm]
    obtain ⟨-, rfl⟩ | ⟨-, ⟨e, -, he⟩ | ⟨i, r, -, rfl⟩⟩ := hs
    · simp at ht
    · exact .inl ⟨e, he⟩
    · simp [hr] at ht

/-- An error of a step is one Raise on the state the step began with, of one of the three kinds a step can raise
(R271, R272, R274, R276). -/
theorem step_error_eq_raise {s t : State} (hr : s.runState = .running) (h : step s = .next t)
    (ht : t.runState = .error) :
    ∃ k o b, t = s.raise k o b ∧ (k = .decodeError ∨ k = .inputTruncated ∨ k = .unsupportedInstruction) := by
  obtain ⟨e, rfl⟩ | ⟨-, i, -, -, rfl⟩ := step_error_cases hr h ht
  · obtain ⟨k, o, b, heq, hk⟩ := raiseDecode_eq_raise s (pointer s) e
    exact ⟨k, o, b, heq, hk.imp_right .inl⟩
  · exact ⟨_, _, _, rfl, .inr (.inr rfl)⟩

/-- Settles O15: an error is one Raise on the state the step began with, and outside RUNNING a step holds. -/
theorem errorsArePrecise : Obligations.ErrorsArePrecise := by
  unfold Obligations.ErrorsArePrecise
  intro s t hr h ht
  have hhold : step t = .next t := step_of_not_running (by simp [ht])
  obtain ⟨k, o, b, rfl, hk⟩ := step_error_eq_raise hr h ht
  refine ⟨rfl, ?_, ?_, hhold⟩ <;> rcases hk with rfl | rfl | rfl <;> simp

/-- Settles O16: a failed decode reports another kind, and the other error is the refusal at vip. -/
theorem unsupportedIsRaisedForVectorMemoryOperandsOnly :
    Obligations.UnsupportedIsRaisedForVectorMemoryOperandsOnly := by
  unfold Obligations.UnsupportedIsRaisedForVectorMemoryOperandsOnly
  intro s t hr h ht
  obtain ⟨e, rfl⟩ | ⟨hv, i, hf, hi, rfl⟩ := step_error_cases hr h ht
  · obtain ⟨k, o, b, heq, hk⟩ := raiseDecode_eq_raise s (pointer s) e
    rw [heq]
    rcases hk with rfl | rfl <;> simp
  · exact ⟨by simp, fun _ => ⟨hv, rfl, i, hf, hi, rfl⟩⟩

end Sys2Proof.Machine
end

section
/-! PROOFS. RESET, START, LOAD and the host's writes (70_reset_and_hazards.md R300, R301, R305): what each leaves in the
state, and that every move of the host keeps the block's invariant. -/

namespace Sys2Proof.Machine

open Sys2Proof.Statements

/-! ### RESET -/

@[simp] theorem readWord_zero (i : RegIdx) : readWord Regs.zero i = 0 := by
  simp [readWord, Regs.zero]

/-- An empty memory reads 0 everywhere (R39). -/
@[simp] theorem Memory.read_nil (a : Word) : Memory.read [] a = 0 := rfl

theorem resetWith_lane (c : Config) (l : Lane) : (State.resetWith c).lanes[l] = LaneState.zero := by
  simp

/-- Settles O55: RESET may be performed in any state, and its fields are those of the reset state. -/
theorem resetSetsEveryResetValue : Obligations.ResetSetsEveryResetValue := by
  unfold Obligations.ResetSetsEveryResetValue
  intro s
  refine ⟨State.resetWith s.cfg, .ok, hostMove_of_allowed rfl s, fun i => readWord_zero i, rfl, rfl,
    fun a => Memory.read_nil a, rfl, rfl, State.resetWith_mode _, State.resetWith_laneCount _,
    rfl, rfl, rfl, rfl, fun l => ?_, rfl, rfl, rfl, rfl⟩
  rw [resetWith_lane]
  exact ⟨fun i => readWord_zero i, rfl, rfl, rfl, rfl⟩

/-! ### START -/

/-- START accepts no run in the reserved mode (R33). -/
theorem mode_ne_reserved_of_configLegal {s : State} (h : configLegal s.ctrl = true) : s.mode ≠ .reserved := by
  intro hm
  have hm' : modeOf s.ctrl = .reserved := hm
  simp [configLegal, hm'] at h

/-- Everything START can do (R33, R301): it refuses an illegal configuration, or begins a run in one of three modes. -/
theorem start_cases (s : State) :
    (configLegal s.ctrl = false ∧ s.start = s.raise .configError 0 s.ctrl) ∨
    (configLegal s.ctrl = true ∧
      ((s.mode = .scalar ∧ s.start = { s.clearError with ip := 0, runState := .running }) ∨
       (s.mode = .vector ∧ s.start = { s.clearError.vectorStart with runState := .running }) ∨
       (s.mode = .decodeOnly ∧ s.start = { s.clearError.withSweep [] 0 with runState := .running }))) := by
  cases hl : configLegal s.ctrl with
  | false => exact .inl ⟨rfl, by simp [State.start, hl]⟩
  | true =>
    refine .inr ⟨rfl, ?_⟩
    cases hm : s.mode with
    | scalar => exact .inl ⟨rfl, by rw [State.start, if_pos hl, hm]⟩
    | vector => exact .inr (.inl ⟨rfl, by rw [State.start, if_pos hl, hm]⟩)
    | decodeOnly => exact .inr (.inr ⟨rfl, by rw [State.start, if_pos hl, hm]⟩)
    | reserved => exact absurd hm (mode_ne_reserved_of_configLegal hl)

/-- Settles O56: START is not allowed while RUNNING; otherwise it is one of the four cases above. -/
theorem startChecksConfiguration : Obligations.StartChecksConfiguration := by
  unfold Obligations.StartChecksConfiguration
  refine ⟨fun s hr => hostMove_of_running hr rfl, fun s hr => ?_⟩
  have hmove : hostMove .start s = .moved s.start .ok := hostMove_of_not_running hr _
  rw [← configLegal_eq_false_iff]
  obtain ⟨hl, hs⟩ | ⟨hl, hs⟩ := start_cases s
  · exact ⟨fun _ => ⟨.ok, hmove.trans (by rw [hs]; rfl)⟩, fun h => absurd hl h⟩
  · refine ⟨fun h => by simp [hl] at h, fun _ => ⟨s.start, .ok, hmove, ?_⟩⟩
    obtain ⟨hm, hs⟩ | ⟨hm, hs⟩ | ⟨hm, hs⟩ := hs <;> rw [hs]
    · exact ⟨rfl, rfl, rfl, rfl, pointer_scalar hm, rfl, rfl, rfl, rfl, rfl, rfl, fun h => absurd hm h,
        fun h => by simp [hm] at h, fun _ => ⟨rfl, rfl⟩, fun h => by simp [hm] at h, fun _ => ⟨rfl, rfl, rfl⟩⟩
    · refine ⟨rfl, rfl, rfl, rfl, pointer_vector hm, rfl, rfl, rfl, rfl, rfl, rfl, fun _ => rfl,
        fun h => by simp [hm] at h, fun _ => ⟨rfl, rfl⟩, fun _ => ⟨rfl, fun l hl => ?_, fun l hl => ?_⟩,
        fun h => absurd hm h⟩
      · exact (vectorStart_lane s.clearError l).trans (if_pos hl)
      · exact (vectorStart_lane s.clearError l).trans (if_neg hl)
    · exact ⟨rfl, rfl, rfl, rfl, pointer_decodeOnly hm, rfl, rfl, rfl, rfl, rfl, rfl, fun _ => rfl,
        fun _ => rfl, fun h => absurd hm h, fun h => by simp [hm] at h, fun _ => ⟨rfl, rfl, rfl⟩⟩

/-! ### LOAD -/

section Load

variable {s : State} {bytes : List Byte}

@[simp] theorem load_mem : (s.load bytes).mem = storeBytes s.mem 0 bytes := rfl

/-- LOAD is performed outside RUNNING for a program that fits (R305). -/
theorem hostMove_load (hr : s.runState ≠ .running) (hfit : bytes.length ≤ maxProg) :
    hostMove (.load bytes) s = .moved (s.load bytes) .ok := by
  rw [hostMove_of_not_running hr]
  exact if_pos hfit

/-- A longer LOAD is refused (R305). -/
theorem hostMove_load_of_too_long (hr : s.runState ≠ .running) (hlong : maxProg < bytes.length) :
    hostMove (.load bytes) s = .refused := by
  rw [hostMove_of_not_running hr]
  exact if_neg (Nat.not_le.2 hlong)

variable (hfit : bytes.length ≤ maxProg)
include hfit

/-- PROG_LEN holds the length of every program that fits (R29). -/
theorem load_progLen : (s.load bytes).progLen.toNat = bytes.length :=
  (BitVec.toNat_ofNat _ _).trans (Nat.mod_eq_of_lt (Nat.lt_succ_of_le hfit))

/-- A program that fits, placed at 0, lies inside M (R28). -/
theorem load_inside : 0 + bytes.length ≤ memSize := (Nat.zero_add _).trans_le (hfit.trans (by decide))

theorem load_wf (hm : s.mem.wf) : (s.load bytes).mem.wf :=
  storeBytes_wf hm (load_inside hfit)

/-- Memory after LOAD, by key. -/
theorem load_readKey (hm : s.mem.wf) (a : Nat) :
    (s.load bytes).mem.readKey a = if a < bytes.length then bytes.getD a 0 else s.mem.readKey a := by
  simpa using readKey_storeBytes hm (load_inside hfit) a

/-- After LOAD both sources hold the program, so fetch reads it from either (R67). -/
theorem load_fetchReads (hm : s.mem.wf) : FetchReads (s.load bytes) 0 bytes := by
  intro k hk
  rw [Nat.zero_add]
  cases hc : s.cfg.codeFetchSource with
  | memory => rw [fetchByte_memory (s := s.load bytes) hc, load_readKey hfit hm, if_pos hk]
  | programBuffer => exact fetchByte_programBuffer (s := s.load bytes) hc k

end Load

/-- Settles O57, from the lemmas about LOAD above. -/
theorem loadPlacesProgram : Obligations.LoadPlacesProgram := by
  unfold Obligations.LoadPlacesProgram
  intro s bytes hr hm
  exact ⟨hostMove_load_of_too_long hr, fun hfit => ⟨s.load bytes, hostMove_load hr hfit, load_progLen hfit, rfl,
    fun a => load_readKey hfit hm a.toNat, load_fetchReads hfit hm, load_wf hfit hm, rfl⟩⟩

/-! ### WRITE_REG and WRITE_MEM -/

/-- A register write of a target changes no other part of the scalar state or of a lane (R305). -/
theorem setReg_frame (s : State) (who : Target) (i : RegIdx) (v : Word) :
    s.setReg who i v = { s with x := (s.setReg who i v).x, lanes := (s.setReg who i v).lanes } := by
  cases who <;> rfl

/-- In every lane a register write changes the registers alone. -/
theorem setReg_lane (s : State) (who : Target) (i : RegIdx) (v : Word) (l : Lane) :
    (s.setReg who i v).lanes[l] = { s.lanes[l] with x := (s.setReg who i v).lanes[l].x } := by
  cases who with
  | scalar => rfl
  | lane m =>
    by_cases h : m.val = l.val
    · obtain rfl := Fin.ext h
      simp [State.setReg]
    · simp [State.setReg, h]

/-- A register write of a target changes no other register of any target. -/
theorem readWord_setReg_of_ne (s : State) {who who' : Target} {i j : RegIdx} (h : who' ≠ who ∨ j ≠ i) (v : Word) :
    readWord ((s.setReg who i v).regsOf who') j = readWord (s.regsOf who') j := by
  by_cases ht : who' = who
  · subst ht
    have hj : j ≠ i := h.resolve_left (fun hne => hne rfl)
    simp [hj]
  · rw [regsOf_setReg_of_ne s ht]

/-- Settles O60: each operation is performed outside RUNNING, and a write leaves the run state as it was. -/
theorem hostWritesAreReadBack : Obligations.HostWritesAreReadBack := by
  unfold Obligations.HostWritesAreReadBack
  intro s hr
  have move := hostMove_of_not_running hr
  refine ⟨fun who i v => ?_, fun hm a v => ?_, fun i => move _, fun l i => move _, fun a => move _, move _,
    fun l => move _, move _⟩
  · have hr' : (s.setReg who i v).runState ≠ .running := by
      rw [setReg_frame]
      exact hr
    refine ⟨s.setReg who i v, move _, ?_, fun who' j h => readWord_setReg_of_ne s h v, setReg_frame s who i v,
      setReg_lane s who i v⟩
    simp [hostMove_of_not_running hr', HostOp.perform]
  · refine ⟨{ s with mem := s.mem.write a v }, move _, ?_, fun b hb => ?_, rfl⟩
    · rw [hostMove_of_not_running (s := { s with mem := s.mem.write a v }) hr]
      simp [HostOp.perform, Memory.read_write hm]
    · exact (Memory.read_write hm a b v).trans (if_neg hb)

/-! ### The block's invariant -/

section Invariant

variable {s : State} (h : s.Inv)
include h

/-- Outside RUNNING the invariant holds of whatever keeps STATUS and has a canonical memory and a program as long as
its L. -/
theorem State.Inv.of_not_running (hr : s.runState ≠ .running) {t : State} (hmem : t.mem.wf)
    (hlen : t.prog.length = t.progLen.toNat) (hrun : t.runState = s.runState) (hkind : t.errKind = s.errKind) :
    t.Inv where
  memCanonical := hmem
  progLength := hlen
  configChecked := fun ht => absurd (hrun.symm.trans ht) hr
  errorReport := by simpa [hrun, hkind] using h.errorReport

/-- A run begins only in a checked configuration, with no report left (R33, R301). -/
theorem State.Inv.of_running (hl : configLegal s.ctrl = true) {t : State} (hmem : t.mem = s.mem)
    (hprog : t.prog = s.prog) (hlen : t.progLen = s.progLen) (hctrl : t.ctrl = s.ctrl) (hrun : t.runState = .running)
    (hkind : t.errKind = .none) : t.Inv where
  memCanonical := hmem ▸ h.memCanonical
  progLength := by rw [hprog, hlen]; exact h.progLength
  configChecked := fun _ => hctrl ▸ hl
  errorReport := by simp [hrun, hkind]

theorem State.Inv.start : s.start.Inv := by
  obtain ⟨-, hs⟩ | ⟨hl, ⟨-, hs⟩ | ⟨-, hs⟩ | ⟨-, hs⟩⟩ := start_cases s <;> rw [hs]
  · exact h.raise (by decide) _ _
  all_goals exact h.of_running hl rfl rfl rfl rfl rfl rfl

/-- Every host operation that moves keeps the invariant and the parameters: beside RESET and START, it writes outside
RUNNING or writes nothing. -/
theorem State.Inv.hostMove {op : HostOp} {t : State} {r : HostReply} (ht : hostMove op s = .moved t r) :
    t.Inv ∧ t.cfg = s.cfg := by
  obtain ⟨hallowed, hp⟩ := hostMove_eq_moved ht
  have idle (hop : op.allowedRunning = false) : s.runState ≠ .running := fun hr => by simp [hallowed hr] at hop
  cases op with
  | reset =>
    cases hp
    exact ⟨invariantHoldsAfterReset s.cfg, rfl⟩
  | load bytes =>
    simp only [HostOp.perform] at hp
    split at hp
    · next hfit =>
      cases hp
      exact ⟨h.of_not_running (idle rfl) (load_wf hfit h.memCanonical) (load_progLen hfit).symm rfl rfl, rfl⟩
    · cases hp
  | writeMem a v =>
    cases hp
    exact ⟨h.of_not_running (idle rfl) (Memory.wf_write h.memCanonical a v) h.progLength rfl rfl, rfl⟩
  | writeReg who i v =>
    cases hp
    rw [setReg_frame]
    exact ⟨h.of_not_running (idle rfl) h.memCanonical h.progLength rfl rfl, rfl⟩
  | writeFlags who v =>
    cases hp
    cases who <;> exact ⟨h.of_not_running (idle rfl) h.memCanonical h.progLength rfl rfl, rfl⟩
  | writeCsr n v =>
    cases hp
    by_cases hn : n = 0
    · subst hn
      exact ⟨h.of_not_running (idle rfl) h.memCanonical h.progLength rfl rfl, rfl⟩
    · rw [writeCsr_of_ne_zero s hn]
      exact ⟨h, rfl⟩
  | start =>
    cases hp
    refine ⟨h.start, ?_⟩
    obtain ⟨-, hs⟩ | ⟨-, ⟨-, hs⟩ | ⟨-, hs⟩ | ⟨-, hs⟩⟩ := start_cases s <;> rw [hs] <;> rfl
  | readMem | readReg | readFlags | readIp | readLane | readCsr | readOut =>
    cases hp
    exact ⟨h, rfl⟩

end Invariant

/-- Settles O40: the invariant operation by operation. -/
theorem hostMoveKeepsInvariant : Obligations.HostMoveKeepsInvariant := by
  unfold Obligations.HostMoveKeepsInvariant
  exact fun op s t r h ht => h.hostMove ht

end Sys2Proof.Machine
end

section
/-! PROOFS. The runs of the block and its host (70_reset_and_hazards.md R306, R311): how a step moves STATUS.STATE, and
that no reachable run stops at a fault or a refusal. -/

namespace Sys2Proof.Machine

open Sys2Proof.Statements

/-! ### The run-state machine -/

theorem raiseDecode_runState (s : State) (start : Word) (e : DecodeFail) :
    (s.raiseDecode start e).runState = .error := by
  cases e <;> rfl

/-- The end of a group goes on with the run or ends it (R241, R242). -/
theorem groupEnd_runState {s : State} (hr : s.runState = .running) :
    (groupEnd s).runState = .running ∨ (groupEnd s).runState = .done := by
  obtain ⟨ls, st, v, h | h⟩ := groupEnd_eq s <;> simp [h, hr]

/-- An executed instruction goes on with the run, unless the vector engine refuses it (R136, R233). -/
theorem exec_runState {i : Instr} {s t : State} (hr : s.runState = .running) (hx : exec i s = .next t) :
    t.runState = .running ∨ t.runState = .error := by
  by_cases hv : s.mode = .vector
  · obtain ⟨-, rfl⟩ | ⟨-, ls, st, v, rfl⟩ := exec_vector_eq hv hx
    · exact .inr rfl
    · exact .inl hr
  · obtain ⟨q, a, -, hs⟩ := exec_of_datapath i s.cfg.pfScope s.datapath s.ip
    rw [hs s hv rfl rfl rfl] at hx
    cases hx
    exact .inl hr

/-- A fetch inside the program goes on with the run or ends it in ERROR, in either engine. -/
theorem fetched_runState {s t : State} {off : Word} (hr : s.runState = .running)
    (h : (∃ e, s.decodeAt off = .error e ∧ t = s.raiseDecode off e) ∨
      ∃ i r, s.decodeAt off = .ok (i, r) ∧ exec i s = .next t) : t.runState = .running ∨ t.runState = .error := by
  obtain ⟨e, -, rfl⟩ | ⟨i, r, -, hx⟩ := h
  · exact .inr (raiseDecode_runState s off e)
  · exact exec_runState hr hx

/-- A step of a run past the program goes on or ends DONE, and one inside it goes on or ends in ERROR (R278, R306). -/
theorem step_runState_cases {s t : State} (hr : s.runState = .running) (h : step s = .next t) :
    (s.progLen ≤ pointer s ∧ (t.runState = .running ∨ t.runState = .done)) ∨
    (pointer s < s.progLen ∧ (t.runState = .running ∨ t.runState = .error)) := by
  obtain ⟨hn, -⟩ | ⟨-, ⟨hm, hs⟩ | ⟨hm, hs⟩ | ⟨hm, hs⟩⟩ := step_cases h
  · exact absurd hr hn
  · rw [pointer_scalar hm]
    obtain ⟨hend, rfl⟩ | ⟨hin, hs⟩ := hs
    · exact .inl ⟨hend, .inr rfl⟩
    · exact .inr ⟨BitVec.not_le.1 hin, fetched_runState hr hs⟩
  · rw [pointer_vector hm]
    obtain ⟨hend, rfl⟩ | ⟨hin, hs⟩ := hs
    · exact .inl ⟨hend, groupEnd_runState hr⟩
    · exact .inr ⟨BitVec.not_le.1 hin, fetched_runState hr hs⟩
  · rw [pointer_decodeOnly hm]
    obtain ⟨hend, rfl⟩ | ⟨hin, hs⟩ := hs
    · exact .inl ⟨hend, .inr rfl⟩
    · refine .inr ⟨BitVec.not_le.1 hin, ?_⟩
      obtain ⟨e, -, rfl⟩ | ⟨i, r, -, rfl⟩ := hs
      · exact .inr (raiseDecode_runState s _ e)
      · exact .inl hr

/-- Settles O11: outside RUNNING the state is held; a run ends DONE on the past side and in ERROR on the inside. -/
theorem stepFollowsRunStateMachine : Obligations.StepFollowsRunStateMachine := by
  unfold Obligations.StepFollowsRunStateMachine
  intro s t h
  refine ⟨fun hn => ?_, fun hr => ?_⟩
  · rw [step_of_not_running hn] at h
    cases h
    rfl
  · obtain ⟨hp, ht | ht⟩ | ⟨hp, ht | ht⟩ := step_runState_cases hr h <;> simp [ht, hp]

/-! ### Reachable runs -/

/-- A step answers a next state unless a run is in progress in the reserved mode (R306). -/
theorem exists_step {s : State} (h : s.runState = .running → s.mode ≠ .reserved) : ∃ t, step s = .next t := by
  by_cases hr : s.runState = .running
  · cases hm : s.mode with
    | scalar =>
      rw [step_scalar hr hm, scalarStep]
      split
      · exact ⟨_, rfl⟩
      · split
        · exact ⟨_, rfl⟩
        · exact exec_next _ s
    | vector =>
      rw [step_vector hr hm, vectorStep]
      split
      · exact ⟨_, rfl⟩
      · split
        · exact ⟨_, rfl⟩
        · exact exec_next _ s
    | decodeOnly =>
      rw [step_decodeOnly hr hm, decodeOnlyStep]
      split
      · exact ⟨_, rfl⟩
      · split <;> exact ⟨_, rfl⟩
    | reserved => exact absurd hm (h hr)
  · exact ⟨s, step_of_not_running hr⟩

/-- In the invariant every step answers a next state: START checked the configuration of the run (R33, R311). -/
theorem State.Inv.exists_step {s : State} (h : s.Inv) : ∃ t, Machine.step s = .next t :=
  Machine.exists_step fun hr => mode_ne_reserved_of_configLegal (h.configChecked hr)

/-- Any number of steps runs on from a state in the invariant. -/
theorem State.Inv.safeFor {s : State} (h : s.Inv) (k : Nat) : SafeFor k s := by
  induction k generalizing s with
  | zero => exact ⟨s, core_run_zero s⟩
  | succ k ih =>
    obtain ⟨t, ht⟩ := h.exists_step
    obtain ⟨u, hu⟩ := ih (h.step ht)
    exact ⟨u, (core_run_succ k ht).trans hu⟩

/-- Every reachable state is in the block's invariant. -/
theorem Reachable.inv {s : State} (h : Reachable s) : s.Inv := by
  induction h with
  | reset c => exact invariantHoldsAfterReset c
  | step _ ht ih => exact ih.step ht
  | host _ ht ih => exact (ih.hostMove ht).1

/-- Settles O41: reachable states are in the invariant, and runs from there go on. -/
theorem reachableRunsNeverStop : Obligations.ReachableRunsNeverStop := by
  unfold Obligations.ReachableRunsNeverStop
  exact fun s h k => h.inv.safeFor k

end Sys2Proof.Machine
end
